-- ==== Sys2Proof/Word.lean ====
section
/-! DEFINITION. The two word types of the block: bytes of the stream and of `ACC`, and 16-bit words of the command
and response ports (spec/00_scope.md section 5, spec/30_encoding.md R56, R62). -/

namespace Sys2Proof

/-- A byte: 8 bits (00_scope.md section 5). -/
abbrev Byte := BitVec 8

/-- A word of the command port or of the response port: 16 bits (R56, R62). -/
abbrev Word := BitVec 16

end Sys2Proof
end

