-- ==== Sys2Proof/Config.lean ====
section
/-! DEFINITION. The parameters of the block, with the values of spec/00_scope.md R5, and the build-time parameters the
spec leaves OPEN. No value of the spec is left to an opaque constant: what the host drives stands in State. -/

namespace Sys2Proof

/-- `P_HDR`, in stream order (R5, R6). -/
def Config.pHdr : List Byte := [0xFD, 0xFC, 0xFB, 0xFA]

/-- `P_FTR`, in stream order (R5, R6). -/
def Config.pFtr : List Byte := [0x04, 0x03, 0x02, 0x01]

/-- `P_HDR_LEN` (R5). -/
abbrev Config.pHdrLen : Nat := 4

/-- `P_FTR_LEN` (R5). -/
abbrev Config.pFtrLen : Nat := 4

/-- `P_LEN_BYTES` (R5). -/
abbrev Config.pLenBytes : Nat := 2

/-- `P_MAX_TOTAL` (R5). -/
abbrev Config.pMaxTotal : Nat := 154

/-- `P_MIN_TOTAL` (R5). No check of the block uses it (90_conflicts.md C6); the statements do. -/
abbrev Config.pMinTotal : Nat := 14

/-- `P_MIN_LENGTH` (R5). -/
abbrev Config.pMinLength : Nat := 4

/-- `P_CAP`, the capacity of `ACC` (R5, R12). -/
abbrev Config.pCap : Nat := 154

/-- `P_MAX_CHUNK`, the largest count an 8-bit field gives (R5). -/
abbrev Config.pMaxChunk : Nat := 255

/-- The build-time parameters the spec leaves OPEN (R5, 92_eei_decisions.md D14, 93_implementation_defined.md U7). A model
takes them as an argument: State carries them and no step writes them. -/
structure Params where
  /-- `P_CHUNK_FEED`: true when FEEDN accepts chunks of more than one byte. -/
  chunkFeed : Bool
  deriving DecidableEq, Repr

end Sys2Proof
end

