-- ==== Sys2Proof/Syntax.lean ====
section
/-! DEFINITION. The commands of the block: one constructor per row of spec/opcode_table.json (R57, R61). -/

namespace Sys2Proof

/-- One command with its operands (30_encoding.md R56 to R61). The payload of FEEDN and VALIDATE is the list of
payload words as they arrive, since a word with nonzero bits 15:8 is a malformed call and not another command (R59);
the count field `IMM8` is the number of those words (R58). The eight RESERVED rows keep the don't-care bits of `OPC`
(written x in the table) and `IMM8`, which R121 ignores, so that no bit of a word is lost (log entry 14). -/
inductive Instr where
  /-- INIT, word 0x0100 (R120). -/
  | init
  /-- FEED, word 0x02BB, the input byte (R98). -/
  | feed (b : Byte)
  /-- FEEDN, word 0x03NN, then NN payload words (R99). -/
  | feedn (payload : List Word)
  /-- VALIDATE, word 0x04NN, then NN payload words (R83). -/
  | validate (payload : List Word)
  /-- RESERVED, `OPC` 0x00 (R121). -/
  | reserved00 (imm8 : Byte)
  /-- RESERVED, `OPC` 0x05 (R121). -/
  | reserved05 (imm8 : Byte)
  /-- RESERVED, `OPC` 0x06 to 0x07 (R121). -/
  | reserved06 (x : BitVec 1) (imm8 : Byte)
  /-- RESERVED, `OPC` 0x08 to 0x0F (R121). -/
  | reserved08 (x : BitVec 3) (imm8 : Byte)
  /-- RESERVED, `OPC` 0x10 to 0x1F (R121). -/
  | reserved10 (x : BitVec 4) (imm8 : Byte)
  /-- RESERVED, `OPC` 0x20 to 0x3F (R121). -/
  | reserved20 (x : BitVec 5) (imm8 : Byte)
  /-- RESERVED, `OPC` 0x40 to 0x7F (R121). -/
  | reserved40 (x : BitVec 6) (imm8 : Byte)
  /-- RESERVED, `OPC` 0x80 to 0xFF (R121). -/
  | reserved80 (x : BitVec 7) (imm8 : Byte)
  /-- INIT_BAD, words 0x0101 to 0x01FF (R122). -/
  | initBad (imm8 : Byte)
  deriving DecidableEq, Repr

end Sys2Proof
end

