-- ==== Sys2Proof/WellFormed.lean ====
section
/-! DEFINITION. Which terms of `Instr` are commands of the port: the two checks the types do not make. -/

namespace Sys2Proof

/-- A command that has an encoding. A payload has at most 255 words, the largest value of the 8-bit count field (R56,
R58), and INIT_BAD stands only for a nonzero `IMM8` (R122). Lengths the operation then refuses (FEEDN and VALIDATE of 0
words, VALIDATE of 155 to 255) are commands and are well-formed (R58). -/
def Instr.wf : Instr → Bool
  | .init => true
  | .feed _ => true
  | .feedn payload => decide (payload.length ≤ Config.pMaxChunk)
  | .validate payload => decide (payload.length ≤ Config.pMaxChunk)
  | .reserved00 _ => true
  | .reserved05 _ => true
  | .reserved06 _ _ => true
  | .reserved08 _ _ => true
  | .reserved10 _ _ => true
  | .reserved20 _ _ => true
  | .reserved40 _ _ => true
  | .reserved80 _ _ => true
  | .initBad imm8 => imm8 != 0

end Sys2Proof
end

