-- ==== Sys2Proof/Decode.lean ====
section
/-! DEFINITION. The command words of spec/30_encoding.md R56 to R61 and spec/opcode_table.json: the decoder, total on any
list of words; the encoder; and the opcode table itself as data. The port carries 16-bit words as units, so no byte order
applies to them (R32). -/

namespace Sys2Proof

/-- `OPC`, bits 15:8 of a command word (R56). -/
def opcField (w : Word) : Byte := w.extractLsb' 8 8

/-- `IMM8`, bits 7:0 of a command word, and the byte of a payload word (R56, R59). -/
def immField (w : Word) : Byte := w.extractLsb' 0 8

/-- How many payload words follow a command word: `IMM8` for format WP (`OPC` 0x03 and 0x04), none for format W (R58). -/
def payloadCount (w : Word) : Nat :=
  if opcField w = 0x03 ∨ opcField w = 0x04 then (immField w).toNat else 0

/-- The length of a command in words, decided by its command word alone (R58). -/
def commandLength (w : Word) : Nat := 1 + payloadCount w

/-- The command of a command word and the payload words that followed it (R57, R61). INIT wins over INIT_BAD on the
word 0x0100 (the table's priority note). The last eight rows are the RESERVED ranges, by the bits of `OPC` the table
fixes. -/
def decodeCommand (w : Word) (payload : List Word) : Instr :=
  let opc := opcField w
  let imm8 := immField w
  if opc = 0x01 then (if imm8 = 0x00 then .init else .initBad imm8)
  else if opc = 0x02 then .feed imm8
  else if opc = 0x03 then .feedn payload
  else if opc = 0x04 then .validate payload
  else if opc = 0x00 then .reserved00 imm8
  else if opc = 0x05 then .reserved05 imm8
  else if opc.extractLsb' 1 7 = 3#7 then .reserved06 (opc.extractLsb' 0 1) imm8
  else if opc.extractLsb' 3 5 = 1#5 then .reserved08 (opc.extractLsb' 0 3) imm8
  else if opc.extractLsb' 4 4 = 1#4 then .reserved10 (opc.extractLsb' 0 4) imm8
  else if opc.extractLsb' 5 3 = 1#3 then .reserved20 (opc.extractLsb' 0 5) imm8
  else if opc.extractLsb' 6 2 = 1#2 then .reserved40 (opc.extractLsb' 0 6) imm8
  else .reserved80 (opc.extractLsb' 0 7) imm8

/-- Why no command can be read from the words of the port. Neither is an error of the block: it holds and waits (R58,
R143, R157). Every 16-bit word decodes to some command, so there is no undefined encoding (R57, R61). -/
inductive DecodeError where
  /-- The port is empty: no command word has arrived. -/
  | noCommandWord
  /-- The command word has arrived and some of its payload words have not. -/
  | payloadNotArrived
  deriving DecidableEq, Repr

/-- Read the next command from the port's words, and the words after it (R58: every word of a command is taken before it
is performed). -/
def decode : List Word → Except DecodeError (Instr × List Word)
  | [] => .error .noCommandWord
  | w :: ws =>
    if ws.length < payloadCount w then .error .payloadNotArrived
    else .ok (decodeCommand w (ws.take (payloadCount w)), ws.drop (payloadCount w))

/-- A command word from its two fields (R56). -/
def commandWord (opc imm8 : Byte) : Word := opc ++ imm8

/-- The count field of a payload (R58). -/
def countField (payload : List Word) : Byte := BitVec.ofNat 8 payload.length

/-- The words of a command, written from the tables of R57, R58 and opcode_table.json. -/
def encode : Instr → List Word
  | .init => [0x0100]
  | .feed b => [commandWord 0x02 b]
  | .feedn payload => commandWord 0x03 (countField payload) :: payload
  | .validate payload => commandWord 0x04 (countField payload) :: payload
  | .reserved00 imm8 => [commandWord 0x00 imm8]
  | .reserved05 imm8 => [commandWord 0x05 imm8]
  | .reserved06 x imm8 => [commandWord (0b0000011#7 ++ x) imm8]
  | .reserved08 x imm8 => [commandWord (0b00001#5 ++ x) imm8]
  | .reserved10 x imm8 => [commandWord (0b0001#4 ++ x) imm8]
  | .reserved20 x imm8 => [commandWord (0b001#3 ++ x) imm8]
  | .reserved40 x imm8 => [commandWord (0b01#2 ++ x) imm8]
  | .reserved80 x imm8 => [commandWord (0b1#1 ++ x) imm8]
  | .initBad imm8 => [commandWord 0x01 imm8]

/-- A row of spec/opcode_table.json: a word `w` is of the row when `w & mask = value` (INDEX.md). -/
structure Row where
  mnemonic : String
  mask : Word
  value : Word
  deriving DecidableEq, Repr

/-- The word is one of the row's words (INDEX.md "Reading opcode_table.json"). -/
def rowMatches (r : Row) (w : Word) : Bool := (w &&& r.mask) == r.value

/-- spec/opcode_table.json, its thirteen rows in the file's order. -/
def opcodeTable : List Row :=
  [⟨"INIT", 0xFFFF, 0x0100⟩, ⟨"FEED", 0xFF00, 0x0200⟩, ⟨"FEEDN", 0xFF00, 0x0300⟩, ⟨"VALIDATE", 0xFF00, 0x0400⟩] ++
  [⟨"RESERVED", 0xFF00, 0x0000⟩, ⟨"RESERVED", 0xFF00, 0x0500⟩, ⟨"RESERVED", 0xFE00, 0x0600⟩,
   ⟨"RESERVED", 0xF800, 0x0800⟩, ⟨"RESERVED", 0xF000, 0x1000⟩, ⟨"RESERVED", 0xE000, 0x2000⟩,
   ⟨"RESERVED", 0xC000, 0x4000⟩, ⟨"RESERVED", 0x8000, 0x8000⟩] ++
  [⟨"INIT_BAD", 0xFF00, 0x0100⟩]

/-- The row of `opcodeTable` a command belongs to. -/
def rowOf : Instr → Row
  | .init => ⟨"INIT", 0xFFFF, 0x0100⟩
  | .feed _ => ⟨"FEED", 0xFF00, 0x0200⟩
  | .feedn _ => ⟨"FEEDN", 0xFF00, 0x0300⟩
  | .validate _ => ⟨"VALIDATE", 0xFF00, 0x0400⟩
  | .reserved00 _ => ⟨"RESERVED", 0xFF00, 0x0000⟩
  | .reserved05 _ => ⟨"RESERVED", 0xFF00, 0x0500⟩
  | .reserved06 _ _ => ⟨"RESERVED", 0xFE00, 0x0600⟩
  | .reserved08 _ _ => ⟨"RESERVED", 0xF800, 0x0800⟩
  | .reserved10 _ _ => ⟨"RESERVED", 0xF000, 0x1000⟩
  | .reserved20 _ _ => ⟨"RESERVED", 0xE000, 0x2000⟩
  | .reserved40 _ _ => ⟨"RESERVED", 0xC000, 0x4000⟩
  | .reserved80 _ _ => ⟨"RESERVED", 0x8000, 0x8000⟩
  | .initBad _ => ⟨"INIT_BAD", 0xFF00, 0x0100⟩

/-- The first `k` 16-bit words of a number, the least significant first: how the table numbers the bits of an
instruction. -/
def numberWords : Nat → Nat → List Word
  | 0, _ => []
  | k + 1, w => BitVec.ofNat 16 w :: numberWords k (w / 65536)

/-- The words of exactly one command whose bits are `w` below `nbits` and 0 above: its command word and the payload words
that word calls for (R58). -/
def tableCommandWords (nbits w : Nat) : List Word :=
  numberWords (commandLength (BitVec.ofNat 16 (w % 2 ^ nbits))) (w % 2 ^ nbits)

/-- The instruction the decoder reads from a table word. -/
def decodeTableWord (nbits w : Nat) : Option Instr :=
  match decode (tableCommandWords nbits w) with
  | .ok (i, _) => some i
  | .error _ => none

end Sys2Proof
end

