-- ==== Sys2Proof/Machine/State.lean ====
section
/-! DEFINITION. The state of the block, the reasons a step can stop, and the state after reset (spec/10_state.md,
spec/70_reset_and_hazards.md R150, R151). Plain data throughout. -/

namespace Sys2Proof.Machine

/-- Why the model faults. Each means the model was led where the spec's rules say it never goes (R35, U15); every one is
safe: the block's own rules reach none of them from a state that keeps the invariants of R100. -/
inductive Fault where
  /-- An access to `ACC` outside `ACC[0..154)`, raised by `memRead`, `memWrite` and the footer read (R35, U15). Safe. -/
  | accOutOfRange
  /-- A read of a byte of `ACC` that nothing has written since power-on, raised by `memRead` (R20, U1; log entry 3).
  Safe. -/
  | accUnwritten
  /-- An access to an operand buffer beyond its length, raised by `bufByte` and `bufSlice` (R35). Safe. -/
  | operandOutOfRange
  /-- `RESYNC(s)` called with `s` above `FILL`, which R90 says never happens, raised by `resync` (log entry 12). Safe. -/
  | resyncStart
  deriving DecidableEq, Repr

/-- Why the model gives a command no meaning. -/
inductive Refusal where
  /-- The command has no meaning in the model yet, raised by `exec`'s arms alone. Safe. -/
  | notModelled (mnemonic : String)
  /-- A command issued from inside a sink answer, while the operation that owes it is in progress: R156 and U5 say a model
  refuses it. Raised by `step` when the host has put words on the port of a held block, and by every meaning through
  `whenIdle`. Safe. -/
  | commandDuringOperation
  /-- A command issued by an agent that is not the owner of the block: R156 and U5 say a model refuses it. Raised by `step`
  when such an agent has put words on the port. Safe. -/
  | secondAgent
  deriving DecidableEq, Repr

/-- The status codes of R130, by name. Codes 8 to 15 do not exist (U8), so they are not constructible. -/
inductive Status where
  | ok
  | invalidArguments
  | bufferTooSmall
  | invalidFooter
  | invalidPacket
  | invalidFrameSize
  | invalidBufferSize
  | invalidHeader
  deriving DecidableEq, Repr

/-- The record the Frame Validator returns with `Ok` (R80). -/
structure Decoded where
  length : Word
  cmdEcho : Byte
  status : Word
  deriving DecidableEq, Repr

/-- What `VALIDATE_FN` returns: `Ok` with a record, or one error code (R80). -/
inductive Verdict where
  | accept (d : Decoded)
  | reject (code : Status)
  deriving DecidableEq, Repr

/-- A sink record (R63). -/
structure SinkRecord where
  total : Byte
  cmdEcho : Byte
  status : Word
  bytes : List Byte
  deriving DecidableEq, Repr

/-- The sink's answer to a sink record (R64). -/
inductive Answer where
  | proceed
  | stop
  deriving DecidableEq, Repr

/-- The event one input byte's processing produces (R92). -/
inductive Event where
  /-- None, with status `Ok`. -/
  | quiet
  /-- An error event with a status code. -/
  | error (code : Status)
  /-- An emission, with status `Ok`, and the sink's answer. -/
  | emission (answer : Answer)
  deriving DecidableEq, Repr

/-- What the block puts on its output ports (R36): a response, as its words (R62), or a sink record (R63). -/
inductive PortEvent where
  | response (words : List Word)
  | emission (record : SinkRecord)
  deriving DecidableEq, Repr

/-- The working values of one FEED or FEEDN (R18), its operand buffer (R30), and with `consumed` its chunk cursor (R11;
log entry 6). -/
structure Operation where
  /-- The operand buffer `P[0..n)`: the chunk of FEEDN, or the one byte of FEED. -/
  chunk : List Byte
  /-- `first_err`. -/
  firstErr : Status
  /-- `consumed`, which is also the chunk cursor. -/
  consumed : Byte
  /-- `stop`. -/
  stop : Bool
  deriving DecidableEq, Repr

/-- Who presents command words: the one owner R156 allows, or any other agent. -/
inductive Agent where
  | owner
  | other
  deriving DecidableEq, Repr

/-- What R156 forbids and says a model refuses. -/
inductive Misuse where
  /-- The owner issued a command from inside a sink answer: while the operation is held, which lasts until the step that takes
  the answer (DESIGN CHOICE, log entry 22). -/
  | commandInsideAnswer
  /-- Another agent issued a command. -/
  | secondAgent
  deriving DecidableEq, Repr

/-- `ACC` as the list of its written bytes: (offset, byte) pairs, offsets strictly rising (`Memory.wf`). An offset that is
not listed has no value (log entry 3). -/
abbrev Memory := List Host.Cell

/-- The whole state (10_state.md R10, R23), with the inputs the host drives (R19, R56, R64) and what the block has put on
its output ports. -/
structure State where
  /-- `ACC` (R12). -/
  acc : Memory
  /-- `FILL` (R13). -/
  fill : BitVec 8
  /-- `ET`, `expected_total` (R14). -/
  et : BitVec 8
  /-- `SYNCED` (R15). -/
  synced : Bool
  /-- The operation in progress, held by an owed sink answer (R153), with its working values (R18); none between
  operations. -/
  op : Option Operation
  /-- The sink record that is presented and not yet answered (R63, R153, R154). -/
  sinkPort : Option SinkRecord
  /-- `P_CHUNK_FEED` (R5), which no step writes. -/
  params : Params
  /-- `SINK_PRESENT`, the host's level (R19). -/
  sinkPresent : Bool
  /-- The words on the command port that the block has not taken, oldest first (R56, R58). -/
  cmdPort : List Word
  /-- The sink's answers to the emissions to come, in order, as the bit `ANSWER` of R64 (R97, U3; log entry 5). -/
  answers : List (BitVec 1)
  /-- What the block has put on its response port and its sink port, oldest first (R36; log entry 7). -/
  out : List PortEvent
  /-- What the host has done that R156 forbids, for the step to refuse; none while the host keeps R156 (log entry 22). The
  model's own field. -/
  misuse : Option Misuse
  deriving DecidableEq, Repr

/-- How a byte step goes up to the point where it either has its event or presents a sink record (R92, R97). -/
inductive ByteStep where
  /-- The step has ended with this event. -/
  | ended (event : Event) (s : State)
  /-- The step presents this record, and ends after the sink's answer. -/
  | emitting (record : SinkRecord) (s : State)
  deriving DecidableEq, Repr

/-- The state right after power-on reset (R150, R151). `FILL`, `ET`, `SYNCED` and the empty port are the spec's; no byte
of `ACC` is listed (log entry 3); `SINK_PRESENT = 1` (log entry 1), `P_CHUNK_FEED = true` (log entry 2), no answer yet
(log entry 5) and the empty output record (log entry 7) are the model's choices, marked DESIGN CHOICE there. -/
def State.reset : State where
  acc := []
  fill := 0
  et := 0
  synced := false
  op := none
  sinkPort := none
  params := ⟨true⟩
  sinkPresent := true
  cmdPort := []
  answers := []
  out := []
  misuse := none

end Sys2Proof.Machine
end

