-- ==== Sys2Proof/Machine/Flags.lean ====
section
/-! DEFINITION. The one flag of the block and its codes: the phase that `SYNCED` gives (spec/10_state.md R15 to R17), the
4-bit values of the status codes (spec/60_exceptions.md R130), the bit of a sink answer (spec/30_encoding.md R64), and
the status of an event (spec/41_stream_decoder.md R98). The block has no arithmetic condition codes (R17). -/

namespace Sys2Proof.Machine

/-- The numeric value of a status code in the 4-bit `STATUS` field (R130). -/
def statusCode : Status → BitVec 4
  | .ok => 0
  | .invalidArguments => 1
  | .bufferTooSmall => 2
  | .invalidFooter => 3
  | .invalidPacket => 4
  | .invalidFrameSize => 5
  | .invalidBufferSize => 6
  | .invalidHeader => 7

/-- The answer an `ANSWER` bit gives: 0 is CONTINUE and 1 is STOP (R64). -/
def answerOfBit (bit : BitVec 1) : Answer := if bit = 1 then .stop else .proceed

/-- `status(ev)`: `Ok` for none and for an emission, the code for an error event (R98). -/
def eventStatus : Event → Status
  | .quiet => .ok
  | .error code => code
  | .emission _ => .ok

/-- The phase SYNCED / ACCUMULATING; otherwise the phase is AWAITING_HEADER (R16). -/
def accumulating (s : State) : Bool := s.synced

/-- The condition FRAME_READY, tested inside one byte step: `ET ≠ 0` and `FILL ≥ ET` (R16). -/
def frameIsReady (s : State) : Bool := s.et != 0 && decide (s.et.toNat ≤ s.fill.toNat)

end Sys2Proof.Machine
end

