-- ==== Sys2Proof/Machine/Operands.lean ====
section
/-! DEFINITION. The operand forms: the payload words of FEEDN and VALIDATE as an operand buffer (spec/30_encoding.md R59,
R60), range-checked reads of a byte buffer and its little-endian fields (spec/20_memory.md R31, R33, R35). -/

namespace Sys2Proof.Machine

/-- The byte a payload word carries, when its bits 15:8 are zero (R59). -/
def payloadByte (w : Word) : Option Byte :=
  if w.extractLsb' 8 8 = 0x00 then some (w.extractLsb' 0 8) else none

/-- The operand buffer `P[0..n)` of a command's payload words, in arrival order; none when some payload word has nonzero
bits 15:8, which makes the whole command a malformed call (R59). -/
def operandBuffer : List Word → Option (List Byte)
  | [] => some []
  | w :: ws =>
    match payloadByte w, operandBuffer ws with
    | some b, some bs => some (b :: bs)
    | _, _ => none

/-- One byte of a buffer; beyond its length a model fault (R35). -/
def bufByte (buf : List Byte) (off : Nat) : Except Fault Byte :=
  match buf[off]? with
  | some b => .ok b
  | none => .error .operandOutOfRange

/-- The bytes `buf[a..b)`; beyond the buffer's length, or with `b` below `a`, a model fault (R35). -/
def bufSlice (buf : List Byte) (a b : Nat) : Except Fault (List Byte) :=
  if a ≤ b ∧ b ≤ buf.length then .ok ((buf.drop a).take (b - a)) else .error .operandOutOfRange

/-- The 16-bit value of two bytes, the lower offset first: bits 7..0, then bits 15..8 (R31). -/
def le16Bytes (lo hi : Byte) : Word := lo.setWidth 16 ||| (hi.setWidth 16 <<< 8)

/-- `le16(buf, off)` (R31). -/
def le16 (buf : List Byte) (off : Nat) : Except Fault Word :=
  match bufByte buf off, bufByte buf (off + 1) with
  | .ok lo, .ok hi => .ok (le16Bytes lo hi)
  | .error f, _ => .error f
  | .ok _, .error f => .error f

/-- `4 + 2 + L + 4`, on the naturals: it never wraps (R54, D17, U10). -/
def totalSize (length : Word) : Nat := 4 + 2 + length.toNat + 4

/-- The `cmd_echo` of its 16-bit word: bits 7:0, the rest discarded (R52). -/
def cmdEchoOf (w : Word) : Byte := w.extractLsb' 0 8

end Sys2Proof.Machine
end

