-- ==== Sys2Proof/Machine/Ops.lean ====
section
/-! DEFINITION. The named operations the meanings share: `ACC` (spec/20_memory.md R34, R35), the registers, resynchronization
(spec/41_stream_decoder.md R90), the error event that stands where other machines take an exception (spec/60_exceptions.md
R130, R135), responses and sink records (spec/30_encoding.md R62, R63), the malformed call (R131), the ports. -/

namespace Sys2Proof.Machine

/-! ### ACC as a memory of written bytes -/

/-- The canonical form: offsets strictly rising, so each is listed at most once. An unlisted offset has no value, so no
entry can equal what an unlisted offset reads as. -/
def Memory.wf : Memory → Bool
  | [] => true
  | c :: m => m.all (fun d => decide (c.1 < d.1)) && Memory.wf m

/-- The byte at an offset, none where nothing has written. -/
def Memory.read : Memory → Nat → Option Byte
  | [], _ => none
  | c :: m, a => if c.1 = a then some c.2 else Memory.read m a

/-- Write one byte, keeping the canonical form. -/
def Memory.write : Memory → Nat → Byte → Memory
  | [], a, b => [(a, b)]
  | c :: m, a, b =>
    if a < c.1 then (a, b) :: c :: m
    else if a = c.1 then (a, b) :: m
    else c :: Memory.write m a b

/-- Read `n` bytes from `off` on; a byte that nothing has written faults (log entry 3). -/
def Memory.readRange (m : Memory) (off : Nat) : Nat → Except Fault (List Byte)
  | 0 => .ok []
  | n + 1 =>
    match Memory.read m off, Memory.readRange m (off + 1) n with
    | some b, .ok bs => .ok (b :: bs)
    | some _, .error f => .error f
    | none, _ => .error .accUnwritten

/-- Write the bytes of a list from `off` on. -/
def Memory.writeRange (m : Memory) (off : Nat) : List Byte → Memory
  | [] => m
  | b :: bs => Memory.writeRange (Memory.write m off b) (off + 1) bs

/-- `MemRead(ACC, off, n)`, range-checked (00_scope.md section 5, R35). -/
def memRead (s : State) (off n : Nat) : Except Fault (List Byte) :=
  if off + n ≤ Config.pCap then Memory.readRange s.acc off n else .error .accOutOfRange

/-- `MemWrite(ACC, off, n, v)`, range-checked (00_scope.md section 5, R35). The bytes are a list read before, so a move
reads every source byte before it writes any destination byte. -/
def memWrite (s : State) (off : Nat) (bytes : List Byte) : Except Fault State :=
  if off + bytes.length ≤ Config.pCap then .ok { s with acc := Memory.writeRange s.acc off bytes }
  else .error .accOutOfRange

/-- `MemRead(ACC, e - 4, 4)`, the candidate footer (R96). With `e` below 4, which R100 rules out, the range begins below
offset 0: outside `ACC` (log entry 12). -/
def readFooter (s : State) (e : Nat) : Except Fault (List Byte) :=
  if e < Config.pFtrLen then .error .accOutOfRange else memRead s (e - Config.pFtrLen) Config.pFtrLen

/-- `le16(ACC, off)` (R31, R94). -/
def accLe16 (s : State) (off : Nat) : Except Fault Word :=
  match memRead s off 2 with
  | .ok buf => le16 buf 0
  | .error f => .error f

/-! ### FILL, ET and SYNCED -/

/-- Write `FILL`, 8 bits wide (R13; log entry 20). -/
def setFill (n : Nat) (s : State) : State := { s with fill := BitVec.ofNat 8 n }

/-- Write `ET`, 8 bits wide (R14; log entry 20). -/
def setEt (n : Nat) (s : State) : State := { s with et := BitVec.ofNat 8 n }

/-- Write `SYNCED` (R15). -/
def setSynced (flag : Bool) (s : State) : State := { s with synced := flag }

/-- The append of R92: one byte at `ACC[FILL]`, then `FILL + 1`. -/
def appendByte (b : Byte) (s : State) : Except Fault State :=
  match memWrite s s.fill.toNat [b] with
  | .ok t => .ok (setFill (s.fill.toNat + 1) t)
  | .error f => .error f

/-- Move `ACC[off..off+k)` to the front and make those the only valid bytes: the moves of R90 and R93. -/
def moveToFront (off k : Nat) (s : State) : Except Fault State :=
  match memRead s off k with
  | .error f => .error f
  | .ok v =>
    match memWrite s 0 v with
    | .error f => .error f
    | .ok t => .ok (setFill k t)

/-- The move, then `SYNCED` written and `ET` cleared: both ends of R90 and the header match of R93. -/
def moveAndSync (off k : Nat) (flag : Bool) (s : State) : Except Fault State :=
  match moveToFront off k s with
  | .error f => .error f
  | .ok t => .ok (setEt 0 (setSynced flag t))

/-! ### Resynchronization and the error event -/

/-- The backward scan of R90: the highest `p` in `lo, …, lo + n - 1` with a complete header at `p`. -/
def scanHeader (s : State) (lo : Nat) : Nat → Except Fault (Option Nat)
  | 0 => .ok none
  | n + 1 =>
    match memRead s (lo + n) Config.pHdrLen with
    | .error f => .error f
    | .ok w => if w = Config.pHdr then .ok (some (lo + n)) else scanHeader s lo n

/-- `RESYNC(s)` with scan start `start` (R90). The scan runs from `FILL - 4` down to `start`, which is
`FILL - 3 - start` offsets, none when `FILL - 4 < start`. -/
def resync (start : Nat) (s : State) : Except Fault State :=
  if s.fill.toNat < start then .error .resyncStart
  else
    match scanHeader s start (s.fill.toNat - 3 - start) with
    | .error f => .error f
    | .ok (some p) => moveAndSync p (s.fill.toNat - p) true s
    | .ok none =>
      moveAndSync (s.fill.toNat - min 3 (s.fill.toNat - start)) (min 3 (s.fill.toNat - start)) false s

/-- `RESYNC(1)`, then `raise Err(code)`: the error event of R95 and R96, which ends the byte step (R130, R135). The block
has no trap, so nothing is saved and nothing is entered: the state is exactly what `RESYNC(1)` leaves. -/
def raiseErr (code : Status) (s : State) : Except Fault (Event × State) :=
  match resync 1 s with
  | .error f => .error f
  | .ok t => .ok (.error code, t)

/-! ### Responses and sink records -/

/-- `RSP0`: `CONSUMED` in bits 15:8, zero in bits 7:4, `STATUS` in bits 3:0 (R62). -/
def rsp0 (consumed : Byte) (code : Status) : Word := consumed ++ (0#4 ++ statusCode code)

/-- Deliver a response (R62). -/
def respond (words : List Word) (s : State) : State := { s with out := s.out ++ [.response words] }

/-- The words of the response to a VALIDATE (R62, R83). -/
def verdictWords : Verdict → List Word
  | .accept d => [rsp0 0 .ok, d.length, d.cmdEcho.setWidth 16, d.status]
  | .reject code => [rsp0 0 code]

/-- The malformed call: `InvalidArguments`, `CONSUMED = 0`, no state change (R131). -/
def malformedCall (s : State) : State := respond [rsp0 0 .invalidArguments] s

/-- Present a sink record at the sink port (R63, R97). -/
def presentRecord (r : SinkRecord) (s : State) : State :=
  { s with sinkPort := some r, out := s.out ++ [.emission r] }

/-- Hold an operation, with its working values, while the sink owes an answer (R153). -/
def holdOperation (o : Operation) (s : State) : State := { s with op := some o }

/-- Take the sink's answer: the record is no longer presented (R154), the hold is lifted (R153) and the answer is used
up. -/
def takeAnswer (rest : List (BitVec 1)) (s : State) : State :=
  { s with sinkPort := none, answers := rest, op := none }

/-! ### Commands -/

/-- The name under which the model refuses what R156 forbids. -/
def misuseRefusal : Misuse → Refusal
  | .commandInsideAnswer => .commandDuringOperation
  | .secondAgent => .secondAgent

/-- A command is performed only when no operation is in progress; otherwise the model refuses it (R156, U5). -/
def whenIdle (s : State) (result : Host.Outcome State Fault Refusal) : Host.Outcome State Fault Refusal :=
  match s.op with
  | none => result
  | some _ => .refused .commandDuringOperation

/-- A computation's end as an outcome of a step. -/
def outcome : Except Fault State → Host.Outcome State Fault Refusal
  | .ok s => .next s
  | .error f => .fault f

/-- Take the next command off the port when all its words have arrived (R58); none while the port waits. -/
def takeCommand (s : State) : Option (Instr × State) :=
  match decode s.cmdPort with
  | .ok (i, rest) => some (i, { s with cmdPort := rest })
  | .error _ => none

/-- A port that holds exactly the given words, and a block that is free to take them. -/
def loadPort (words : List Word) (s : State) : State :=
  { s with cmdPort := words, op := none, sinkPort := none, misuse := none }

/-! ### What the host does between steps (R19, R56, R64, R152) -/

/-- Words join the end of the command port. -/
def queueWords (words : List Word) (s : State) : State := { s with cmdPort := s.cmdPort ++ words }

/-- An action R156 forbids is noted, for the step to refuse. -/
def noteMisuse (m : Misuse) (s : State) : State := { s with misuse := some m }

/-- An agent presents command words. The owner's join the port, in command-port order, while no operation is held. Words
of another agent, and words presented while an operation is held, which are a command issued from inside the sink answer,
are not taken: the next step refuses them (R156, U5). Held means that `op` is some: also after `hostAnswer` has given the
answer, until the step that takes it. That this is when words count as issued from inside the answer is the model's choice
(DESIGN CHOICE, safe, log entry 22). -/
def hostWords (who : Agent) (words : List Word) (s : State) : State :=
  if words = [] then s
  else
    match who, s.op with
    | .owner, none => queueWords words s
    | .owner, some _ => noteMisuse .commandInsideAnswer s
    | .other, _ => noteMisuse .secondAgent s

/-- The host answers a sink record. -/
def hostAnswer (bit : BitVec 1) (s : State) : State := { s with answers := s.answers ++ [bit] }

/-- The host drives the level `SINK_PRESENT`. -/
def hostSinkPresent (level : Bool) (s : State) : State := { s with sinkPresent := level }

end Sys2Proof.Machine
end

