-- ==== Sys2Proof/Machine/Session.lean ====
section
/-! DEFINITION. Session control and the reserved commands (spec/42_session_control.md R120 to R122). -/

namespace Sys2Proof.Machine

/-- A command that is a malformed call whatever the state (R121, R122). -/
def refuseEncoding (s : State) : Host.Outcome State Fault Refusal := whenIdle s (.next (malformedCall s))

/-- INIT (R120): `FILL`, `ET` and `SYNCED` are cleared, `ACC` is not written (D19). -/
def execInit (s : State) : Host.Outcome State Fault Refusal :=
  whenIdle s (.next (respond [rsp0 0 .ok] (setSynced false (setEt 0 (setFill 0 s)))))

/-- INIT with a nonzero `IMM8` (R122). -/
def execInitBad (_imm8 : Byte) (s : State) : Host.Outcome State Fault Refusal := refuseEncoding s

/-- RESERVED, `OPC` 0x00 (R121). -/
def execReserved00 (_imm8 : Byte) (s : State) : Host.Outcome State Fault Refusal := refuseEncoding s

/-- RESERVED, `OPC` 0x05 (R121). -/
def execReserved05 (_imm8 : Byte) (s : State) : Host.Outcome State Fault Refusal := refuseEncoding s

/-- RESERVED, `OPC` 0x06 to 0x07 (R121). -/
def execReserved06 (_x : BitVec 1) (_imm8 : Byte) (s : State) : Host.Outcome State Fault Refusal := refuseEncoding s

/-- RESERVED, `OPC` 0x08 to 0x0F (R121). -/
def execReserved08 (_x : BitVec 3) (_imm8 : Byte) (s : State) : Host.Outcome State Fault Refusal := refuseEncoding s

/-- RESERVED, `OPC` 0x10 to 0x1F (R121). -/
def execReserved10 (_x : BitVec 4) (_imm8 : Byte) (s : State) : Host.Outcome State Fault Refusal := refuseEncoding s

/-- RESERVED, `OPC` 0x20 to 0x3F (R121). -/
def execReserved20 (_x : BitVec 5) (_imm8 : Byte) (s : State) : Host.Outcome State Fault Refusal := refuseEncoding s

/-- RESERVED, `OPC` 0x40 to 0x7F (R121). -/
def execReserved40 (_x : BitVec 6) (_imm8 : Byte) (s : State) : Host.Outcome State Fault Refusal := refuseEncoding s

/-- RESERVED, `OPC` 0x80 to 0xFF (R121). -/
def execReserved80 (_x : BitVec 7) (_imm8 : Byte) (s : State) : Host.Outcome State Fault Refusal := refuseEncoding s

end Sys2Proof.Machine
end

