-- ==== Sys2Proof/Machine/Validator.lean ====
section
/-! DEFINITION. The Frame Validator and the operation VALIDATE (spec/40_frame_validator.md R80 to R83). -/

namespace Sys2Proof.Machine

/-- Steps 6 and 7 of R80: the record of a buffer that passed every check. -/
def validatorFields (buf : List Byte) (length : Word) : Except Fault Verdict :=
  match le16 buf 6, le16 buf 8 with
  | .ok echo, .ok status => .ok (.accept ⟨length, cmdEchoOf echo, status⟩)
  | .error f, _ => .error f
  | .ok _, .error f => .error f

/-- Steps 1 to 5 of R80, for a buffer whose length field `length` was read and whose first and last 4 bytes are `header`
and `footer`, in the source's order (R81). -/
def validatorChecks (buf : List Byte) (length : Word) : Except Fault Verdict :=
  if length = 0 then .ok (.reject .invalidFrameSize)
  else if totalSize length ≠ buf.length then .ok (.reject .invalidBufferSize)
  else
    match bufSlice buf 0 4, bufSlice buf (buf.length - 4) buf.length with
    | .error f, _ => .error f
    | .ok _, .error f => .error f
    | .ok header, .ok footer =>
      if header ≠ Config.pHdr then .ok (.reject .invalidHeader)
      else if footer ≠ Config.pFtr then .ok (.reject .invalidFooter)
      else if length.toNat < Config.pMinLength then .ok (.reject .invalidFrameSize)
      else validatorFields buf length

/-- `VALIDATE_FN(buf)` (R80). A buffer of fewer than 6 bytes has no readable length field (D5). -/
def validateFn (buf : List Byte) : Except Fault Verdict :=
  if buf.length < 6 then .ok (.reject .invalidBufferSize)
  else
    match le16 buf 4 with
    | .error f => .error f
    | .ok length => validatorChecks buf length

/-- VALIDATE on a payload that is an operand buffer: the response of `VALIDATE_FN`'s result (R83). -/
def validateBuffer (buf : List Byte) (s : State) : Except Fault State :=
  match validateFn buf with
  | .error f => .error f
  | .ok v => .ok (respond (verdictWords v) s)

/-- VALIDATE (R83). It samples no `SINK_PRESENT` and writes no session state. -/
def execValidate (payload : List Word) (s : State) : Host.Outcome State Fault Refusal :=
  whenIdle s <|
    if payload.length = 0 ∨ Config.pMaxTotal < payload.length then .next (malformedCall s)
    else
      match operandBuffer payload with
      | none => .next (malformedCall s)
      | some buf => outcome (validateBuffer buf s)

end Sys2Proof.Machine
end

