-- ==== Sys2Proof/Machine/Stream.lean ====
section
/-! DEFINITION. The Stream Decoder: the byte step (spec/41_stream_decoder.md R91 to R97), the operations FEED and FEEDN
(R98, R99), and how an operation held by an owed sink answer goes on (spec/70_reset_and_hazards.md R153). -/

namespace Sys2Proof.Machine

/-- The overflow guard of R91. `none`: the byte is appended and processed. `some code`: it is dropped and the step ends
with that error. -/
def overflowGuard (s : State) : Except Fault (Option Status × State) :=
  if s.fill.toNat = Config.pCap then
    match resync 1 s with
    | .error f => .error f
    | .ok t => if t.fill.toNat = Config.pCap then .ok (some .bufferTooSmall, t) else .ok (none, t)
  else .ok (none, s)

/-- AWAIT_HEADER (R93). The header match moves the last 4 bytes to the front and sets `SYNCED`; otherwise the last 3 bytes
are kept. Noise is never reported. -/
def awaitHeader (s : State) : Except Fault (Event × State) :=
  if s.fill.toNat < 4 then .ok (.quiet, s)
  else
    match memRead s (s.fill.toNat - 4) 4 with
    | .error f => .error f
    | .ok w =>
      if w = Config.pHdr then
        match moveAndSync (s.fill.toNat - 4) 4 true s with
        | .error f => .error f
        | .ok t => .ok (.quiet, t)
      else
        match moveToFront (s.fill.toNat - 3) 3 s with
        | .error f => .error f
        | .ok t => .ok (.quiet, t)

/-- A step that ends with what a part of it ends with. -/
def endStep : Except Fault (Event × State) → Except Fault ByteStep
  | .ok (ev, s) => .ok (.ended ev s)
  | .error f => .error f

/-- FRAME_READY (R96), up to the sink record of R97: the footer check, then the validator. -/
def frameReady (s : State) : Except Fault ByteStep :=
  if frameIsReady s then
    match readFooter s s.et.toNat with
    | .error f => .error f
    | .ok footer =>
      if footer ≠ Config.pFtr then endStep (raiseErr .invalidFooter s)
      else
        match memRead s 0 s.et.toNat with
        | .error f => .error f
        | .ok frame =>
          match validateFn frame with
          | .error f => .error f
          | .ok (.reject _) => endStep (raiseErr .invalidPacket s)
          | .ok (.accept d) => .ok (.emitting ⟨s.et, d.cmdEcho, d.status, frame⟩ s)
  else .ok (.ended .quiet s)

/-- ACCUMULATE: the length decode (R94), the size check (R95), then FRAME_READY (R96). -/
def accumulate (s : State) : Except Fault ByteStep :=
  if s.et = 0 ∧ 6 ≤ s.fill.toNat then
    match accLe16 s 4 with
    | .error f => .error f
    | .ok length =>
      if Config.pCap < totalSize length ∨ Config.pMaxTotal < totalSize length then
        endStep (raiseErr .bufferTooSmall s)
      else frameReady (setEt (totalSize length) s)
  else frameReady s

/-- The part of `STEP(b)` after the overflow guard: the append, then the phase `SYNCED` gives (R92). -/
def processByte (b : Byte) (s : State) : Except Fault ByteStep :=
  match appendByte b s with
  | .error f => .error f
  | .ok t => if accumulating t then accumulate t else endStep (awaitHeader t)

/-- `STEP(b)` (R92), up to the sink's answer. -/
def byteStep (b : Byte) (s : State) : Except Fault ByteStep :=
  match overflowGuard s with
  | .error f => .error f
  | .ok (some code, t) => .ok (.ended (.error code) t)
  | .ok (none, t) => processByte b t

/-- The rest of an emission's step once the answer is there: `RESYNC(e)`, with `e` still in `ET` (R97). -/
def finishEmission (rest : List (BitVec 1)) (s : State) : Except Fault State :=
  resync s.et.toNat (takeAnswer rest s)

/-! ### The operations -/

/-- The working values at the start of an operation (R18, R99). -/
def startOperation (chunk : List Byte) : Operation := ⟨chunk, .ok, 0, false⟩

/-- The working values after one byte's event: one more byte consumed, the first error kept, STOP noted (R99). -/
def countEvent (ev : Event) (o : Operation) : Operation :=
  { o with
    consumed := o.consumed + 1
    firstErr := if o.firstErr = .ok then eventStatus ev else o.firstErr
    stop := o.stop || decide (ev = .emission .stop) }

/-- The response of FEED and FEEDN: `first_err` and `consumed` (R98, R99, R62). -/
def respondFeed (o : Operation) (s : State) : State := respond [rsp0 o.consumed o.firstErr] s

/-- The loop of R99 over the bytes not yet processed. Each emission presents its record; when the sink's answer is there
the step ends and the loop goes on, and when it is not, the operation is held where it is (R153). -/
def runChunk : List Byte → Operation → State → Except Fault State
  | [], o, s => .ok (respondFeed o s)
  | b :: rest, o, s =>
    if o.stop then .ok (respondFeed o s)
    else
      match byteStep b s with
      | .error f => .error f
      | .ok (.ended ev t) => runChunk rest (countEvent ev o) t
      | .ok (.emitting r t) =>
        match (presentRecord r t).answers with
        | [] => .ok (holdOperation o (presentRecord r t))
        | bit :: bits =>
          match finishEmission bits (presentRecord r t) with
          | .error f => .error f
          | .ok u => runChunk rest (countEvent (.emission (answerOfBit bit)) o) u

/-- Run FEED or FEEDN on its operand buffer. -/
def feedBytes (chunk : List Byte) (s : State) : Except Fault State := runChunk chunk (startOperation chunk) s

/-- An operation held by an owed answer goes on when the answer is there; until then the block is held and nothing
changes (R153; log entry 4). -/
def resumeOperation (o : Operation) (s : State) : Host.Outcome State Fault Refusal :=
  match s.answers with
  | [] => .next s
  | bit :: bits =>
    match finishEmission bits s with
    | .error f => .fault f
    | .ok u =>
      outcome (runChunk (o.chunk.drop (o.consumed.toNat + 1)) (countEvent (.emission (answerOfBit bit)) o) u)

/-- FEED (R98): `SINK_PRESENT` is sampled, then one byte step. Its response is that of a chunk of one byte (R99). -/
def execFeed (b : Byte) (s : State) : Host.Outcome State Fault Refusal :=
  whenIdle s <| if s.sinkPresent then outcome (feedBytes [b] s) else .next (malformedCall s)

/-- FEEDN (R99): the malformed calls first, then the byte steps over the chunk. -/
def execFeedn (payload : List Word) (s : State) : Host.Outcome State Fault Refusal :=
  whenIdle s <|
    if s.sinkPresent = false ∨ payload.length = 0 ∨ (1 < payload.length ∧ s.params.chunkFeed = false) then
      .next (malformedCall s)
    else
      match operandBuffer payload with
      | none => .next (malformedCall s)
      | some chunk => outcome (feedBytes chunk s)

end Sys2Proof.Machine
end

