-- ==== Sys2Proof/Machine/Dispatch.lean ====
section
/-! DEFINITION. One arm per command of the port, in the opcode table's order. -/

namespace Sys2Proof.Machine

/-- Perform one command, its words already taken from the port (R37, R58). -/
def exec (i : Instr) (s : State) : Host.Outcome State Fault Refusal :=
  match i with
  | .init => Sys2Proof.Machine.execInit s
  | .feed b => Sys2Proof.Machine.execFeed b s
  | .feedn payload => Sys2Proof.Machine.execFeedn payload s
  | .validate payload => Sys2Proof.Machine.execValidate payload s
  | .reserved00 imm8 => Sys2Proof.Machine.execReserved00 imm8 s
  | .reserved05 imm8 => Sys2Proof.Machine.execReserved05 imm8 s
  | .reserved06 x imm8 => Sys2Proof.Machine.execReserved06 x imm8 s
  | .reserved08 x imm8 => Sys2Proof.Machine.execReserved08 x imm8 s
  | .reserved10 x imm8 => Sys2Proof.Machine.execReserved10 x imm8 s
  | .reserved20 x imm8 => Sys2Proof.Machine.execReserved20 x imm8 s
  | .reserved40 x imm8 => Sys2Proof.Machine.execReserved40 x imm8 s
  | .reserved80 x imm8 => Sys2Proof.Machine.execReserved80 x imm8 s
  | .initBad imm8 => Sys2Proof.Machine.execInitBad imm8 s

end Sys2Proof.Machine
end

