-- ==== Sys2Proof/Machine/Step.lean ====
section
/-! DEFINITION. One step of the block, and the placing of one command where the next step takes it. -/

namespace Sys2Proof.Machine

/-- One step (R37, R160). What R156 forbids is refused. Otherwise an operation held by an owed sink answer goes on
or stays held (R153); otherwise the next command is taken from the port whole (R58) and performed; and while the
port has no complete command the block is idle and its state stays as it is (R143, R157; log entry 4). -/
def step (s : State) : Host.Outcome State Fault Refusal :=
  match s.misuse, s.op with
  | some m, _ => .refused (misuseRefusal m)
  | none, some o => resumeOperation o s
  | none, none =>
    match takeCommand s with
    | none => .next s
    | some (i, t) => exec i t

/-- The words of one command of the opcode table, alone on the command port, with no operation in progress and no
misuse noted, so that the next step takes and performs exactly that command (log entry 10). -/
def State.withFetchWord (s : State) (nbits w : Nat) : State := loadPort (tableCommandWords nbits w) s

end Sys2Proof.Machine
end

