-- ==== Sys2Proof/Machine/Assembler.lean ====
section
/-! DEFINITION. The spec's assembler: its lines, its pseudo-instructions and what it refuses (spec/30_encoding.md R65, R66),
and the layout of a frame (R50). The block never sees a line; it sees the words. -/

namespace Sys2Proof.Machine

/-- One line of assembly, its operands read (R65, R66). -/
inductive AsmLine where
  | init
  | feed (b : Byte)
  | feedn (bytes : List Byte)
  | validate (bytes : List Byte)
  /-- `.word`: one raw word. -/
  | word (w : Word)
  /-- FEEDS: one FEED for each byte. -/
  | feeds (bytes : List Byte)
  /-- FEEDFRAME: one FEEDN with the bytes of a frame. -/
  | feedframe (c16 s16 : Word) (payload : List Byte)
  /-- RESET: another name of INIT. -/
  | reset
  deriving DecidableEq, Repr

/-- The payload word of a byte, `0x00BB` (R59). -/
def payloadWord (b : Byte) : Word := b.setWidth 16

/-- A 16-bit value in stream order, low byte first (R31). -/
def le16Stream (w : Word) : List Byte := [w.extractLsb' 0 8, w.extractLsb' 8 8]

/-- The frame of R50 with the `cmd_echo` word `c16`, the status `s16` and a payload: FEEDFRAME's bytes (R66). -/
def frameOf (c16 s16 : Word) (payload : List Byte) : List Byte :=
  Config.pHdr ++ le16Stream (BitVec.ofNat 16 (4 + payload.length)) ++ le16Stream c16 ++ le16Stream s16 ++ payload ++
    Config.pFtr

/-- FEEDN with an operand list of 1 to 255 bytes; more, or none, is refused (R65; log entry 17). -/
def assembleFeedn (bytes : List Byte) : Option (List Word) :=
  if bytes.length = 0 ∨ Config.pMaxChunk < bytes.length then none else some (encode (.feedn (bytes.map payloadWord)))

/-- VALIDATE with an operand list of 1 to 154 bytes; more, or none, is refused (R65; log entry 17). -/
def assembleValidate (bytes : List Byte) : Option (List Word) :=
  if bytes.length = 0 ∨ Config.pMaxTotal < bytes.length then none
  else some (encode (.validate (bytes.map payloadWord)))

/-- The words of one line; none where the assembler refuses it (R65, R66). -/
def assembleLine : AsmLine → Option (List Word)
  | .init => some (encode .init)
  | .feed b => some (encode (.feed b))
  | .feedn bytes => assembleFeedn bytes
  | .validate bytes => assembleValidate bytes
  | .word w => some [w]
  | .feeds bytes => some (bytes.flatMap fun b => encode (.feed b))
  | .feedframe c16 s16 payload => if 140 < payload.length then none else assembleFeedn (frameOf c16 s16 payload)
  | .reset => some (encode .init)

/-- The words of a program, its lines in order. -/
def assemble : List AsmLine → Option (List Word)
  | [] => some []
  | l :: ls =>
    match assembleLine l, assemble ls with
    | some ws, some rest => some (ws ++ rest)
    | _, _ => none

end Sys2Proof.Machine
end

