-- ==== Sys2Proof/Safety.lean ====
section
/-! DEFINITION. The terms the statements use: the valid bytes of `ACC`, valid frames (spec/30_encoding.md R55), the
invariants of the block (spec/41_stream_decoder.md R100), what two states have in common that a later command can show
(spec/10_state.md R20), and what a run puts on the ports. -/

namespace Sys2Proof.Machine

/-! ### Buffers and frames -/

/-- `ACC[0..FILL)`, the valid bytes (R12). -/
def contents (s : State) : Except Fault (List Byte) := memRead s 0 s.fill.toNat

/-- A complete header stands at offset `p` of a buffer (R6). -/
abbrev HeaderAt (buf : List Byte) (p : Nat) : Prop := (buf.drop p).take 4 = Config.pHdr

/-- The length field at offsets 4 and 5, by its arithmetic meaning (R31, R51). -/
def lengthOf (buf : List Byte) : Nat := (buf.getD 4 0).toNat + 256 * (buf.getD 5 0).toNat

/-- A valid frame (R55). -/
abbrev ValidFrame (buf : List Byte) : Prop :=
  6 ≤ buf.length ∧ HeaderAt buf 0 ∧ 4 ≤ lengthOf buf ∧ 10 + lengthOf buf = buf.length ∧
    buf.drop (buf.length - 4) = Config.pFtr

/-- The decoded fields of a frame, by their offsets (R50 to R53). -/
def frameDecoded (buf : List Byte) : Decoded :=
  ⟨BitVec.ofNat 16 (lengthOf buf), buf.getD 6 0,
    BitVec.ofNat 16 ((buf.getD 8 0).toNat + 256 * (buf.getD 9 0).toNat)⟩

/-- The sink record of a frame (R63). -/
def frameRecord (buf : List Byte) : SinkRecord :=
  ⟨BitVec.ofNat 8 buf.length, (frameDecoded buf).cmdEcho, (frameDecoded buf).status, buf⟩

/-- The last `k` bytes of a buffer. -/
def lastBytes (k : Nat) (buf : List Byte) : List Byte := buf.drop (buf.length - k)

/-! ### Invariants -/

/-- The status codes that FEED and FEEDN report once they run (R98, R99, R130). -/
abbrev FeedStatus (code : Status) : Prop :=
  code = .ok ∨ code = .bufferTooSmall ∨ code = .invalidFooter ∨ code = .invalidPacket

/-- I1 to I4 of R100, between operations, and with them that a known `ET` is the total size of the length field in `ACC`
(R14, R94). -/
structure SessionInv (s : State) : Prop where
  /-- I1. -/
  awaiting : s.synced = false → s.fill.toNat ≤ 3 ∧ s.et = 0
  /-- I2. -/
  header : s.synced = true → 4 ≤ s.fill.toNat ∧ memRead s 0 4 = .ok Config.pHdr
  /-- I3. -/
  expected : s.et ≠ 0 → s.synced = true ∧ 10 ≤ s.et.toNat ∧ s.et.toNat ≤ 154 ∧ 6 ≤ s.fill.toNat ∧
    s.fill.toNat < s.et.toNat
  /-- I4. -/
  room : s.fill.toNat ≤ 153
  /-- `ET` is `4 + 2 + L + 4` for the length `L` at `ACC[4..6)`. -/
  total : s.et ≠ 0 → ∃ len, accLe16 s 4 = .ok len ∧ s.et.toNat = totalSize len

/-- What holds while an operation is held by an owed sink answer (R153): the record presented is the valid frame at the
front of `ACC`, and the operation has a byte in progress. -/
structure HoldInv (o : Operation) (s : State) : Prop where
  synced : s.synced = true
  size : 14 ≤ s.et.toNat ∧ s.et.toNat ≤ s.fill.toNat ∧ s.fill.toNat ≤ 154
  frame : ∃ f, memRead s 0 s.et.toNat = .ok f ∧ ValidFrame f ∧ s.sinkPort = some (frameRecord f)
  running : o.stop = false ∧ o.consumed.toNat < o.chunk.length ∧ o.chunk.length ≤ 255
  reported : FeedStatus o.firstErr

/-- The invariant of the block: `ACC` in canonical form and inside its 154 bytes, its valid bytes readable, and the session
between operations (R100) or inside a held one (R153). -/
structure Inv (s : State) : Prop where
  form : Memory.wf s.acc = true
  range : ∀ c ∈ s.acc, c.1 < 154
  readable : ∃ c, contents s = .ok c
  idle : s.op = none → s.sinkPort = none ∧ SessionInv s
  held : ∀ o, s.op = some o → HoldInv o s

/-- The host has done nothing that R156 forbids since the last step. -/
abbrev Proper (s : State) : Prop := s.misuse = none

/-- The block is between operations. -/
abbrev Idle (s : State) : Prop := s.op = none

/-! ### What can be seen of a state -/

/-- Two states that differ at most in bytes of `ACC` at or above `FILL` (R20, U2). -/
structure SameObservable (s t : State) : Prop where
  contents_eq : contents s = contents t
  fill_eq : s.fill = t.fill
  et_eq : s.et = t.et
  synced_eq : s.synced = t.synced
  op_eq : s.op = t.op
  sinkPort_eq : s.sinkPort = t.sinkPort
  params_eq : s.params = t.params
  sinkPresent_eq : s.sinkPresent = t.sinkPresent
  cmdPort_eq : s.cmdPort = t.cmdPort
  answers_eq : s.answers = t.answers
  out_eq : s.out = t.out
  misuse_eq : s.misuse = t.misuse

/-- The sink records of an output record, in order. -/
def emissions (out : List PortEvent) : List SinkRecord :=
  out.filterMap fun e => match e with
    | .emission r => some r
    | .response _ => none

/-- The response words of an output record, in order. -/
def responses (out : List PortEvent) : List (List Word) :=
  out.filterMap fun e => match e with
    | .emission _ => none
    | .response ws => some ws

/-- Bytes of the stream as gaps and frames in turn: gap, frame, gap, frame, … -/
def weave : List (List Byte × List Byte) → List Byte
  | [] => []
  | (gap, frame) :: rest => gap ++ frame ++ weave rest

/-- Every answer that has come or will come is CONTINUE. -/
abbrev AllContinue (s : State) : Prop := ∀ bit ∈ s.answers, answerOfBit bit = .proceed

/-! ### Feeding -/

/-- The total size of the candidate frame at the front of the bytes `buf`: `ET` once it is known, before that what the
length field of `buf` says (R14, R94). -/
def candidateTotal (s : State) (buf : List Byte) : Nat := if s.et = 0 then 10 + lengthOf buf else s.et.toNat

/-- The bytes a feeding command feeds (R98, R99). -/
def fedBytes : Instr → List Byte
  | .feed b => [b]
  | .feedn payload => payload.map immField
  | _ => []

/-- A FEED, or a FEEDN of 1 to 255 payload words `0x00BB` (R59, R98, R99). -/
abbrev Feeding (i : Instr) : Prop :=
  (∃ b, i = .feed b) ∨ ∃ bytes : List Byte, i = .feedn (bytes.map payloadWord) ∧ 1 ≤ bytes.length ∧ bytes.length ≤ 255

/-- The FEED commands that feed these bytes one at a time (R66, FEEDS). -/
def feedEach (bytes : List Byte) : List Instr := bytes.map .feed

/-- Perform commands in order (R37). -/
def performAll : List Instr → State → Host.Outcome State Fault Refusal
  | [], s => .next s
  | i :: is, s =>
    match exec i s with
    | .next t => performAll is t
    | .fault f => .fault f
    | .refused r => .refused r

/-- The first status that is not `Ok`, or `Ok` (R99, R106). -/
def firstError : List Status → Status
  | [] => .ok
  | c :: cs => if c = .ok then firstError cs else c

/-- A block ready to be fed: between operations, with the invariant and a sink (R152). -/
structure Ready (s : State) : Prop where
  inv : Inv s
  idle : Idle s
  sink : s.sinkPresent = true

end Sys2Proof.Machine
end

