-- ==== Sys2Proof/Certificates/Slice0/Obligations.lean ====
section
/-! DEFINITION. The statements for the provers. Each docstring names the rule of spec/ it formalises, or, for a derived
statement, the sections it rests on. "c" in a docstring stands for the valid bytes with the fed byte appended. -/

open Sys2Proof Sys2Proof.Machine

/-! ### The command port -/

/-- The round trip of R56 to R61: a well-formed command's words, followed by any others, decode to it and leave
those others. No bit of an encoding is dropped. -/
def Obligations.DecodeOfEncodeIsTheCommand : Prop :=
  ∀ (i : Instr) (rest : List Word), i.wf = true → decode (encode i ++ rest) = .ok (i, rest)

/-- The other direction: what decodes is a well-formed command, and its words are the words that were read. -/
def Obligations.EncodeOfDecodeIsTheWords : Prop :=
  ∀ (ws : List Word) (i : Instr) (rest : List Word), decode ws = .ok (i, rest) → i.wf = true ∧ encode i ++ rest = ws

/-- R58. A command's length is decided by its command word alone: `1 + IMM8` words when `OPC` is 0x03 or 0x04, else
one. The block takes every word of a command before it performs it, and until the last one has arrived the port
holds. That the model says "holds" as a step that changes nothing is its choice (log entry 4). -/
def Obligations.CommandLengthIsDecidedByItsFirstWord : Prop :=
  ∀ (s : State) (w : Word) (ws : List Word) (n : Nat), Idle s → Proper s → s.cmdPort = w :: ws →
    n = (if w.extractLsb' 8 8 = 0x03#8 ∨ w.extractLsb' 8 8 = 0x04#8 then (w.extractLsb' 0 8).toNat else 0) →
    (ws.length < n → step s = .next s) ∧
    (n ≤ ws.length → ∃ i, encode i = (w :: ws).take (1 + n) ∧ i.wf = true ∧
      step s = exec i { s with cmdPort := (w :: ws).drop (1 + n) })

/-- INDEX.md on opcode_table.json: every word matches exactly one row, the row of the command it decodes to, but for
0x0100, which matches INIT and INIT_BAD and decodes to INIT. -/
def Obligations.EveryWordMatchesTheRowOfItsCommand : Prop :=
  (∀ (w : Word) (payload : List Word),
    opcodeTable.filter (fun r => rowMatches r w) =
      if w = 0x0100 then [rowOf .init, rowOf (.initBad 0)] else [rowOf (decodeCommand w payload)]) ∧
  ∀ payload : List Word, decodeCommand 0x0100 payload = .init

/-- R57, R58, R65: words written out from the table decode to the commands they stand for, one of each family. -/
def Obligations.WrittenOutWordsDecode : Prop :=
  decode [0b0000000100000000#16] = .ok (.init, []) ∧
  decode [0b0000001011111101#16] = .ok (.feed 0xFD, []) ∧
  decode [0b0000001100000010#16, 0x00FD#16, 0x00FC#16, 0x0100#16] = .ok (.feedn [0x00FD, 0x00FC], [0x0100]) ∧
  decode [0b0000010000000001#16, 0x01FF#16] = .ok (.validate [0x01FF], []) ∧
  decode [0b0000010100000000#16, 0x02FD#16] = .ok (.reserved05 0, [0x02FD]) ∧
  decode [0b1111111100010010#16] = .ok (.reserved80 0x7F 0x12, []) ∧
  decode [0b0000000100000001#16] = .ok (.initBad 0x01, [])

/-- Model statement on the step (R37, R40): when the words on the port decode to a command, the step takes exactly
that command's words and is `exec` of it. -/
def Obligations.StepPerformsTheDecodedCommand : Prop :=
  ∀ (s : State) (i : Instr) (rest : List Word), Idle s → Proper s → decode s.cmdPort = .ok (i, rest) →
    i.wf = true ∧ step s = exec i { s with cmdPort := rest }

/-- R143, R157: with no command word on the port the block is idle and holds its state unchanged. That a waiting
block steps to itself is the model's choice (log entry 4). -/
def Obligations.IdleBlockHoldsItsState : Prop := ∀ s : State, Idle s → Proper s → s.cmdPort = [] → step s = .next s

/-- R153: while a sink answer is owed and has not come, the block is held: the step changes nothing (log entry 4),
and no command begins (the model refuses one, R156, log entry 8). Words that were on the port before the operation
only wait; words presented while it is held are refused (log entry 22). -/
def Obligations.OwedAnswerHoldsTheBlock : Prop :=
  ∀ (s : State) (o : Operation), s.op = some o →
    (Proper s → s.answers = [] → step s = .next s) ∧ ∀ i : Instr, exec i s = .refused .commandDuringOperation

/-- R153, R37, with the answers as a host input (log entry 5): an answer that comes late, while the operation is
held, leads to exactly the outcome of the same answer given in time. The hold is lifted only by the host's answer,
and it changes nothing else (what R156 forbids aside). The queue of answers in `State` is the model's choice. -/
def Obligations.LateAnswersEqualEarlyAnswers : Prop :=
  ∀ (i : Instr) (s t : State) (o : Operation) (bits : List (BitVec 1)), Proper s → i.wf = true →
    exec i s = .next t → t.op = some o →
    step { t with answers := bits } = exec i { s with answers := s.answers ++ bits }

/-- The frame of a step against the host: it writes neither the build parameter nor `SINK_PRESENT`, takes words and
answers only from the front of what the host gave, and never takes back an output. That the build parameter is a
field of `State` (log entry 2), the answers a queue in it (log entry 5) and the outputs a list that only grows (log
entry 7) is the model's choice; the spec's part is R5, R19, R36, R40 and R64. -/
def Obligations.HostInputsAreOnlyTaken : Prop :=
  ∀ s t : State, step s = .next t →
    t.params = s.params ∧ t.sinkPresent = s.sinkPresent ∧ t.cmdPort <:+ s.cmdPort ∧ t.answers <:+ s.answers ∧
      s.out <+: t.out ∧ t.misuse = s.misuse

/-! ### Reset and session control -/

/-- R150: power-on reset gives `FILL = 0`, `ET = 0`, `SYNCED = 0`, no operation and an empty port, and the block
waits for its first command (it waits by stepping to itself, the model's choice, log entry 4). -/
def Obligations.ResetIsANewSession : Prop :=
  State.reset.fill = 0 ∧ State.reset.et = 0 ∧ State.reset.synced = false ∧ State.reset.op = none ∧
    State.reset.cmdPort = [] ∧ step State.reset = .next State.reset

/-- R100 (the spec's own inference, "[derived: by induction over rules R90 to R97 and rule R120, ...]"): the
invariants hold at reset. `Inv` adds to I1 to I4 the canonical form of `ACC` (log entry 3) and what holds in a held
operation. -/
def Obligations.ResetHasTheInvariant : Prop := Inv State.reset

/-- R120: INIT, the single word 0x0100, clears `FILL`, `ET` and `SYNCED`, writes nothing else (`ACC` included),
samples no `SINK_PRESENT`, and responds Ok. -/
def Obligations.InitReinitializesTheSession : Prop :=
  encode .init = [0x0100] ∧
  ∀ s : State, Idle s → exec .init s =
    .next { s with fill := 0, et := 0, synced := false, out := s.out ++ [.response [0x0000]] }

/-- R121: a word whose `OPC` is 0x00 or 0x05 to 0xFF is one command of one word; it responds `InvalidArguments` and
changes no state; the word after it is the next command. -/
def Obligations.ReservedOpcodesAreMalformedCalls : Prop :=
  ∀ (s : State) (w : Word) (ws : List Word), Idle s → Proper s → s.cmdPort = w :: ws →
    (w.extractLsb' 8 8 = 0x00#8 ∨ 5 ≤ (w.extractLsb' 8 8).toNat) →
    step s = .next { s with cmdPort := ws, out := s.out ++ [.response [0x0001]] }

/-- R121, per command: each of the eight RESERVED commands, whatever its don't-care bits, responds
`InvalidArguments` and changes no state. -/
def Obligations.EveryReservedCommandResponds : Prop :=
  ∀ (s : State) (m : Byte) (x1 : BitVec 1) (x3 : BitVec 3) (x4 : BitVec 4) (x5 : BitVec 5) (x6 : BitVec 6)
    (x7 : BitVec 7), Idle s →
    ∀ i ∈ [Instr.reserved00 m, .reserved05 m, .reserved06 x1 m, .reserved08 x3 m, .reserved10 x4 m, .reserved20 x5 m,
      .reserved40 x6 m, .reserved80 x7 m],
      exec i s = .next { s with out := s.out ++ [.response [0x0001]] }

/-- R122: INIT with a nonzero `IMM8`, words 0x0101 to 0x01FF, responds `InvalidArguments` and changes no state. -/
def Obligations.InitWithNonzeroImmediateIsMalformed : Prop :=
  ∀ s : State, Idle s →
    (∀ imm8 : Byte, imm8 ≠ 0 → exec (.initBad imm8) s = .next { s with out := s.out ++ [.response [0x0001]] }) ∧
    (∀ (w : Word) (ws : List Word), Proper s → s.cmdPort = w :: ws → 0x0101 ≤ w.toNat → w.toNat ≤ 0x01FF →
      step s = .next { s with cmdPort := ws, out := s.out ++ [.response [0x0001]] })

/-- R151, last sentence (the spec's own inference, "[derived: from rule R150, rule R120 and rule R20]"): after INIT
the block agrees with a block after power-on reset on everything a later command can show. -/
def Obligations.InitLooksLikePowerOn : Prop :=
  ∀ s : State, Inv s → Idle s → ∃ t, exec .init s = .next t ∧
    SameObservable t { State.reset with
      params := s.params, sinkPresent := s.sinkPresent, cmdPort := s.cmdPort, answers := s.answers, out := t.out,
      misuse := s.misuse }

/-! ### The Frame Validator -/

/-- R80, R81: the seven steps in order; of several failing checks the earliest is reported. -/
def Obligations.ValidatorReportsTheEarliestFailure : Prop :=
  ∀ buf : List Byte,
    (buf.length < 6 → validateFn buf = .ok (.reject .invalidBufferSize)) ∧
    (6 ≤ buf.length → lengthOf buf = 0 → validateFn buf = .ok (.reject .invalidFrameSize)) ∧
    (6 ≤ buf.length → lengthOf buf ≠ 0 → 10 + lengthOf buf ≠ buf.length →
      validateFn buf = .ok (.reject .invalidBufferSize)) ∧
    (6 ≤ buf.length → lengthOf buf ≠ 0 → 10 + lengthOf buf = buf.length → ¬ HeaderAt buf 0 →
      validateFn buf = .ok (.reject .invalidHeader)) ∧
    (6 ≤ buf.length → lengthOf buf ≠ 0 → 10 + lengthOf buf = buf.length → HeaderAt buf 0 →
      buf.drop (buf.length - 4) ≠ Config.pFtr → validateFn buf = .ok (.reject .invalidFooter)) ∧
    (6 ≤ buf.length → lengthOf buf ≠ 0 → 10 + lengthOf buf = buf.length → HeaderAt buf 0 →
      buf.drop (buf.length - 4) = Config.pFtr → lengthOf buf < 4 → validateFn buf = .ok (.reject .invalidFrameSize)) ∧
    (ValidFrame buf → validateFn buf = .ok (.accept (frameDecoded buf)))

/-- R84 (the spec's own inference, "[derived: from rule R80 and rule R83]"): the validator accepts exactly the valid
frames of R55; every `Ok` has `|buf| = 10 + L ≥ 14`, and a VALIDATE that responds `Ok` has `|buf| ≤ 154` and `4 ≤ L
≤ 144`. -/
def Obligations.ValidatorAcceptsExactlyValidFrames : Prop :=
  (∀ buf : List Byte, (∃ d, validateFn buf = .ok (.accept d)) ↔ ValidFrame buf) ∧
  (∀ (buf : List Byte) (d : Decoded), validateFn buf = .ok (.accept d) →
    buf.length = 10 + d.length.toNat ∧ 14 ≤ buf.length) ∧
  (∀ (s t : State) (payload ws : List Word), exec (.validate payload) s = .next t →
    t.out = s.out ++ [.response (0x0000 :: ws)] →
    ∃ len, ws.head? = some len ∧ payload.length = 10 + len.toNat ∧ payload.length ≤ 154 ∧ 4 ≤ len.toNat ∧
      len.toNat ≤ 144)

/-- R31, R52, R53: the fields of an accepted buffer are its little-endian words at offsets 4, 6 and 8, the lower
offset holding bits 7..0; `cmd_echo` is the low byte of its word, which is the byte at offset 6. -/
def Obligations.DecodedFieldsAreLittleEndian : Prop :=
  (∀ (buf : List Byte) (off : Nat) (lo hi : Byte), buf[off]? = some lo → buf[off + 1]? = some hi →
    ∃ w, le16 buf off = .ok w ∧ w.toNat = lo.toNat + 256 * hi.toNat) ∧
  (∀ (buf : List Byte) (d : Decoded), validateFn buf = .ok (.accept d) →
    le16 buf 4 = .ok d.length ∧ le16 buf 8 = .ok d.status ∧ buf[6]? = some d.cmdEcho ∧
      ∃ w, le16 buf 6 = .ok w ∧ d.cmdEcho = w.extractLsb' 0 8)

/-- R52, U12: the byte at offset 7, the high byte of the `cmd_echo` word, takes part in no check and no result.
(With `L = 1` there is no such word: offset 7 is then the first byte where the footer is looked for, and step 4
reads it; log entry 21.) -/
def Obligations.HighEchoByteIsDiscarded : Prop :=
  ∀ (buf : List Byte) (b : Byte), lengthOf buf ≠ 1 → validateFn (buf.set 7 b) = validateFn buf

/-- R85 (the spec's own inference, "[derived: from rule R80, rule R94, rule R96 and rule R100]"): on a buffer with a
header, a size `10 + L` and a matching footer, which is what the Stream Decoder passes, the validator fails exactly
when `L ≤ 3`, and then with `InvalidFrameSize`. -/
def Obligations.DecoderCallFailsOnlyOnShortLength : Prop :=
  ∀ buf : List Byte, HeaderAt buf 0 → buf.length = 10 + lengthOf buf → lastBytes 4 buf = Config.pFtr →
    validateFn buf =
      .ok (if lengthOf buf ≤ 3 then .reject .invalidFrameSize else .accept (frameDecoded buf))

/-- R83: VALIDATE is the word 0x04NN and its NN payload words. With no payload, more than 154 words, or a payload
word with nonzero bits 15:8 is a malformed call; otherwise it responds what the validator says of the payload's
bytes. In every case it changes no state, and it needs no sink. -/
def Obligations.ValidateRespondsTheVerdict : Prop :=
  ∀ (s : State) (payload : List Word), Idle s →
    encode (.validate payload) = (0x04#8 ++ BitVec.ofNat 8 payload.length) :: payload ∧
    ((payload.length = 0 ∨ 154 < payload.length ∨ ∃ w ∈ payload, w.extractLsb' 8 8 ≠ 0#8) →
      exec (.validate payload) s = .next { s with out := s.out ++ [.response [0x0001]] }) ∧
    (1 ≤ payload.length → payload.length ≤ 154 → (∀ w ∈ payload, w.extractLsb' 8 8 = 0#8) →
      (∀ d, validateFn (payload.map fun w => w.extractLsb' 0 8) = .ok (.accept d) →
        exec (.validate payload) s = .next { s with
          out := s.out ++ [.response [0x0000, d.length, d.cmdEcho.setWidth 16, d.status]] }) ∧
      (∀ code, validateFn (payload.map fun w => w.extractLsb' 0 8) = .ok (.reject code) →
        exec (.validate payload) s = .next { s with
          out := s.out ++ [.response [(statusCode code).setWidth 16]] }) ∧
      ∃ v, validateFn (payload.map fun w => w.extractLsb' 0 8) = .ok v)

/-! ### ACC -/

/-- R34, R35 and the primitives of 00_scope.md section 5: a write of a range inside `ACC` reads back as what was
written, and every byte outside the range, and every other field, is as before; a range that leaves `ACC` is the
fault `accOutOfRange`, for a read and for a write. -/
def Obligations.AccWritesReadBack : Prop :=
  ∀ (s : State) (off : Nat) (v : List Byte),
    (off + v.length ≤ 154 → ∃ t, memWrite s off v = .ok t ∧ memRead t off v.length = .ok v ∧
      t = { s with acc := t.acc } ∧
      ∀ a, (a < off ∨ off + v.length ≤ a) → Memory.read t.acc a = Memory.read s.acc a) ∧
    (154 < off + v.length → memWrite s off v = .error .accOutOfRange ∧
      memRead s off v.length = .error .accOutOfRange)

/-- Log entry 3's canonical form: two memories in it that read alike at every offset are equal data. -/
def Obligations.CanonicalMemoriesAreEqualData : Prop :=
  ∀ m m' : Memory, Memory.wf m = true → Memory.wf m' = true → (∀ a, Memory.read m a = Memory.read m' a) → m = m'

/-- R90: `RESYNC(s)` keeps everything from the highest header at or after the scan start on, with `SYNCED` set; with
no such header it keeps the last `min(3, FILL - s)` bytes, with `SYNCED` cleared. `ET` is 0 in both. It writes `ACC`
only below the new `FILL`, and no other field. It is called inside a byte step, where `FILL` may have reached `ET`
or 154 (R96, R97), so no invariant is assumed: only that the valid bytes read. -/
def Obligations.ResyncKeepsTheLatestHeader : Prop :=
  ∀ (s : State) (buf : List Byte) (start : Nat), contents s = .ok buf → start ≤ buf.length →
    ∃ t, resync start s = .ok t ∧ t.et = 0 ∧
      t = { s with acc := t.acc, fill := t.fill, et := t.et, synced := t.synced } ∧
      (∀ p, start ≤ p → HeaderAt buf p → (∀ q, p < q → ¬ HeaderAt buf q) →
        t.synced = true ∧ contents t = .ok (buf.drop p)) ∧
      ((∀ p, start ≤ p → ¬ HeaderAt buf p) →
        t.synced = false ∧ contents t = .ok (lastBytes (min 3 (buf.length - start)) buf)) ∧
      ∀ a, t.fill.toNat ≤ a → Memory.read t.acc a = Memory.read s.acc a

/-! ### FEED -/

/-- R101 (the spec's own inference, "[derived: from rule R100 I4]"): between operations, and so at the start of
every byte step, the overflow guard does nothing, and the append finds room. -/
def Obligations.OverflowGuardNeverFires : Prop :=
  ∀ (s : State) (b : Byte), Inv s → Idle s → overflowGuard s = .ok (none, s) ∧
    ∃ t buf, contents s = .ok buf ∧ appendByte b s = .ok t ∧ contents t = .ok (buf ++ [b])

/-- R98, R19, R131: with no sink FEED is a malformed call; with one it answers a next state that keeps the
invariant, and which either holds the operation (never when an answer is there) or has responded with `CONSUMED` 1
and a status of the feed taxonomy, after the emissions of the step. -/
def Obligations.FeedCompletes : Prop :=
  ∀ (s : State) (b : Byte), Inv s → Idle s →
    (s.sinkPresent = false → exec (.feed b) s = .next { s with out := s.out ++ [.response [0x0001]] }) ∧
    (s.sinkPresent = true → ∃ t, exec (.feed b) s = .next t ∧ Inv t ∧ (s.answers ≠ [] → Idle t) ∧
      ((∃ r, t.sinkPort = some r ∧ t.op = some ⟨[b], .ok, 0, false⟩ ∧ t.out = s.out ++ [.emission r]) ∨
        (Idle t ∧ ∃ (rs : List SinkRecord) (code : Status), FeedStatus code ∧ rs.length ≤ 1 ∧ (rs = [] ∨ code = .ok) ∧
          t.out = s.out ++ rs.map .emission ++ [.response [0x01#8 ++ (0#4 ++ statusCode code)]])))

/-- R93: FEED in the phase AWAITING_HEADER. Under 4 bytes the byte is kept; a window that is the header sets
`SYNCED`; any other window drops its first byte. No event, and no field but the session's is written. -/
def Obligations.FeedWhileAwaitingHeader : Prop :=
  ∀ (s : State) (b : Byte) (buf : List Byte), Ready s → s.synced = false → contents s = .ok buf →
    ∃ t, exec (.feed b) s = .next t ∧
      t = { s with acc := t.acc, fill := t.fill, et := 0, synced := t.synced, out := s.out ++ [.response [0x0100]] } ∧
      (buf.length < 3 → contents t = .ok (buf ++ [b]) ∧ t.synced = false) ∧
      (buf.length = 3 → buf ++ [b] = Config.pHdr → contents t = .ok Config.pHdr ∧ t.synced = true) ∧
      (buf.length = 3 → buf ++ [b] ≠ Config.pHdr → contents t = .ok (lastBytes 3 (buf ++ [b])) ∧ t.synced = false)

/-- R94: FEED while a frame accumulates and is not yet complete. The one byte of `ACC` at `FILL` is written; `ET`
stays 0 up to 5 bytes and from the 6th byte on is `10 + L`; no event. -/
def Obligations.FeedWhileAccumulating : Prop :=
  ∀ (s : State) (b : Byte) (buf : List Byte), Ready s → s.synced = true → contents s = .ok buf →
    (buf.length + 1 < 6 ∨ (candidateTotal s (buf ++ [b]) ≤ 154 ∧ buf.length + 1 < candidateTotal s (buf ++ [b]))) →
    exec (.feed b) s = .next { s with
      acc := Memory.write s.acc s.fill.toNat b
      fill := s.fill + 1
      et := if buf.length + 1 < 6 then 0 else BitVec.ofNat 8 (candidateTotal s (buf ++ [b]))
      out := s.out ++ [.response [0x0100]] }

/-- R95: a declared total size above 154 is corruption: the state is what `RESYNC(1)` leaves after the append, and
the status is `BufferTooSmall`. -/
def Obligations.FeedOfAnOversizedLength : Prop :=
  ∀ (s : State) (b : Byte) (buf : List Byte), Ready s → s.synced = true → contents s = .ok buf →
    s.et = 0 → 6 ≤ buf.length + 1 → 154 < 10 + lengthOf (buf ++ [b]) →
    ∃ u v, appendByte b s = .ok u ∧ resync 1 u = .ok v ∧
      exec (.feed b) s = .next { v with out := s.out ++ [.response [0x0102]] }

/-- R96: at the byte that completes a candidate frame, a wrong footer is `InvalidFooter`, and a right one on a
buffer the validator rejects is `InvalidPacket`; the state is what `RESYNC(1)` leaves after the append. -/
def Obligations.FeedOfABadFrame : Prop :=
  ∀ (s : State) (b : Byte) (buf : List Byte), Ready s → s.synced = true → contents s = .ok buf →
    6 ≤ buf.length + 1 → candidateTotal s (buf ++ [b]) ≤ 154 → candidateTotal s (buf ++ [b]) ≤ buf.length + 1 →
    (lastBytes 4 ((buf ++ [b]).take (candidateTotal s (buf ++ [b]))) ≠ Config.pFtr →
      ∃ u v, appendByte b s = .ok u ∧ resync 1 u = .ok v ∧
        exec (.feed b) s = .next { v with out := s.out ++ [.response [0x0103]] }) ∧
    (∀ code, lastBytes 4 ((buf ++ [b]).take (candidateTotal s (buf ++ [b]))) = Config.pFtr →
      validateFn ((buf ++ [b]).take (candidateTotal s (buf ++ [b]))) = .ok (.reject code) →
      ∃ u v, appendByte b s = .ok u ∧ resync 1 u = .ok v ∧
        exec (.feed b) s = .next { v with out := s.out ++ [.response [0x0104]] })

/-- R97: at the byte that completes a valid frame, the sink record of that frame is presented; when the answer is
there, the state is what `RESYNC(e)` leaves after the append, the answer is used up, the record is no longer
presented, and the status is `Ok`. -/
def Obligations.FeedOfAValidFrameEmits : Prop :=
  ∀ (s : State) (b : Byte) (buf : List Byte) (bit : BitVec 1) (bits : List (BitVec 1)) (e : Nat), Ready s →
    s.synced = true → contents s = .ok buf → 6 ≤ buf.length + 1 → e = candidateTotal s (buf ++ [b]) → e ≤ 154 →
    e ≤ buf.length + 1 → ValidFrame ((buf ++ [b]).take e) → s.answers = bit :: bits →
    ∃ u v, appendByte b s = .ok u ∧ resync e u = .ok v ∧
      exec (.feed b) s = .next { v with
        answers := bits
        out := s.out ++ [.emission (frameRecord ((buf ++ [b]).take e)), .response [0x0100]] }

/-- R153, R97: when the answer is not there, the block is held inside the byte step: the record is presented, no
response is delivered, `RESYNC` has not run, and the working values of the operation are kept. -/
def Obligations.FeedOfAValidFrameWaitsForTheAnswer : Prop :=
  ∀ (s : State) (b : Byte) (buf : List Byte) (e : Nat), Ready s →
    s.synced = true → contents s = .ok buf → 6 ≤ buf.length + 1 → e = candidateTotal s (buf ++ [b]) → e ≤ 154 →
    e ≤ buf.length + 1 → ValidFrame ((buf ++ [b]).take e) → s.answers = [] →
    exec (.feed b) s = .next { s with
      acc := Memory.write s.acc s.fill.toNat b
      fill := s.fill + 1
      et := BitVec.ofNat 8 e
      op := some ⟨[b], .ok, 0, false⟩
      sinkPort := some (frameRecord ((buf ++ [b]).take e))
      out := s.out ++ [.emission (frameRecord ((buf ++ [b]).take e))] }

/-- R104 (the spec's own inference, "[derived: from rules R94 to R97, rule R85 and rule R101]"): a synced candidate
of `L > 144` reports `BufferTooSmall`; otherwise one with a wrong footer `InvalidFooter`; otherwise one with `L ≤ 3`
`InvalidPacket`; otherwise it is emitted. No other status comes from the step that completes or decodes it. -/
def Obligations.CandidateFrameOutcome : Prop :=
  ∀ (s t : State) (b : Byte) (buf : List Byte) (e : Nat), Ready s → s.synced = true → contents s = .ok buf →
    6 ≤ buf.length + 1 → e = candidateTotal s (buf ++ [b]) → (154 < e ∨ e ≤ buf.length + 1) → s.answers ≠ [] →
    exec (.feed b) s = .next t →
    t.out = s.out ++
      if 144 < lengthOf (buf ++ [b]) then [.response [0x0102]]
      else if lastBytes 4 ((buf ++ [b]).take e) ≠ Config.pFtr then [.response [0x0103]]
      else if lengthOf (buf ++ [b]) ≤ 3 then [.response [0x0104]]
      else [.emission (frameRecord ((buf ++ [b]).take e)), .response [0x0100]]

/-- R98, R92, the frame of FEED: it writes the session and nothing else of the machine; of `ACC` it writes the byte
at `FILL` and, where it moves bytes, the bytes below the new `FILL`. -/
def Obligations.FeedFrame : Prop :=
  ∀ (s t : State) (b : Byte), Ready s → exec (.feed b) s = .next t →
    t.params = s.params ∧ t.sinkPresent = s.sinkPresent ∧ t.cmdPort = s.cmdPort ∧ t.answers <:+ s.answers ∧
      s.out <+: t.out ∧ t.misuse = s.misuse ∧
      (∀ a, t.fill.toNat ≤ a → a ≠ s.fill.toNat → Memory.read t.acc a = Memory.read s.acc a) ∧
      (t.fill.toNat = s.fill.toNat + 1 → ∀ a, a ≠ s.fill.toNat → Memory.read t.acc a = Memory.read s.acc a)

/-! ### FEEDN -/

/-- R99, R131: FEEDN with no sink, with no payload, with more than one word where `P_CHUNK_FEED` is false, or with a
payload word whose bits 15:8 are nonzero, is a malformed call: no byte is processed and no state changes. -/
def Obligations.FeednMalformedCalls : Prop :=
  ∀ (s : State) (payload : List Word), Idle s →
    (s.sinkPresent = false ∨ payload.length = 0 ∨ (1 < payload.length ∧ s.params.chunkFeed = false) ∨
      ∃ w ∈ payload, w.extractLsb' 8 8 ≠ 0#8) →
    exec (.feedn payload) s = .next { s with out := s.out ++ [.response [0x0001]] }

/-- R99, R102: FEEDN of 1 to 255 bytes, where it is no malformed call, answers a next state that keeps the
invariant. Either the operation is held by an owed answer, or it has responded once, after its emissions, with a
count from 1 to `n` and a status of the feed taxonomy; with an answer for each byte it is never held. (R102 is the
spec's own inference, "[derived: from rules R90 to R99 and rule R101]".) -/
def Obligations.FeednCompletes : Prop :=
  ∀ (s : State) (bytes : List Byte), Ready s → 1 ≤ bytes.length → bytes.length ≤ 255 →
    (bytes.length = 1 ∨ s.params.chunkFeed = true) →
    ∃ t, exec (.feedn (bytes.map payloadWord)) s = .next t ∧ Inv t ∧ (bytes.length ≤ s.answers.length → Idle t) ∧
      ((∃ o, t.op = some o ∧ o.chunk = bytes ∧ t.answers = [] ∧
          ∃ rs : List SinkRecord, rs ≠ [] ∧ t.out = s.out ++ rs.map .emission) ∨
        (Idle t ∧ ∃ (rs : List SinkRecord) (consumed : Byte) (code : Status), FeedStatus code ∧
          1 ≤ consumed.toNat ∧ consumed.toNat ≤ bytes.length ∧
          t.out = s.out ++ rs.map .emission ++ [.response [consumed ++ (0#4 ++ statusCode code)]]))

/-- R99: with `n = 1` FEEDN behaves as FEED of its byte. -/
def Obligations.FeednOfOneByteIsFeed : Prop :=
  ∀ (s : State) (b : Byte), exec (.feedn [payloadWord b]) s = exec (.feed b) s

/-- R99, R155: FEEDN processes exactly its first `CONSUMED` bytes, as FEED commands for them would: the same
session, the same emissions, the same answers used. Its status is the first that is not `Ok` among those FEEDs. -/
def Obligations.FeednProcessesItsConsumedBytes : Prop :=
  ∀ (s t : State) (bytes : List Byte), Ready s → 1 ≤ bytes.length → bytes.length ≤ 255 →
    (bytes.length = 1 ∨ s.params.chunkFeed = true) →
    exec (.feedn (bytes.map payloadWord)) s = .next t → Idle t →
    ∃ (n : Nat) (u : State) (codes : List Status), n ≤ bytes.length ∧ codes.length = n ∧
      performAll (feedEach (bytes.take n)) s = .next u ∧ Idle u ∧
      contents t = contents u ∧ t.fill = u.fill ∧ t.et = u.et ∧ t.synced = u.synced ∧ t.answers = u.answers ∧
      emissions t.out = emissions u.out ∧
      responses u.out = responses s.out ++ codes.map (fun c => [0x01#8 ++ (0#4 ++ statusCode c)]) ∧
      responses t.out = responses s.out ++ [[BitVec.ofNat 8 n ++ (0#4 ++ statusCode (firstError codes))]]

/-- R99: a count below `n` is reported only after an early stop: the last answer the operation used was STOP, and
every answer before it was CONTINUE. Without a STOP the whole chunk is processed, whatever errors it meets. -/
def Obligations.ShortCountOnlyAfterStop : Prop :=
  ∀ (s t : State) (bytes : List Byte) (rs : List SinkRecord) (consumed : Byte) (code : Status), Ready s →
    1 ≤ bytes.length → bytes.length ≤ 255 → (bytes.length = 1 ∨ s.params.chunkFeed = true) →
    exec (.feedn (bytes.map payloadWord)) s = .next t → Idle t →
    t.out = s.out ++ rs.map .emission ++ [.response [consumed ++ (0#4 ++ statusCode code)]] →
    ∃ used, s.answers = used ++ t.answers ∧ used.length = rs.length ∧
      (∀ bit ∈ used.dropLast, answerOfBit bit = .proceed) ∧
      (consumed.toNat < bytes.length → ∃ bit, used.getLast? = some bit ∧ answerOfBit bit = .stop)

/-- R99, R64, early stop on a new session: a chunk that begins with a valid frame, whose emission is answered STOP,
ends there, with `CONSUMED` the size of the frame; the rest of the chunk is not processed. -/
def Obligations.StopEndsTheChunk : Prop :=
  ∀ (s : State) (frame rest : List Byte) (bits : List (BitVec 1)), Ready s → s.params.chunkFeed = true →
    contents s = .ok [] → ValidFrame frame → frame.length ≤ 154 → frame.length + rest.length ≤ 255 →
    s.answers = 1#1 :: bits →
    ∃ t, exec (.feedn ((frame ++ rest).map payloadWord)) s = .next t ∧ Idle t ∧
      t.out = s.out ++ [.emission (frameRecord frame), .response [BitVec.ofNat 8 frame.length ++ 0x00#8]] ∧
      t.answers = bits ∧ contents t = .ok [] ∧ t.fill = 0 ∧ t.et = 0 ∧ t.synced = false

/-- R106, chunking invariance (the spec's own inference, "[derived: rule R99 runs `STEP` over the chunk in order,
and `STEP` does not depend on operation boundaries]"): any split of an input into FEED and FEEDN commands, with a
sink present, chunks allowed and every emission answered CONTINUE, gives the emissions and the session of feeding
the bytes one at a time. (One answer for each byte is enough that none is owed.) -/
def Obligations.ChunkingInvariance : Prop :=
  ∀ (s : State) (cmds : List Instr), Ready s → s.params.chunkFeed = true → AllContinue s →
    (∀ i ∈ cmds, Feeding i) → (cmds.flatMap fedBytes).length ≤ s.answers.length →
    ∃ t u, performAll cmds s = .next t ∧ performAll (feedEach (cmds.flatMap fedBytes)) s = .next u ∧
      Idle t ∧ Idle u ∧ contents t = contents u ∧ t.fill = u.fill ∧ t.et = u.et ∧ t.synced = u.synced ∧
      t.answers = u.answers ∧ emissions t.out = emissions u.out

/-- R103, R100 (I5): ordering and causality (the spec's own inference, "[derived: from rule R100 I5, rule R97 and
rule R90 with `s = e`]"). The bytes kept before an operation and those it processed are, in order, gaps and the
emitted frames in turn, and at the end the bytes kept after it: each frame is a contiguous segment of the input, no
two share a byte, they come in the order of their positions, and what is kept is a gap-free suffix of the input. -/
def Obligations.EmittedFramesAreSegmentsOfTheInput : Prop :=
  ∀ (s t : State) (bytes buf buf' : List Byte) (rs : List SinkRecord) (consumed : Byte) (code : Status), Ready s →
    1 ≤ bytes.length → bytes.length ≤ 255 → (bytes.length = 1 ∨ s.params.chunkFeed = true) →
    exec (.feedn (bytes.map payloadWord)) s = .next t → Idle t →
    t.out = s.out ++ rs.map .emission ++ [.response [consumed ++ (0#4 ++ statusCode code)]] →
    contents s = .ok buf → contents t = .ok buf' →
    ∃ (segments : List (List Byte × List Byte)) (gap : List Byte),
      segments.map (fun p => p.2) = rs.map (fun r => r.bytes) ∧
      buf ++ bytes.take consumed.toNat = weave segments ++ gap ++ buf'

/-- R99, R92, the frame of FEEDN: it writes the session and the ports it uses, and no byte of `ACC` at or above
`FILL + n`. -/
def Obligations.FeednFrame : Prop :=
  ∀ (s t : State) (bytes : List Byte), Ready s → 1 ≤ bytes.length → bytes.length ≤ 255 →
    exec (.feedn (bytes.map payloadWord)) s = .next t →
    t.params = s.params ∧ t.sinkPresent = s.sinkPresent ∧ t.cmdPort = s.cmdPort ∧ t.answers <:+ s.answers ∧
      s.out <+: t.out ∧ t.misuse = s.misuse ∧
      ∀ a, s.fill.toNat + bytes.length ≤ a → Memory.read t.acc a = Memory.read s.acc a

/-! ### The whole machine -/

/-- R132, R138: in every state with the invariant, between operations, every well-formed command completes with a
next state that keeps the invariant; no status, no error and no mode stops it. -/
def Obligations.EveryCommandCompletes : Prop :=
  ∀ (s : State) (i : Instr), Inv s → Idle s → i.wf = true → ∃ t, exec i s = .next t ∧ Inv t

/-- R100 (the spec's own inference, "[derived: by induction over rules R90 to R97 and rule R120, ...]"): the
invariants are kept by every step, held operations included. -/
def Obligations.StepKeepsTheInvariant : Prop := ∀ s t : State, Inv s → step s = .next t → Inv t

/-- R35, R101, R132: from a state with the invariant a step never faults, and is refused exactly when the host has
done what R156 forbids: no access leaves `ACC`, no byte is read that was not written, and the block is always ready
to go on. (R35's "every access has `off + n ≤ 154`" is the spec's own inference, "[derived: from rule R100, ...]";
that an unwritten byte has no value is log entry 3, and what counts as forbidden is log entry 22.) -/
def Obligations.StepNeverFaults : Prop := ∀ s : State, Inv s →
  (Proper s → ∃ t, step s = .next t) ∧ ∀ m, s.misuse = some m → step s = .refused (misuseRefusal m)

/-- R63, with the range the spec infers in R54 ("[derived: from rule R55 and rule R95]"): every record a step
presents is that of a valid frame, with `TOTAL` its size, from 14 to 154. -/
def Obligations.EveryEmissionIsAValidFrame : Prop :=
  ∀ s t : State, Inv s → step s = .next t → ∃ events, t.out = s.out ++ events ∧
    ∀ r ∈ emissions events, ValidFrame r.bytes ∧ r = frameRecord r.bytes ∧ r.total.toNat = r.bytes.length ∧
      14 ≤ r.total.toNat ∧ r.total.toNat ≤ 154

/-- R62, R36: a command that completes has delivered exactly one response, after all its emissions; `RSP0` has zero
bits 7:4; only a VALIDATE that responds `Ok` has more words, three of them; and only feeding commands emit. -/
def Obligations.OneResponseAfterTheEmissions : Prop :=
  ∀ (s t : State) (i : Instr), Inv s → Idle s → i.wf = true → exec i s = .next t → Idle t →
    ∃ (rs : List SinkRecord) (w : Word) (ws : List Word),
      t.out = s.out ++ rs.map .emission ++ [.response (w :: ws)] ∧ w.extractLsb' 4 4 = 0#4 ∧
      (ws = [] ∨ (ws.length = 3 ∧ w = 0x0000 ∧ ∃ payload, i = .validate payload)) ∧
      (rs ≠ [] → (∃ b, i = .feed b) ∨ ∃ payload, i = .feedn payload)

/-- R20, U2 (the spec's own inference, "[derived: from rule R12 and rule R35]"): the bytes of `ACC` at and above
`FILL` can never be observed: two states that differ at most there step to states that differ at most there, with
the same outputs. -/
def Obligations.StaleBytesAreUnobservable : Prop :=
  ∀ s t : State, Inv s → Inv t → SameObservable s t → Proper s →
    ∃ s' t', step s = .next s' ∧ step t = .next t' ∧ SameObservable s' t'

/-! ### The stream -/

/-- 95_test_vectors.md L1-2: a valid frame fed one byte at a time into a new session gives exactly one emission, of
that frame, and leaves a new session. -/
def Obligations.EveryValidFrameIsEmittedOnce : Prop :=
  ∀ (s : State) (frame : List Byte) (bit : BitVec 1) (bits : List (BitVec 1)), Ready s → contents s = .ok [] →
    ValidFrame frame → frame.length ≤ 154 → s.answers = bit :: bits →
    ∃ t, performAll (feedEach frame) s = .next t ∧ Idle t ∧ contents t = .ok [] ∧ t.et = 0 ∧ t.synced = false ∧
      t.answers = bits ∧ emissions t.out = emissions s.out ++ [frameRecord frame] ∧
      responses t.out = responses s.out ++ List.replicate frame.length [0x0100]

/-- 95_test_vectors.md L1-4: noise in which no header stands, before a valid frame, still gives exactly one
emission, and the noise is not reported. -/
def Obligations.NoiseBeforeAFrameIsDiscarded : Prop :=
  ∀ (s : State) (noise frame : List Byte) (bit : BitVec 1) (bits : List (BitVec 1)), Ready s → contents s = .ok [] →
    (∀ p, ¬ HeaderAt noise p) → ValidFrame frame → frame.length ≤ 154 → s.answers = bit :: bits →
    ∃ t, performAll (feedEach (noise ++ frame)) s = .next t ∧ Idle t ∧ contents t = .ok [] ∧
      emissions t.out = emissions s.out ++ [frameRecord frame] ∧
      responses t.out = responses s.out ++ List.replicate (noise.length + frame.length) [0x0100]

/-- 95_test_vectors.md L1-5, with R159's condition that no header stands inside the corrupted frame: it gives
`InvalidFooter` at its last byte and no emission, and a valid frame fed right after it is emitted. -/
def Obligations.RecoveryAfterACorruptedFooter : Prop :=
  ∀ (s : State) (bad frame : List Byte) (bit : BitVec 1) (bits : List (BitVec 1)), Ready s → contents s = .ok [] →
    HeaderAt bad 0 → (∀ p, 1 ≤ p → ¬ HeaderAt bad p) → bad.length = 10 + lengthOf bad → bad.length ≤ 154 →
    lastBytes 4 bad ≠ Config.pFtr → ValidFrame frame → frame.length ≤ 154 → s.answers = bit :: bits →
    ∃ t, performAll (feedEach (bad ++ frame)) s = .next t ∧ Idle t ∧ contents t = .ok [] ∧
      emissions t.out = emissions s.out ++ [frameRecord frame] ∧
      responses t.out = responses s.out ++ List.replicate (bad.length - 1) [0x0100] ++ [[0x0103]] ++
        List.replicate frame.length [0x0100]

/-- 95_test_vectors.md L1-6, R95, with R159's condition: an oversized frame, which is a header, a length above 144
and any part of a body (none, too) in which, joined to them, no header stands at an offset of 1 or more, gives
`BufferTooSmall` at its sixth byte, nothing for the rest of it, and no emission; a valid frame fed right after it is
emitted. -/
def Obligations.RecoveryAfterAnOversizedLength : Prop :=
  ∀ (s : State) (big frame : List Byte) (bit : BitVec 1) (bits : List (BitVec 1)), Ready s → contents s = .ok [] →
    HeaderAt big 0 → (∀ p, 1 ≤ p → ¬ HeaderAt big p) → 6 ≤ big.length → 144 < lengthOf big →
    ValidFrame frame → frame.length ≤ 154 → s.answers = bit :: bits →
    ∃ t, performAll (feedEach (big ++ frame)) s = .next t ∧ Idle t ∧ contents t = .ok [] ∧
      emissions t.out = emissions s.out ++ [frameRecord frame] ∧
      responses t.out = responses s.out ++ List.replicate 5 [0x0100] ++ [[0x0102]] ++
        List.replicate (big.length - 6 + frame.length) [0x0100]

/-! ### The assembler -/

/-- R66: FEEDFRAME is FEEDN of a valid frame with the given `cmd_echo` word, status and payload, and is refused
above 140 payload bytes; FEEDS is one FEED for each byte; RESET is INIT. -/
def Obligations.PseudoInstructionsExpand : Prop :=
  (∀ (c16 s16 : Word) (payload : List Byte), payload.length ≤ 140 →
    assembleLine (.feedframe c16 s16 payload) = some (encode (.feedn ((frameOf c16 s16 payload).map payloadWord))) ∧
    ValidFrame (frameOf c16 s16 payload) ∧
    frameDecoded (frameOf c16 s16 payload) =
      ⟨BitVec.ofNat 16 (4 + payload.length), c16.extractLsb' 0 8, s16⟩) ∧
  (∀ (c16 s16 : Word) (payload : List Byte), 140 < payload.length →
    assembleLine (.feedframe c16 s16 payload) = none) ∧
  (∀ bytes : List Byte, assembleLine (.feeds bytes) = some ((feedEach bytes).flatMap encode)) ∧
  assembleLine .reset = assembleLine .init

/-! ### Forbidden commands -/

/-- R156, U5: a command of another agent is refused, and so is a command the owner issues while an operation is
held, which is from inside its sink answer; neither is taken. Between operations the owner's words join the port.
That words count as issued from inside the answer when they are presented while the operation is held, also once the
answer is given but not yet taken by a step, is the model's choice (log entry 22). -/
def Obligations.ForbiddenCommandsAreRefused : Prop :=
  ∀ (s : State) (words : List Word), words ≠ [] →
    step (hostWords .other words s) = .refused .secondAgent ∧
    (hostWords .other words s).cmdPort = s.cmdPort ∧
    (∀ o, s.op = some o → step (hostWords .owner words s) = .refused .commandDuringOperation ∧
      (hostWords .owner words s).cmdPort = s.cmdPort) ∧
    (Idle s → hostWords .owner words s = { s with cmdPort := s.cmdPort ++ words })
end

