-- ==== Sys2Proof/Laws/State.lean ====
section
/-! SUPPORT. One lemma per field of State per named update, so that no proof unfolds an update. -/

namespace Sys2Proof.Machine

variable (s : State)

@[simp] theorem respond_acc (ws : List Word) : (respond ws s).acc = s.acc := rfl
@[simp] theorem respond_fill (ws : List Word) : (respond ws s).fill = s.fill := rfl
@[simp] theorem respond_et (ws : List Word) : (respond ws s).et = s.et := rfl
@[simp] theorem respond_synced (ws : List Word) : (respond ws s).synced = s.synced := rfl
@[simp] theorem respond_op (ws : List Word) : (respond ws s).op = s.op := rfl
@[simp] theorem respond_sinkPort (ws : List Word) : (respond ws s).sinkPort = s.sinkPort := rfl
@[simp] theorem respond_params (ws : List Word) : (respond ws s).params = s.params := rfl
@[simp] theorem respond_sinkPresent (ws : List Word) : (respond ws s).sinkPresent = s.sinkPresent := rfl
@[simp] theorem respond_cmdPort (ws : List Word) : (respond ws s).cmdPort = s.cmdPort := rfl
@[simp] theorem respond_answers (ws : List Word) : (respond ws s).answers = s.answers := rfl
@[simp] theorem respond_out (ws : List Word) : (respond ws s).out = s.out ++ [.response ws] := rfl
@[simp] theorem respond_misuse (ws : List Word) : (respond ws s).misuse = s.misuse := rfl

@[simp] theorem malformedCall_acc : (malformedCall s).acc = s.acc := rfl
@[simp] theorem malformedCall_fill : (malformedCall s).fill = s.fill := rfl
@[simp] theorem malformedCall_et : (malformedCall s).et = s.et := rfl
@[simp] theorem malformedCall_synced : (malformedCall s).synced = s.synced := rfl
@[simp] theorem malformedCall_op : (malformedCall s).op = s.op := rfl
@[simp] theorem malformedCall_sinkPort : (malformedCall s).sinkPort = s.sinkPort := rfl
@[simp] theorem malformedCall_params : (malformedCall s).params = s.params := rfl
@[simp] theorem malformedCall_sinkPresent : (malformedCall s).sinkPresent = s.sinkPresent := rfl
@[simp] theorem malformedCall_cmdPort : (malformedCall s).cmdPort = s.cmdPort := rfl
@[simp] theorem malformedCall_answers : (malformedCall s).answers = s.answers := rfl
@[simp] theorem malformedCall_out : (malformedCall s).out = s.out ++ [.response [rsp0 0 .invalidArguments]] := rfl
@[simp] theorem malformedCall_misuse : (malformedCall s).misuse = s.misuse := rfl

@[simp] theorem respondFeed_acc (o : Operation) : (respondFeed o s).acc = s.acc := rfl
@[simp] theorem respondFeed_fill (o : Operation) : (respondFeed o s).fill = s.fill := rfl
@[simp] theorem respondFeed_et (o : Operation) : (respondFeed o s).et = s.et := rfl
@[simp] theorem respondFeed_synced (o : Operation) : (respondFeed o s).synced = s.synced := rfl
@[simp] theorem respondFeed_op (o : Operation) : (respondFeed o s).op = s.op := rfl
@[simp] theorem respondFeed_sinkPort (o : Operation) : (respondFeed o s).sinkPort = s.sinkPort := rfl
@[simp] theorem respondFeed_params (o : Operation) : (respondFeed o s).params = s.params := rfl
@[simp] theorem respondFeed_sinkPresent (o : Operation) : (respondFeed o s).sinkPresent = s.sinkPresent := rfl
@[simp] theorem respondFeed_cmdPort (o : Operation) : (respondFeed o s).cmdPort = s.cmdPort := rfl
@[simp] theorem respondFeed_answers (o : Operation) : (respondFeed o s).answers = s.answers := rfl
@[simp] theorem respondFeed_out (o : Operation) : (respondFeed o s).out = s.out ++ [.response [rsp0 o.consumed o.firstErr]] := rfl
@[simp] theorem respondFeed_misuse (o : Operation) : (respondFeed o s).misuse = s.misuse := rfl

@[simp] theorem presentRecord_acc (r : SinkRecord) : (presentRecord r s).acc = s.acc := rfl
@[simp] theorem presentRecord_fill (r : SinkRecord) : (presentRecord r s).fill = s.fill := rfl
@[simp] theorem presentRecord_et (r : SinkRecord) : (presentRecord r s).et = s.et := rfl
@[simp] theorem presentRecord_synced (r : SinkRecord) : (presentRecord r s).synced = s.synced := rfl
@[simp] theorem presentRecord_op (r : SinkRecord) : (presentRecord r s).op = s.op := rfl
@[simp] theorem presentRecord_sinkPort (r : SinkRecord) : (presentRecord r s).sinkPort = some r := rfl
@[simp] theorem presentRecord_params (r : SinkRecord) : (presentRecord r s).params = s.params := rfl
@[simp] theorem presentRecord_sinkPresent (r : SinkRecord) : (presentRecord r s).sinkPresent = s.sinkPresent := rfl
@[simp] theorem presentRecord_cmdPort (r : SinkRecord) : (presentRecord r s).cmdPort = s.cmdPort := rfl
@[simp] theorem presentRecord_answers (r : SinkRecord) : (presentRecord r s).answers = s.answers := rfl
@[simp] theorem presentRecord_out (r : SinkRecord) : (presentRecord r s).out = s.out ++ [.emission r] := rfl
@[simp] theorem presentRecord_misuse (r : SinkRecord) : (presentRecord r s).misuse = s.misuse := rfl

@[simp] theorem holdOperation_acc (o : Operation) : (holdOperation o s).acc = s.acc := rfl
@[simp] theorem holdOperation_fill (o : Operation) : (holdOperation o s).fill = s.fill := rfl
@[simp] theorem holdOperation_et (o : Operation) : (holdOperation o s).et = s.et := rfl
@[simp] theorem holdOperation_synced (o : Operation) : (holdOperation o s).synced = s.synced := rfl
@[simp] theorem holdOperation_op (o : Operation) : (holdOperation o s).op = some o := rfl
@[simp] theorem holdOperation_sinkPort (o : Operation) : (holdOperation o s).sinkPort = s.sinkPort := rfl
@[simp] theorem holdOperation_params (o : Operation) : (holdOperation o s).params = s.params := rfl
@[simp] theorem holdOperation_sinkPresent (o : Operation) : (holdOperation o s).sinkPresent = s.sinkPresent := rfl
@[simp] theorem holdOperation_cmdPort (o : Operation) : (holdOperation o s).cmdPort = s.cmdPort := rfl
@[simp] theorem holdOperation_answers (o : Operation) : (holdOperation o s).answers = s.answers := rfl
@[simp] theorem holdOperation_out (o : Operation) : (holdOperation o s).out = s.out := rfl
@[simp] theorem holdOperation_misuse (o : Operation) : (holdOperation o s).misuse = s.misuse := rfl

@[simp] theorem takeAnswer_acc (bits : List (BitVec 1)) : (takeAnswer bits s).acc = s.acc := rfl
@[simp] theorem takeAnswer_fill (bits : List (BitVec 1)) : (takeAnswer bits s).fill = s.fill := rfl
@[simp] theorem takeAnswer_et (bits : List (BitVec 1)) : (takeAnswer bits s).et = s.et := rfl
@[simp] theorem takeAnswer_synced (bits : List (BitVec 1)) : (takeAnswer bits s).synced = s.synced := rfl
@[simp] theorem takeAnswer_op (bits : List (BitVec 1)) : (takeAnswer bits s).op = none := rfl
@[simp] theorem takeAnswer_sinkPort (bits : List (BitVec 1)) : (takeAnswer bits s).sinkPort = none := rfl
@[simp] theorem takeAnswer_params (bits : List (BitVec 1)) : (takeAnswer bits s).params = s.params := rfl
@[simp] theorem takeAnswer_sinkPresent (bits : List (BitVec 1)) : (takeAnswer bits s).sinkPresent = s.sinkPresent := rfl
@[simp] theorem takeAnswer_cmdPort (bits : List (BitVec 1)) : (takeAnswer bits s).cmdPort = s.cmdPort := rfl
@[simp] theorem takeAnswer_answers (bits : List (BitVec 1)) : (takeAnswer bits s).answers = bits := rfl
@[simp] theorem takeAnswer_out (bits : List (BitVec 1)) : (takeAnswer bits s).out = s.out := rfl
@[simp] theorem takeAnswer_misuse (bits : List (BitVec 1)) : (takeAnswer bits s).misuse = s.misuse := rfl

@[simp] theorem setFill_acc (n : Nat) : (setFill n s).acc = s.acc := rfl
@[simp] theorem setFill_fill (n : Nat) : (setFill n s).fill = BitVec.ofNat 8 n := rfl
@[simp] theorem setFill_et (n : Nat) : (setFill n s).et = s.et := rfl
@[simp] theorem setFill_synced (n : Nat) : (setFill n s).synced = s.synced := rfl
@[simp] theorem setFill_op (n : Nat) : (setFill n s).op = s.op := rfl
@[simp] theorem setFill_sinkPort (n : Nat) : (setFill n s).sinkPort = s.sinkPort := rfl
@[simp] theorem setFill_params (n : Nat) : (setFill n s).params = s.params := rfl
@[simp] theorem setFill_sinkPresent (n : Nat) : (setFill n s).sinkPresent = s.sinkPresent := rfl
@[simp] theorem setFill_cmdPort (n : Nat) : (setFill n s).cmdPort = s.cmdPort := rfl
@[simp] theorem setFill_answers (n : Nat) : (setFill n s).answers = s.answers := rfl
@[simp] theorem setFill_out (n : Nat) : (setFill n s).out = s.out := rfl
@[simp] theorem setFill_misuse (n : Nat) : (setFill n s).misuse = s.misuse := rfl

@[simp] theorem setEt_acc (n : Nat) : (setEt n s).acc = s.acc := rfl
@[simp] theorem setEt_fill (n : Nat) : (setEt n s).fill = s.fill := rfl
@[simp] theorem setEt_et (n : Nat) : (setEt n s).et = BitVec.ofNat 8 n := rfl
@[simp] theorem setEt_synced (n : Nat) : (setEt n s).synced = s.synced := rfl
@[simp] theorem setEt_op (n : Nat) : (setEt n s).op = s.op := rfl
@[simp] theorem setEt_sinkPort (n : Nat) : (setEt n s).sinkPort = s.sinkPort := rfl
@[simp] theorem setEt_params (n : Nat) : (setEt n s).params = s.params := rfl
@[simp] theorem setEt_sinkPresent (n : Nat) : (setEt n s).sinkPresent = s.sinkPresent := rfl
@[simp] theorem setEt_cmdPort (n : Nat) : (setEt n s).cmdPort = s.cmdPort := rfl
@[simp] theorem setEt_answers (n : Nat) : (setEt n s).answers = s.answers := rfl
@[simp] theorem setEt_out (n : Nat) : (setEt n s).out = s.out := rfl
@[simp] theorem setEt_misuse (n : Nat) : (setEt n s).misuse = s.misuse := rfl

@[simp] theorem setSynced_acc (b : Bool) : (setSynced b s).acc = s.acc := rfl
@[simp] theorem setSynced_fill (b : Bool) : (setSynced b s).fill = s.fill := rfl
@[simp] theorem setSynced_et (b : Bool) : (setSynced b s).et = s.et := rfl
@[simp] theorem setSynced_synced (b : Bool) : (setSynced b s).synced = b := rfl
@[simp] theorem setSynced_op (b : Bool) : (setSynced b s).op = s.op := rfl
@[simp] theorem setSynced_sinkPort (b : Bool) : (setSynced b s).sinkPort = s.sinkPort := rfl
@[simp] theorem setSynced_params (b : Bool) : (setSynced b s).params = s.params := rfl
@[simp] theorem setSynced_sinkPresent (b : Bool) : (setSynced b s).sinkPresent = s.sinkPresent := rfl
@[simp] theorem setSynced_cmdPort (b : Bool) : (setSynced b s).cmdPort = s.cmdPort := rfl
@[simp] theorem setSynced_answers (b : Bool) : (setSynced b s).answers = s.answers := rfl
@[simp] theorem setSynced_out (b : Bool) : (setSynced b s).out = s.out := rfl
@[simp] theorem setSynced_misuse (b : Bool) : (setSynced b s).misuse = s.misuse := rfl

@[simp] theorem loadPort_acc (ws : List Word) : (loadPort ws s).acc = s.acc := rfl
@[simp] theorem loadPort_fill (ws : List Word) : (loadPort ws s).fill = s.fill := rfl
@[simp] theorem loadPort_et (ws : List Word) : (loadPort ws s).et = s.et := rfl
@[simp] theorem loadPort_synced (ws : List Word) : (loadPort ws s).synced = s.synced := rfl
@[simp] theorem loadPort_op (ws : List Word) : (loadPort ws s).op = none := rfl
@[simp] theorem loadPort_sinkPort (ws : List Word) : (loadPort ws s).sinkPort = none := rfl
@[simp] theorem loadPort_params (ws : List Word) : (loadPort ws s).params = s.params := rfl
@[simp] theorem loadPort_sinkPresent (ws : List Word) : (loadPort ws s).sinkPresent = s.sinkPresent := rfl
@[simp] theorem loadPort_cmdPort (ws : List Word) : (loadPort ws s).cmdPort = ws := rfl
@[simp] theorem loadPort_answers (ws : List Word) : (loadPort ws s).answers = s.answers := rfl
@[simp] theorem loadPort_out (ws : List Word) : (loadPort ws s).out = s.out := rfl
@[simp] theorem loadPort_misuse (ws : List Word) : (loadPort ws s).misuse = none := rfl

@[simp] theorem queueWords_acc (ws : List Word) : (queueWords ws s).acc = s.acc := rfl
@[simp] theorem queueWords_fill (ws : List Word) : (queueWords ws s).fill = s.fill := rfl
@[simp] theorem queueWords_et (ws : List Word) : (queueWords ws s).et = s.et := rfl
@[simp] theorem queueWords_synced (ws : List Word) : (queueWords ws s).synced = s.synced := rfl
@[simp] theorem queueWords_op (ws : List Word) : (queueWords ws s).op = s.op := rfl
@[simp] theorem queueWords_sinkPort (ws : List Word) : (queueWords ws s).sinkPort = s.sinkPort := rfl
@[simp] theorem queueWords_params (ws : List Word) : (queueWords ws s).params = s.params := rfl
@[simp] theorem queueWords_sinkPresent (ws : List Word) : (queueWords ws s).sinkPresent = s.sinkPresent := rfl
@[simp] theorem queueWords_cmdPort (ws : List Word) : (queueWords ws s).cmdPort = s.cmdPort ++ ws := rfl
@[simp] theorem queueWords_answers (ws : List Word) : (queueWords ws s).answers = s.answers := rfl
@[simp] theorem queueWords_out (ws : List Word) : (queueWords ws s).out = s.out := rfl
@[simp] theorem queueWords_misuse (ws : List Word) : (queueWords ws s).misuse = s.misuse := rfl

@[simp] theorem noteMisuse_acc (m : Misuse) : (noteMisuse m s).acc = s.acc := rfl
@[simp] theorem noteMisuse_fill (m : Misuse) : (noteMisuse m s).fill = s.fill := rfl
@[simp] theorem noteMisuse_et (m : Misuse) : (noteMisuse m s).et = s.et := rfl
@[simp] theorem noteMisuse_synced (m : Misuse) : (noteMisuse m s).synced = s.synced := rfl
@[simp] theorem noteMisuse_op (m : Misuse) : (noteMisuse m s).op = s.op := rfl
@[simp] theorem noteMisuse_sinkPort (m : Misuse) : (noteMisuse m s).sinkPort = s.sinkPort := rfl
@[simp] theorem noteMisuse_params (m : Misuse) : (noteMisuse m s).params = s.params := rfl
@[simp] theorem noteMisuse_sinkPresent (m : Misuse) : (noteMisuse m s).sinkPresent = s.sinkPresent := rfl
@[simp] theorem noteMisuse_cmdPort (m : Misuse) : (noteMisuse m s).cmdPort = s.cmdPort := rfl
@[simp] theorem noteMisuse_answers (m : Misuse) : (noteMisuse m s).answers = s.answers := rfl
@[simp] theorem noteMisuse_out (m : Misuse) : (noteMisuse m s).out = s.out := rfl
@[simp] theorem noteMisuse_misuse (m : Misuse) : (noteMisuse m s).misuse = some m := rfl

/-- What the owner presents while no operation is held joins the port (R37, R56). -/
theorem hostWords_idle {s : State} (ws : List Word) (h : s.op = none) : hostWords .owner ws s = queueWords ws s := by
  unfold hostWords
  split_ifs with hw
  · subst hw; simp [queueWords]
  · rw [h]

/-- What R156 forbids is noted and nothing else is written. -/
theorem hostWords_forbidden {s : State} {ws : List Word} {who : Agent} (hw : ws ≠ [])
    (h : who = .other ∨ s.op.isSome = true) : ∃ m, hostWords who ws s = noteMisuse m s := by
  unfold hostWords
  rw [if_neg hw]
  cases who with
  | other => exact ⟨_, rfl⟩
  | owner =>
    cases ho : s.op with
    | some o => exact ⟨_, rfl⟩
    | none => rw [ho] at h; simp at h

@[simp] theorem hostAnswer_acc (bit : BitVec 1) : (hostAnswer bit s).acc = s.acc := rfl
@[simp] theorem hostAnswer_fill (bit : BitVec 1) : (hostAnswer bit s).fill = s.fill := rfl
@[simp] theorem hostAnswer_et (bit : BitVec 1) : (hostAnswer bit s).et = s.et := rfl
@[simp] theorem hostAnswer_synced (bit : BitVec 1) : (hostAnswer bit s).synced = s.synced := rfl
@[simp] theorem hostAnswer_op (bit : BitVec 1) : (hostAnswer bit s).op = s.op := rfl
@[simp] theorem hostAnswer_sinkPort (bit : BitVec 1) : (hostAnswer bit s).sinkPort = s.sinkPort := rfl
@[simp] theorem hostAnswer_params (bit : BitVec 1) : (hostAnswer bit s).params = s.params := rfl
@[simp] theorem hostAnswer_sinkPresent (bit : BitVec 1) : (hostAnswer bit s).sinkPresent = s.sinkPresent := rfl
@[simp] theorem hostAnswer_cmdPort (bit : BitVec 1) : (hostAnswer bit s).cmdPort = s.cmdPort := rfl
@[simp] theorem hostAnswer_answers (bit : BitVec 1) : (hostAnswer bit s).answers = s.answers ++ [bit] := rfl
@[simp] theorem hostAnswer_out (bit : BitVec 1) : (hostAnswer bit s).out = s.out := rfl
@[simp] theorem hostAnswer_misuse (bit : BitVec 1) : (hostAnswer bit s).misuse = s.misuse := rfl

@[simp] theorem hostSinkPresent_acc (b : Bool) : (hostSinkPresent b s).acc = s.acc := rfl
@[simp] theorem hostSinkPresent_fill (b : Bool) : (hostSinkPresent b s).fill = s.fill := rfl
@[simp] theorem hostSinkPresent_et (b : Bool) : (hostSinkPresent b s).et = s.et := rfl
@[simp] theorem hostSinkPresent_synced (b : Bool) : (hostSinkPresent b s).synced = s.synced := rfl
@[simp] theorem hostSinkPresent_op (b : Bool) : (hostSinkPresent b s).op = s.op := rfl
@[simp] theorem hostSinkPresent_sinkPort (b : Bool) : (hostSinkPresent b s).sinkPort = s.sinkPort := rfl
@[simp] theorem hostSinkPresent_params (b : Bool) : (hostSinkPresent b s).params = s.params := rfl
@[simp] theorem hostSinkPresent_sinkPresent (b : Bool) : (hostSinkPresent b s).sinkPresent = b := rfl
@[simp] theorem hostSinkPresent_cmdPort (b : Bool) : (hostSinkPresent b s).cmdPort = s.cmdPort := rfl
@[simp] theorem hostSinkPresent_answers (b : Bool) : (hostSinkPresent b s).answers = s.answers := rfl
@[simp] theorem hostSinkPresent_out (b : Bool) : (hostSinkPresent b s).out = s.out := rfl
@[simp] theorem hostSinkPresent_misuse (b : Bool) : (hostSinkPresent b s).misuse = s.misuse := rfl

@[simp] theorem countEvent_chunk (ev : Event) (o : Operation) : (countEvent ev o).chunk = o.chunk := rfl
@[simp] theorem countEvent_consumed (ev : Event) (o : Operation) : (countEvent ev o).consumed = o.consumed + 1 := rfl
@[simp] theorem countEvent_firstErr (ev : Event) (o : Operation) :
    (countEvent ev o).firstErr = if o.firstErr = .ok then eventStatus ev else o.firstErr := rfl
@[simp] theorem countEvent_stop (ev : Event) (o : Operation) :
    (countEvent ev o).stop = (o.stop || decide (ev = .emission .stop)) := rfl

end Sys2Proof.Machine
end

