-- ==== Sys2Proof/Laws/Memory.lean ====
section
/-! SUPPORT. The laws of `ACC` as a memory: a read after a write, and that every operation keeps the canonical form and
the bounds. -/

namespace Sys2Proof.Machine

variable {m : Memory}

theorem read_write (a x : Nat) (b : Byte) :
    Memory.read (Memory.write m a b) x = if x = a then some b else Memory.read m x := by
  induction m with
  | nil => simp only [Memory.write, Memory.read]; grind
  | cons c m ih => simp only [Memory.write]; split_ifs <;> simp only [Memory.read] <;> grind

theorem mem_write {a : Nat} {b : Byte} {c : Host.Cell} (h : c ∈ Memory.write m a b) : c = (a, b) ∨ c ∈ m := by
  induction m with
  | nil => simpa [Memory.write] using h
  | cons d m ih =>
    simp only [Memory.write] at h
    split_ifs at h <;> simp only [List.mem_cons] at h ⊢ <;> tauto

theorem wf_write {a : Nat} {b : Byte} (h : Memory.wf m = true) : Memory.wf (Memory.write m a b) = true := by
  induction m with
  | nil => simp [Memory.write, Memory.wf]
  | cons d m ih =>
    simp only [Memory.wf, Bool.and_eq_true, List.all_eq_true, decide_eq_true_eq] at h
    simp only [Memory.write]
    split_ifs with h1 h2
    · simp only [Memory.wf, Bool.and_eq_true, List.all_eq_true, decide_eq_true_eq, List.mem_cons]
      exact ⟨fun e he => by rcases he with rfl | he; exacts [h1, h1.trans (h.1 e he)], h⟩
    · subst h2; simp only [Memory.wf, Bool.and_eq_true, List.all_eq_true, decide_eq_true_eq]; exact h
    · simp only [Memory.wf, Bool.and_eq_true, List.all_eq_true, decide_eq_true_eq]
      refine ⟨fun e he => ?_, ih h.2⟩
      rcases mem_write he with rfl | he
      · simp only; omega
      · exact h.1 e he

theorem read_writeRange (bs : List Byte) (off x : Nat) :
    Memory.read (Memory.writeRange m off bs) x =
      if off ≤ x ∧ x < off + bs.length then bs[x - off]? else Memory.read m x := by
  induction bs generalizing m off with
  | nil => simp only [Memory.writeRange, List.length_nil]; rw [if_neg (by omega)]
  | cons b bs ih =>
    simp only [Memory.writeRange, ih, read_write, List.length_cons]
    rcases lt_trichotomy x off with h | rfl | h
    · rw [if_neg (by omega), if_neg (by omega), if_neg (by omega)]
    · simp
    · obtain ⟨k, rfl⟩ : ∃ k, x = off + 1 + k := ⟨x - off - 1, by omega⟩
      have h1 : off + 1 + k - (off + 1) = k := by omega
      have h2 : off + 1 + k - off = k + 1 := by omega
      rw [h1, h2, List.getElem?_cons_succ]
      split_ifs <;> first | rfl | omega

theorem wf_writeRange {bs : List Byte} {off : Nat} (h : Memory.wf m = true) :
    Memory.wf (Memory.writeRange m off bs) = true := by
  induction bs generalizing m off with
  | nil => exact h
  | cons b bs ih => exact ih (wf_write h)

theorem range_writeRange {bs : List Byte} {off n : Nat} (h : ∀ c ∈ m, c.1 < n) (hb : off + bs.length ≤ n) :
    ∀ c ∈ Memory.writeRange m off bs, c.1 < n := by
  induction bs generalizing m off with
  | nil => exact h
  | cons b bs ih =>
    simp only [List.length_cons] at hb
    refine ih (fun c hc => ?_) (by omega)
    rcases mem_write hc with rfl | hc
    · simp only; omega
    · exact h c hc

/-- A range reads as a list exactly when each of its bytes does. -/
theorem readRange_eq_ok {off n : Nat} {bs : List Byte} :
    Memory.readRange m off n = .ok bs ↔ bs.length = n ∧ ∀ i < n, Memory.read m (off + i) = bs[i]? := by
  induction n generalizing off bs with
  | zero => cases bs <;> simp [Memory.readRange]
  | succ n ih =>
    constructor
    · intro h
      simp only [Memory.readRange] at h
      split at h
      · rename_i b cs hb hcs
        cases h
        obtain ⟨hl, hr⟩ := ih.mp hcs
        refine ⟨by simp [hl], fun i hi => ?_⟩
        rcases i with _ | i
        · simpa using hb
        · have := hr i (by omega)
          rw [List.getElem?_cons_succ, ← this]; congr 1; omega
      · cases h
      · cases h
    · rintro ⟨hl, hr⟩
      obtain ⟨b, cs, rfl⟩ : ∃ b cs, bs = b :: cs := by
        cases bs with
        | nil => simp at hl
        | cons b cs => exact ⟨b, cs, rfl⟩
      have h0 := hr 0 (by omega)
      have hcs : Memory.readRange m (off + 1) n = .ok cs := by
        refine ih.mpr ⟨by simpa using hl, fun i hi => ?_⟩
        have := hr (i + 1) (by omega)
        rw [List.getElem?_cons_succ] at this
        rw [← this]; congr 1; omega
      simp only [Memory.readRange, hcs]
      simp only [Nat.add_zero, List.getElem?_cons_zero] at h0
      rw [h0]

end Sys2Proof.Machine
end

