-- ==== Sys2Proof/Laws/Acc.lean ====
section
/-! SUPPORT. The spec lemmas of the operations on `ACC` and `FILL`: what each answers from a state whose valid bytes are
readable, and what it leaves alone. None needs an invariant of the session. -/

namespace Sys2Proof.Machine

variable {s t : State} {buf : List Byte}

/-- `ACC` in canonical form and inside its 154 bytes. -/
structure AccOk (s : State) : Prop where
  form : Memory.wf s.acc = true
  range : ∀ d ∈ s.acc, d.1 < 154

/-- The two states differ at most in the decoder session: `ACC`, `FILL`, `ET`, `SYNCED`. -/
def SessionOnly (s t : State) : Prop :=
  t = { s with acc := t.acc, fill := t.fill, et := t.et, synced := t.synced }

theorem SessionOnly.refl : SessionOnly s s := by cases s; rfl

theorem SessionOnly.trans {u : State} (h : SessionOnly s t) (h' : SessionOnly t u) : SessionOnly s u := by
  unfold SessionOnly at *; rw [h'] ; rw [h]

theorem SessionOnly.frame (h : SessionOnly s t) : t.op = s.op ∧ t.sinkPort = s.sinkPort ∧ t.params = s.params ∧
    t.sinkPresent = s.sinkPresent ∧ t.cmdPort = s.cmdPort ∧ t.answers = s.answers ∧ t.out = s.out ∧ t.misuse = s.misuse := by
  unfold SessionOnly at h; rw [h]; simp

/-! ### Reading -/

theorem memRead_eq_ok {off n : Nat} {v : List Byte} : memRead s off n = .ok v ↔
    off + n ≤ 154 ∧ v.length = n ∧ ∀ i < n, Memory.read s.acc (off + i) = v[i]? := by
  unfold memRead Config.pCap
  split_ifs with h
  · rw [readRange_eq_ok]; simp [h]
  · simp [h]

theorem memRead_length {off n : Nat} {v : List Byte} (h : memRead s off n = .ok v) : v.length = n :=
  (memRead_eq_ok.mp h).2.1

/-- A read depends on `ACC` alone. -/
theorem memRead_congr (h : s.acc = t.acc) (off n : Nat) : memRead s off n = memRead t off n := by
  unfold memRead; rw [h]

/-- A part of a range that reads, reads as that part of the bytes. -/
theorem memRead_sub {n off k : Nat} (h : memRead s 0 n = .ok buf) (hk : off + k ≤ n) :
    memRead s off k = .ok ((buf.drop off).take k) := by
  obtain ⟨h1, h2, h3⟩ := memRead_eq_ok.mp h
  refine memRead_eq_ok.mpr ⟨by omega, by simp; omega, fun i hi => ?_⟩
  have := h3 (off + i) (by omega)
  rw [Nat.zero_add] at this
  rw [this, List.getElem?_take_of_lt hi, List.getElem?_drop]

theorem contents_length (h : contents s = .ok buf) : buf.length = s.fill.toNat := memRead_length h

theorem contents_le (h : contents s = .ok buf) : s.fill.toNat ≤ 154 := by
  have := (memRead_eq_ok.mp h).1; omega

theorem memRead_of_contents {off k : Nat} (h : contents s = .ok buf) (hk : off + k ≤ buf.length) :
    memRead s off k = .ok ((buf.drop off).take k) := memRead_sub h (by rwa [← contents_length h])

/-- Reading the valid bytes gives a list exactly when every one of them reads as it does. -/
theorem contents_eq_ok : contents s = .ok buf ↔
    s.fill.toNat ≤ 154 ∧ buf.length = s.fill.toNat ∧ ∀ i < buf.length, Memory.read s.acc i = buf[i]? := by
  unfold contents
  rw [memRead_eq_ok]
  constructor
  · rintro ⟨h1, h2, h3⟩
    exact ⟨by omega, h2, fun i hi => by simpa using h3 i (by omega)⟩
  · rintro ⟨h1, h2, h3⟩
    exact ⟨by omega, h2, fun i hi => by simpa using h3 i (by omega)⟩

/-! ### Appending -/

theorem ofNat8_toNat {n : Nat} (h : n ≤ 255) : (BitVec.ofNat 8 n).toNat = n := by
  rw [BitVec.toNat_ofNat]; omega

/-- The append of R92, where there is room. -/
theorem appendByte_spec (b : Byte) (h : contents s = .ok buf) (hr : s.fill.toNat ≤ 153) :
    ∃ t, appendByte b s = .ok t ∧ contents t = .ok (buf ++ [b]) ∧ t.fill.toNat = s.fill.toNat + 1 ∧
      t = { s with acc := Memory.write s.acc s.fill.toNat b, fill := t.fill } ∧ (AccOk s → AccOk t) := by
  have hw : memWrite s s.fill.toNat [b] = .ok { s with acc := Memory.write s.acc s.fill.toNat b } := by
    unfold memWrite Config.pCap
    rw [if_pos (by simp; omega)]; rfl
  refine ⟨setFill (s.fill.toNat + 1) { s with acc := Memory.write s.acc s.fill.toNat b }, ?_, ?_, ?_, rfl, ?_⟩
  · simp only [appendByte, hw]
  · obtain ⟨h1, h2, h3⟩ := contents_eq_ok.mp h
    refine contents_eq_ok.mpr ⟨?_, ?_, fun i hi => ?_⟩
    · simp only [setFill_fill]; rw [ofNat8_toNat (by omega)]; omega
    · simp only [setFill_fill]; rw [ofNat8_toNat (by omega)]; simp [h2]
    · simp only [setFill_acc, read_write]
      simp only [List.length_append, List.length_singleton] at hi
      split_ifs with he
      · subst he; rw [List.getElem?_append_right (by omega)]; simp [h2]
      · rw [List.getElem?_append_left (by omega)]; exact h3 i (by omega)
  · simp only [setFill_fill]; rw [ofNat8_toNat (by omega)]
  · refine fun ha => ⟨wf_write ha.form, fun d hd => ?_⟩
    rcases mem_write hd with rfl | hd
    · simp only; omega
    · exact ha.range d hd

/-! ### Moving to the front -/

/-- The moves of R90 and R93: what was at `ACC[off..off+k)` becomes all the valid bytes. -/
theorem moveToFront_spec {off k : Nat} (h : contents s = .ok buf) (hk : off + k ≤ buf.length) :
    ∃ t, moveToFront off k s = .ok t ∧ contents t = .ok ((buf.drop off).take k) ∧ t.fill.toNat = k ∧
      t = { s with acc := t.acc, fill := t.fill } ∧ (AccOk s → AccOk t) ∧
      (∀ a, k ≤ a → Memory.read t.acc a = Memory.read s.acc a) := by
  have hl := contents_length h
  have hle := contents_le h
  have hlen : ((buf.drop off).take k).length = k := by simp; omega
  have hw : memWrite s 0 ((buf.drop off).take k) =
      .ok { s with acc := Memory.writeRange s.acc 0 ((buf.drop off).take k) } := by
    unfold memWrite Config.pCap
    rw [if_pos (by rw [hlen]; omega)]
  refine ⟨setFill k { s with acc := Memory.writeRange s.acc 0 ((buf.drop off).take k) }, ?_, ?_, ?_, rfl, ?_, ?_⟩
  · simp only [moveToFront, memRead_of_contents h hk, hw]
  · refine contents_eq_ok.mpr ⟨?_, ?_, fun i hi => ?_⟩
    · simp only [setFill_fill]; rw [ofNat8_toNat (by omega)]; omega
    · simp only [setFill_fill]; rw [ofNat8_toNat (by omega), hlen]
    · simp only [setFill_acc, read_writeRange]
      rw [if_pos (by omega), Nat.sub_zero]
  · simp only [setFill_fill]; rw [ofNat8_toNat (by omega)]
  · exact fun ha => ⟨wf_writeRange ha.form, range_writeRange ha.range (by rw [hlen]; omega)⟩
  · intro a hka
    simp only [setFill_acc, read_writeRange]
    rw [if_neg (by rw [hlen]; omega)]

theorem moveAndSync_spec {off k : Nat} (flag : Bool) (h : contents s = .ok buf) (hk : off + k ≤ buf.length) :
    ∃ t, moveAndSync off k flag s = .ok t ∧ contents t = .ok ((buf.drop off).take k) ∧ t.fill.toNat = k ∧
      t.synced = flag ∧ t.et = 0 ∧ SessionOnly s t ∧ (AccOk s → AccOk t) ∧
      (∀ a, k ≤ a → Memory.read t.acc a = Memory.read s.acc a) := by
  obtain ⟨t, h1, h2, h3, h4, h5, h6⟩ := moveToFront_spec h hk
  refine ⟨setEt 0 (setSynced flag t), by simp only [moveAndSync, h1], h2, h3, rfl, rfl, ?_,
    fun ha => ⟨(h5 ha).form, (h5 ha).range⟩, h6⟩
  rw [h4]; rfl

/-! ### Resynchronization -/

/-- The highest offset with a complete header among `lo, …, lo + n - 1`. -/
def latestHeader (buf : List Byte) (lo : Nat) : Nat → Option Nat
  | 0 => none
  | n + 1 => if HeaderAt buf (lo + n) then some (lo + n) else latestHeader buf lo n

theorem latestHeader_eq_some {lo n p : Nat} : latestHeader buf lo n = some p ↔
    lo ≤ p ∧ p < lo + n ∧ HeaderAt buf p ∧ ∀ q, p < q → q < lo + n → ¬ HeaderAt buf q := by
  induction n with
  | zero => simp [latestHeader]; omega
  | succ n ih =>
    simp only [latestHeader]
    split_ifs with hh
    · simp only [Option.some.injEq]
      constructor
      · rintro rfl; exact ⟨by omega, by omega, hh, fun q h1 h2 => by omega⟩
      · rintro ⟨h1, h2, h3, h4⟩
        by_contra hne
        exact h4 (lo + n) (by omega) (by omega) hh
    · rw [ih]
      constructor
      · rintro ⟨h1, h2, h3, h4⟩
        refine ⟨h1, by omega, h3, fun q hq hq' => ?_⟩
        rcases Nat.lt_or_ge q (lo + n) with h | h
        · exact h4 q hq h
        · have : q = lo + n := by omega
          rw [this]; exact hh
      · rintro ⟨h1, h2, h3, h4⟩
        have : p ≠ lo + n := fun h => hh (h ▸ h3)
        exact ⟨h1, by omega, h3, fun q hq hq' => h4 q hq (by omega)⟩

theorem latestHeader_eq_none {lo n : Nat} : latestHeader buf lo n = none ↔
    ∀ q, lo ≤ q → q < lo + n → ¬ HeaderAt buf q := by
  induction n with
  | zero => simp [latestHeader]; omega
  | succ n ih =>
    simp only [latestHeader]
    split_ifs with hh
    · simp only [false_iff, not_forall]
      exact ⟨lo + n, by omega, by omega, fun h => h hh⟩
    · rw [ih]
      constructor
      · intro h q h1 h2
        rcases Nat.lt_or_ge q (lo + n) with h' | h'
        · exact h q h1 h'
        · have : q = lo + n := by omega
          rw [this]; exact hh
      · exact fun h q h1 h2 => h q h1 (by omega)

/-- A header needs 4 bytes. -/
theorem HeaderAt.length_le {p : Nat} (h : HeaderAt buf p) : p + 4 ≤ buf.length := by
  have := congrArg List.length h
  simp [Config.pHdr] at this
  omega

theorem scanHeader_spec {lo n : Nat} (h : contents s = .ok buf) (hn : n = 0 ∨ lo + n + 3 ≤ buf.length) :
    scanHeader s lo n = .ok (latestHeader buf lo n) := by
  induction n with
  | zero => rfl
  | succ n ih =>
    have hr : memRead s (lo + n) Config.pHdrLen = .ok ((buf.drop (lo + n)).take 4) :=
      memRead_of_contents h (by simp [Config.pHdrLen]; omega)
    simp only [scanHeader, hr, latestHeader]
    split_ifs
    · rfl
    · exact ih (by omega)

/-- What `RESYNC(start)` leaves of the valid bytes (R90). -/
def resyncBytes (start : Nat) (buf : List Byte) : List Byte × Bool :=
  match latestHeader buf start (buf.length - 3 - start) with
  | some p => (buf.drop p, true)
  | none => (lastBytes (min 3 (buf.length - start)) buf, false)

/-- `RESYNC(start)` (R90) needs only that the valid bytes read and that the scan start is not above `FILL`. -/
theorem resync_spec {start : Nat} (h : contents s = .ok buf) (hs : start ≤ buf.length) :
    ∃ t, resync start s = .ok t ∧ contents t = .ok (resyncBytes start buf).1 ∧ t.synced = (resyncBytes start buf).2 ∧
      t.et = 0 ∧ SessionOnly s t ∧ (AccOk s → AccOk t) ∧
      (∀ a, t.fill.toNat ≤ a → Memory.read t.acc a = Memory.read s.acc a) := by
  have hl := contents_length h
  have hscan : scanHeader s start (s.fill.toNat - 3 - start) = .ok (latestHeader buf start (buf.length - 3 - start)) := by
    rw [← hl]; exact scanHeader_spec h (by omega)
  unfold resync
  rw [if_neg (by omega)]
  simp only [hscan, resyncBytes]
  cases hp : latestHeader buf start (buf.length - 3 - start) with
  | some p =>
    obtain ⟨h1, h2, h3, h4⟩ := latestHeader_eq_some.mp hp
    obtain ⟨t, e1, e2, e3, e4, e5, e6, e7, e8⟩ := moveAndSync_spec (off := p) (k := s.fill.toNat - p) true h (by omega)
    refine ⟨t, e1, ?_, e4, e5, e6, e7, fun a h => e8 a (by omega)⟩
    rw [e2, List.take_of_length_le (by simp; omega)]
  | none =>
    obtain ⟨t, e1, e2, e3, e4, e5, e6, e7, e8⟩ := moveAndSync_spec
      (off := s.fill.toNat - min 3 (s.fill.toNat - start)) (k := min 3 (s.fill.toNat - start)) false h (by omega)
    refine ⟨t, e1, ?_, e4, e5, e6, e7, fun a h => e8 a (by omega)⟩
    rw [e2, ← hl, List.take_of_length_le (by simp; omega)]
    rfl

theorem resyncBytes_length_le (start : Nat) (buf : List Byte) :
    (resyncBytes start buf).1.length ≤ buf.length - start ∨ buf.length < start := by
  unfold resyncBytes
  cases hp : latestHeader buf start (buf.length - 3 - start) with
  | some p => obtain ⟨h1, -⟩ := latestHeader_eq_some.mp hp; simp; omega
  | none => simp [lastBytes]; omega

/-- The kept bytes are a suffix of what was there, cut at or after the scan start. -/
theorem resyncBytes_suffix (start : Nat) (buf : List Byte) (hs : start ≤ buf.length) :
    ∃ k, start ≤ k ∧ k ≤ buf.length ∧ (resyncBytes start buf).1 = buf.drop k := by
  unfold resyncBytes
  cases hp : latestHeader buf start (buf.length - 3 - start) with
  | some p => obtain ⟨h1, h2, h3, -⟩ := latestHeader_eq_some.mp hp; exact ⟨p, h1, by omega, rfl⟩
  | none => exact ⟨buf.length - min 3 (buf.length - start), by omega, by omega, rfl⟩

/-- With a header kept, it is at the front; without one, at most 3 bytes are kept. -/
theorem resyncBytes_synced (start : Nat) (buf : List Byte) :
    ((resyncBytes start buf).2 = true → HeaderAt (resyncBytes start buf).1 0) ∧
    ((resyncBytes start buf).2 = false → (resyncBytes start buf).1.length ≤ 3) := by
  unfold resyncBytes
  cases hp : latestHeader buf start (buf.length - 3 - start) with
  | some p => obtain ⟨h1, h2, h3, -⟩ := latestHeader_eq_some.mp hp; simpa [HeaderAt] using h3
  | none => simp [lastBytes]; omega

end Sys2Proof.Machine
end

