-- ==== Sys2Proof/Laws/Validator.lean ====
section
/-! SUPPORT. The little-endian fields and the Frame Validator as functions of the bytes. -/

namespace Sys2Proof.Machine

variable {s : State} {buf : List Byte}

theorem le16Bytes_eq (lo hi : Byte) : le16Bytes lo hi = BitVec.ofNat 16 (lo.toNat + 256 * hi.toNat) := by
  have h : le16Bytes lo hi = hi ++ lo := by unfold le16Bytes; ext i hi; simp; grind
  rw [h]
  apply BitVec.eq_of_toNat_eq
  have h1 := lo.isLt
  have h2 := hi.isLt
  rw [BitVec.toNat_append, BitVec.toNat_ofNat, Nat.shiftLeft_eq, ← Nat.shiftLeft_eq,
    ← Nat.shiftLeft_add_eq_or_of_lt h1, Nat.shiftLeft_eq]
  omega

theorem bufByte_eq {off : Nat} (h : off < buf.length) : bufByte buf off = .ok (buf.getD off 0) := by
  simp [bufByte, List.getElem?_eq_getElem h]

theorem le16_eq {off : Nat} (h : off + 1 < buf.length) :
    le16 buf off = .ok (BitVec.ofNat 16 ((buf.getD off 0).toNat + 256 * (buf.getD (off + 1) 0).toNat)) := by
  simp only [le16, bufByte_eq h, bufByte_eq (show off < buf.length by omega), le16Bytes_eq]

theorem lengthOf_lt (buf : List Byte) : lengthOf buf < 65536 := by
  have h1 := (buf.getD 4 0).isLt
  have h2 := (buf.getD 5 0).isLt
  unfold lengthOf
  omega

theorem lengthOf_toNat (buf : List Byte) : (BitVec.ofNat 16 (lengthOf buf)).toNat = lengthOf buf := by
  rw [BitVec.toNat_ofNat]; exact Nat.mod_eq_of_lt (lengthOf_lt buf)

theorem totalSize_lengthOf (buf : List Byte) : totalSize (BitVec.ofNat 16 (lengthOf buf)) = 10 + lengthOf buf := by
  unfold totalSize; rw [lengthOf_toNat]; omega

theorem lengthOf_ofNat_eq_zero (buf : List Byte) : BitVec.ofNat 16 (lengthOf buf) = 0 ↔ lengthOf buf = 0 := by
  constructor
  · intro h; rw [← lengthOf_toNat buf, h]; rfl
  · intro h; rw [h]; rfl

/-- A longer buffer with the same first 6 bytes has the same length field. -/
theorem lengthOf_take {n : Nat} (h : 6 ≤ n) : lengthOf (buf.take n) = lengthOf buf := by
  unfold lengthOf
  simp [List.getD_eq_getElem?_getD, List.getElem?_take_of_lt (show 4 < n by omega),
    List.getElem?_take_of_lt (show 5 < n by omega)]

theorem lengthOf_append {rest : List Byte} (h : 6 ≤ buf.length) : lengthOf (buf ++ rest) = lengthOf buf := by
  unfold lengthOf
  simp [List.getD_eq_getElem?_getD, List.getElem?_append_left (show 4 < buf.length by omega),
    List.getElem?_append_left (show 5 < buf.length by omega)]

theorem validatorFields_eq (h : 10 ≤ buf.length) :
    validatorFields buf (BitVec.ofNat 16 (lengthOf buf)) = .ok (.accept (frameDecoded buf)) := by
  simp only [validatorFields, le16_eq (show 6 + 1 < buf.length by omega), le16_eq (show 8 + 1 < buf.length by omega)]
  congr 3
  unfold cmdEchoOf
  apply BitVec.eq_of_toNat_eq
  simp only [BitVec.extractLsb'_toNat, BitVec.toNat_ofNat, Nat.shiftRight_zero]
  have := (buf.getD 6 0).isLt
  omega

/-- `VALIDATE_FN` as one chain of conditions on the bytes (R80, R81). It never faults. -/
theorem validateFn_eq (buf : List Byte) : validateFn buf = .ok (
    if buf.length < 6 then .reject .invalidBufferSize
    else if lengthOf buf = 0 then .reject .invalidFrameSize
    else if 10 + lengthOf buf ≠ buf.length then .reject .invalidBufferSize
    else if ¬ HeaderAt buf 0 then .reject .invalidHeader
    else if buf.drop (buf.length - 4) ≠ Config.pFtr then .reject .invalidFooter
    else if lengthOf buf < 4 then .reject .invalidFrameSize
    else .accept (frameDecoded buf)) := by
  unfold validateFn
  by_cases h6 : buf.length < 6
  · rw [if_pos h6, if_pos h6]
  have hle : le16 buf 4 = .ok (BitVec.ofNat 16 (lengthOf buf)) := le16_eq (by omega)
  simp only [if_neg h6, hle, validatorChecks, lengthOf_ofNat_eq_zero, totalSize_lengthOf, lengthOf_toNat]
  by_cases h0 : lengthOf buf = 0
  · rw [if_pos h0, if_pos h0]
  rw [if_neg h0, if_neg h0]
  by_cases hsz : 10 + lengthOf buf ≠ buf.length
  · rw [if_pos hsz, if_pos hsz]
  have hs1 : bufSlice buf 0 4 = .ok ((buf.drop 0).take 4) := by
    unfold bufSlice; rw [if_pos ⟨by omega, by omega⟩]
  have hs2 : bufSlice buf (buf.length - 4) buf.length = .ok (buf.drop (buf.length - 4)) := by
    unfold bufSlice
    rw [if_pos ⟨by omega, le_refl _⟩, List.take_of_length_le (by simp)]
  rw [if_neg hsz, if_neg hsz]
  simp only [hs1, hs2, validatorFields_eq (show 10 ≤ buf.length by omega)]
  split_ifs <;> rfl

/-- The length field of the valid bytes, as the length decode reads it (R94). -/
theorem accLe16_spec (h : contents s = .ok buf) (h6 : 6 ≤ buf.length) :
    accLe16 s 4 = .ok (BitVec.ofNat 16 (lengthOf buf)) := by
  have hr : memRead s 4 2 = .ok ((buf.drop 4).take 2) := memRead_of_contents h (by omega)
  simp only [accLe16, hr]
  rw [le16_eq (by simp; omega)]
  simp [lengthOf, List.getD_eq_getElem?_getD, List.getElem?_drop]

end Sys2Proof.Machine
end

