-- ==== Sys2Proof/Laws/Stream.lean ====
section
/-! SUPPORT. The Stream Decoder as a function of the bytes it keeps: `Sess` is the decoder's session without `ACC`, and
`byteStep`, `finishEmission` and `runChunk` are shown to do on the block's state what `Sess` does on lists. A proof about
the stream cites these lemmas and reasons about lists only. -/

namespace Sys2Proof.Machine

/-- The session as plain lists: the valid bytes, `ET` and `SYNCED`. -/
structure Sess where
  bytes : List Byte
  et : Nat
  synced : Bool

/-- The block's state has this session. -/
structure Has (s : State) (a : Sess) : Prop where
  bytes : contents s = .ok a.bytes
  et : s.et.toNat = a.et
  synced : s.synced = a.synced

/-- I1 to I4 of R100 on a session, with `ET` the total size of the length field. -/
structure Sess.Ok (a : Sess) : Prop where
  awaiting : a.synced = false → a.bytes.length ≤ 3 ∧ a.et = 0
  header : a.synced = true → 4 ≤ a.bytes.length ∧ HeaderAt a.bytes 0
  expected : a.et ≠ 0 → a.synced = true ∧ 10 ≤ a.et ∧ a.et ≤ 154 ∧ 6 ≤ a.bytes.length ∧ a.bytes.length < a.et
  room : a.bytes.length ≤ 153
  total : a.et ≠ 0 → a.et = 10 + lengthOf a.bytes

/-- `RESYNC(start)` (R90). -/
def Sess.resync (start : Nat) (a : Sess) : Sess := ⟨(resyncBytes start a.bytes).1, 0, (resyncBytes start a.bytes).2⟩

/-- A byte step on a session, up to the sink's answer. -/
inductive SessStep where
  | ended (event : Event) (a : Sess)
  | emitting (frame : List Byte) (a : Sess)

/-- AWAIT_HEADER (R93) once the byte is appended. -/
def Sess.await (a : Sess) : Sess :=
  if a.bytes.length < 4 then a
  else if a.bytes.drop (a.bytes.length - 4) = Config.pHdr then ⟨Config.pHdr, 0, true⟩
  else ⟨lastBytes 3 a.bytes, a.et, a.synced⟩

/-- FRAME_READY (R96). -/
def Sess.ready (a : Sess) : SessStep :=
  if a.et ≠ 0 ∧ a.et ≤ a.bytes.length then
    if lastBytes 4 (a.bytes.take a.et) ≠ Config.pFtr then .ended (.error .invalidFooter) (a.resync 1)
    else if lengthOf a.bytes < 4 then .ended (.error .invalidPacket) (a.resync 1)
    else .emitting (a.bytes.take a.et) a
  else .ended .quiet a

/-- ACCUMULATE (R94 to R96) once the byte is appended. -/
def Sess.accumulate (a : Sess) : SessStep :=
  if a.et = 0 ∧ 6 ≤ a.bytes.length then
    if 154 < 10 + lengthOf a.bytes then .ended (.error .bufferTooSmall) (a.resync 1)
    else Sess.ready ⟨a.bytes, 10 + lengthOf a.bytes, a.synced⟩
  else a.ready

/-- The session with one more byte. -/
def Sess.push (b : Byte) (a : Sess) : Sess := ⟨a.bytes ++ [b], a.et, a.synced⟩

/-- `STEP(b)` (R92), up to the sink's answer. The overflow guard of R91 is left out: it never fires (R101). -/
def Sess.step (b : Byte) (a : Sess) : SessStep :=
  if a.synced then (a.push b).accumulate else .ended .quiet (a.push b).await

/-! ### Sessions and states -/

theorem Has.length {s : State} {a : Sess} (h : Has s a) : a.bytes.length = s.fill.toNat := contents_length h.bytes

theorem Has.et_ne {s : State} {a : Sess} (h : Has s a) : s.et ≠ 0 ↔ a.et ≠ 0 := by
  rw [← h.et, not_iff_not]
  exact ⟨fun e => by rw [e]; rfl, fun e => BitVec.eq_of_toNat_eq e⟩

/-- The state's invariants are its session's. -/
theorem Has.inv_iff {s : State} {a : Sess} (h : Has s a) : SessionInv s ↔ a.Ok := by
  have hl := h.length
  have hz : s.et = 0 ↔ a.et = 0 := not_iff_not.mp h.et_ne
  have h4 : 4 ≤ s.fill.toNat → memRead s 0 4 = .ok ((a.bytes.drop 0).take 4) := fun h4 =>
    memRead_of_contents h.bytes (by omega)
  constructor
  · intro i
    refine ⟨fun hs => ?_, fun hs => ?_, fun he => ?_, ?_, fun he => ?_⟩
    · have := i.awaiting (h.synced.trans hs); exact ⟨by omega, hz.mp this.2⟩
    · obtain ⟨h1, h2⟩ := i.header (h.synced.trans hs)
      refine ⟨by omega, ?_⟩
      rw [h4 h1] at h2
      exact Except.ok.inj h2
    · have := i.expected (h.et_ne.mpr he)
      rw [h.et, h.synced, ← hl] at this
      exact this
    · have := i.room; omega
    · obtain ⟨len, h1, h2⟩ := i.total (h.et_ne.mpr he)
      have h6 := (i.expected (h.et_ne.mpr he)).2.2.2.1
      rw [accLe16_spec h.bytes (by omega)] at h1
      rw [← Except.ok.inj h1, totalSize_lengthOf, h.et] at h2
      exact h2
  · intro i
    refine ⟨fun hs => ?_, fun hs => ?_, fun he => ?_, ?_, fun he => ?_⟩
    · have := i.awaiting (h.synced.symm.trans hs); exact ⟨by omega, hz.mpr this.2⟩
    · obtain ⟨h1, h2⟩ := i.header (h.synced.symm.trans hs)
      refine ⟨by omega, ?_⟩
      rw [h4 (by omega), h2]
    · have := i.expected (h.et_ne.mp he)
      rw [h.et, h.synced, ← hl]
      exact this
    · have := i.room; omega
    · have h6 := i.expected (h.et_ne.mp he)
      exact ⟨_, accLe16_spec h.bytes (by omega), by rw [totalSize_lengthOf, h.et]; exact i.total (h.et_ne.mp he)⟩

/-- Every state whose valid bytes read has a session. -/
theorem Has.of_contents {s : State} {buf : List Byte} (h : contents s = .ok buf) :
    Has s ⟨buf, s.et.toNat, s.synced⟩ := ⟨h, rfl, rfl⟩

/-- What the operations on a session leave of the state: the session they name, everything but the session as it was, and
`ACC` in form. -/
structure Reaches (s t : State) (a : Sess) : Prop where
  has : Has t a
  only : SessionOnly s t
  acc : AccOk t

theorem Reaches.trans {s t u : State} {a a' : Sess} (h : Reaches s t a) (h' : Reaches t u a') : Reaches s u a' :=
  ⟨h'.has, h.only.trans h'.only, h'.acc⟩

theorem resync_reaches {s : State} {a : Sess} {start : Nat} (h : Has s a) (ha : AccOk s)
    (hs : start ≤ a.bytes.length) :
    ∃ t, resync start s = .ok t ∧ Reaches s t (a.resync start) ∧
      ∀ x, t.fill.toNat ≤ x → Memory.read t.acc x = Memory.read s.acc x := by
  obtain ⟨t, e1, e2, e3, e4, e5, e6, e7⟩ := resync_spec h.bytes hs
  exact ⟨t, e1, ⟨⟨e2, by rw [e4]; rfl, e3⟩, e5, e6 ha⟩, e7⟩

theorem raiseErr_reaches {s : State} {a : Sess} (code : Status) (h : Has s a) (ha : AccOk s) (h1 : 1 ≤ a.bytes.length) :
    ∃ t, raiseErr code s = .ok (.error code, t) ∧ Reaches s t (a.resync 1) ∧
      ∀ x, t.fill.toNat ≤ x → Memory.read t.acc x = Memory.read s.acc x := by
  obtain ⟨t, e1, e2, e3⟩ := resync_reaches h ha h1
  exact ⟨t, by simp only [raiseErr, e1], e2, e3⟩

/-- The session after a resynchronization keeps the invariants. -/
theorem Sess.resync_ok {a : Sess} {start : Nat} (h1 : 1 ≤ start) (hs : start ≤ a.bytes.length)
    (h : a.bytes.length ≤ 154) : (a.resync start).Ok := by
  have hlen := resyncBytes_length_le start a.bytes
  obtain ⟨hsy, hun⟩ := resyncBytes_synced start a.bytes
  refine ⟨fun h => ⟨hun h, rfl⟩, fun h => ⟨?_, hsy h⟩, fun h => absurd rfl h, ?_, fun h => absurd rfl h⟩
  · have := HeaderAt.length_le (hsy h); simpa [Sess.resync] using this
  · simp only [Sess.resync]; omega

/-! ### The byte step -/

/-- What a byte step does to the state, as the session's step says. -/
def StepReaches (s : State) (r : Except Fault ByteStep) : SessStep → Prop
  | .ended ev a => ∃ t, r = .ok (.ended ev t) ∧ Reaches s t a
  | .emitting f a => ∃ t, r = .ok (.emitting (frameRecord f) t) ∧ Reaches s t a ∧ ValidFrame f ∧ f = a.bytes.take a.et

theorem awaitHeader_reaches {s : State} {a : Sess} (h : Has s a) (ha : AccOk s) :
    ∃ t, awaitHeader s = .ok (.quiet, t) ∧ Reaches s t a.await := by
  have hl := h.length
  unfold awaitHeader Sess.await
  rw [← hl]
  by_cases h4 : a.bytes.length < 4
  · rw [if_pos h4, if_pos h4]; exact ⟨s, rfl, h, SessionOnly.refl, ha⟩
  rw [if_neg h4, if_neg h4]
  have hr : memRead s (a.bytes.length - 4) 4 = .ok (a.bytes.drop (a.bytes.length - 4)) := by
    rw [memRead_of_contents h.bytes (by omega), List.take_of_length_le (by simp; omega)]
  simp only [hr]
  by_cases hh : a.bytes.drop (a.bytes.length - 4) = Config.pHdr
  · rw [if_pos hh, if_pos hh]
    obtain ⟨t, e1, e2, -, e4, e5, e6, e7, -⟩ := moveAndSync_spec (off := a.bytes.length - 4) (k := 4) true h.bytes
      (by omega)
    refine ⟨t, by simp only [e1], ⟨?_, by rw [e5]; rfl, e4⟩, e6, e7 ha⟩
    rw [e2, List.take_of_length_le (by simp; omega), hh]
  · rw [if_neg hh, if_neg hh]
    obtain ⟨t, e1, e2, e3, e4, e5, -⟩ := moveToFront_spec (off := a.bytes.length - 3) (k := 3) h.bytes (by omega)
    refine ⟨t, by simp only [e1], ⟨?_, by rw [e4]; exact h.et, by rw [e4]; exact h.synced⟩, ?_, e5 ha⟩
    · rw [e2, List.take_of_length_le (by simp; omega)]; rfl
    · rw [e4]; rfl

/-- What an accumulating session knows of its bytes when a test of FRAME_READY runs. -/
structure Sess.Testing (a : Sess) : Prop where
  header : HeaderAt a.bytes 0
  room : a.bytes.length ≤ 154
  expected : a.et ≠ 0 → 10 ≤ a.et ∧ a.et ≤ 154 ∧ 6 ≤ a.bytes.length ∧ a.et = 10 + lengthOf a.bytes

theorem validFrame_take {a : Sess} (h : a.Testing) (he : a.et ≠ 0) (hr : a.et ≤ a.bytes.length)
    (hf : lastBytes 4 (a.bytes.take a.et) = Config.pFtr) (hl : ¬ lengthOf a.bytes < 4) :
    ValidFrame (a.bytes.take a.et) := by
  obtain ⟨h1, h2, h3, h4⟩ := h.expected he
  have hlen : (a.bytes.take a.et).length = a.et := by simp; omega
  refine ⟨by omega, ?_, ?_, ?_, hf⟩
  · have := h.header
    simp only [HeaderAt, List.drop_zero] at this ⊢
    rw [List.take_take, Nat.min_eq_left (by omega)]; exact this
  · rw [lengthOf_take (by omega)]; omega
  · rw [lengthOf_take (by omega)]; omega

theorem frameReady_reaches {s : State} {a : Sess} (h : Has s a) (ha : AccOk s) (ht : a.Testing) :
    StepReaches s (frameReady s) a.ready := by
  have hl := h.length
  have hcond : frameIsReady s = true ↔ a.et ≠ 0 ∧ a.et ≤ a.bytes.length := by
    unfold frameIsReady
    rw [Bool.and_eq_true, decide_eq_true_eq, bne_iff_ne, h.et_ne, h.et, hl]
  unfold frameReady Sess.ready
  by_cases hc : a.et ≠ 0 ∧ a.et ≤ a.bytes.length
  · rw [if_pos (hcond.mpr hc), if_pos hc]
    obtain ⟨h1, h2, h3, h4⟩ := ht.expected hc.1
    have hlen : (a.bytes.take a.et).length = a.et := by simp; omega
    have hfoot : readFooter s s.et.toNat = .ok (lastBytes 4 (a.bytes.take a.et)) := by
      unfold readFooter Config.pFtrLen lastBytes
      rw [h.et, if_neg (by omega), memRead_of_contents h.bytes (by omega), hlen, List.drop_take]
      congr 2; omega
    have hframe : memRead s 0 s.et.toNat = .ok (a.bytes.take a.et) := by
      rw [h.et, memRead_of_contents h.bytes (by omega), List.drop_zero]
    simp only [hfoot]
    by_cases hf : lastBytes 4 (a.bytes.take a.et) ≠ Config.pFtr
    · rw [if_pos hf, if_pos hf]
      obtain ⟨t, e1, e2, -⟩ := raiseErr_reaches .invalidFooter h ha (by omega)
      exact ⟨t, by simp only [e1, endStep], e2⟩
    rw [if_neg hf, if_neg hf]
    rw [not_not] at hf
    have hv := validateFn_eq (a.bytes.take a.et)
    rw [lengthOf_take (by omega), hlen] at hv
    by_cases hl4 : lengthOf a.bytes < 4
    · rw [if_pos hl4]
      obtain ⟨code, hrej⟩ : ∃ code, validateFn (a.bytes.take a.et) = .ok (.reject code) := by
        rw [hv]; split_ifs <;> exact ⟨_, rfl⟩
      simp only [hframe, hrej]
      obtain ⟨t, e1, e2, -⟩ := raiseErr_reaches .invalidPacket h ha (by omega)
      exact ⟨t, by simp only [e1, endStep], e2⟩
    · rw [if_neg hl4]
      have hvf := validFrame_take ht hc.1 hc.2 hf hl4
      have hfoot' := hvf.2.2.2.2
      rw [hlen] at hfoot'
      rw [if_neg (by omega), if_neg (by omega), if_neg (by omega), if_neg (not_not.mpr hvf.2.1),
        if_neg (not_not.mpr hfoot'), if_neg hl4] at hv
      have hb : s.et = BitVec.ofNat 8 (a.bytes.take a.et).length := by
        apply BitVec.eq_of_toNat_eq; rw [hlen, h.et, ofNat8_toNat (by omega)]
      simp only [hframe, hv]
      exact ⟨s, by simp only [frameRecord, ← hb], ⟨h, SessionOnly.refl, ha⟩, hvf, rfl⟩
  · rw [if_neg (fun hh => hc (hcond.mp hh)), if_neg hc]
    exact ⟨s, rfl, h, SessionOnly.refl, ha⟩

theorem accumulate_reaches {s : State} {a : Sess} (h : Has s a) (ha : AccOk s) (ht : a.Testing) :
    StepReaches s (accumulate s) a.accumulate := by
  have hl := h.length
  have hz : s.et = 0 ↔ a.et = 0 := not_iff_not.mp h.et_ne
  unfold accumulate Sess.accumulate
  by_cases hc : a.et = 0 ∧ 6 ≤ a.bytes.length
  · rw [if_pos ⟨hz.mpr hc.1, by omega⟩, if_pos hc]
    simp only [accLe16_spec h.bytes hc.2, totalSize_lengthOf, Config.pCap, Config.pMaxTotal, or_self]
    by_cases hbig : 154 < 10 + lengthOf a.bytes
    · rw [if_pos hbig, if_pos hbig]
      obtain ⟨t, e1, e2, -⟩ := raiseErr_reaches .bufferTooSmall h ha (by omega)
      exact ⟨t, by simp only [e1, endStep], e2⟩
    · rw [if_neg hbig, if_neg hbig]
      have h' : Has (setEt (10 + lengthOf a.bytes) s) ⟨a.bytes, 10 + lengthOf a.bytes, a.synced⟩ :=
        ⟨h.bytes, by rw [setEt_et, ofNat8_toNat (by omega)], h.synced⟩
      have hgo := frameReady_reaches h' ⟨ha.form, ha.range⟩ ⟨ht.header, ht.room, fun _ => ⟨by simp only; omega,
        by simp only; omega, hc.2, rfl⟩⟩
      have honly : SessionOnly s (setEt (10 + lengthOf a.bytes) s) := rfl
      generalize Sess.ready ⟨a.bytes, 10 + lengthOf a.bytes, a.synced⟩ = r at hgo
      cases r with
      | ended ev a' => obtain ⟨t, e1, e2⟩ := hgo; exact ⟨t, e1, e2.has, honly.trans e2.only, e2.acc⟩
      | emitting f a' => obtain ⟨t, e1, e2, e3⟩ := hgo; exact ⟨t, e1, ⟨e2.has, honly.trans e2.only, e2.acc⟩, e3⟩
  · rw [if_neg (fun hh => hc ⟨hz.mp hh.1, by omega⟩), if_neg hc]
    exact frameReady_reaches h ha ht

/-- The guard of R91 does nothing where there is room (R101). -/
theorem overflowGuard_room {s : State} (h : s.fill.toNat ≤ 153) : overflowGuard s = .ok (none, s) := by
  unfold overflowGuard Config.pCap; rw [if_neg (by omega)]

/-- A header stays at the front when a byte is appended. -/
theorem HeaderAt.append {buf rest : List Byte} {p : Nat} (h : HeaderAt buf p) : HeaderAt (buf ++ rest) p := by
  have hl := h.length_le
  simp only [HeaderAt] at h ⊢
  rw [List.drop_append_of_le_length (by omega), List.take_append_of_le_length (by simp; omega), h]

theorem Sess.push_testing {a : Sess} (b : Byte) (h : a.Ok) (hs : a.synced = true) : (a.push b).Testing := by
  refine ⟨(h.header hs).2.append, ?_, fun he => ?_⟩
  · have := h.room; simp [Sess.push]; omega
  · obtain ⟨-, h2, h3, h4, -⟩ := h.expected he
    refine ⟨h2, h3, ?_, ?_⟩
    · simp [Sess.push]; omega
    · simp only [Sess.push]; rw [lengthOf_append h4]; exact h.total he

/-- `STEP(b)` (R92) does to the block what it does to its session. -/
theorem byteStep_reaches {s : State} {a : Sess} (b : Byte) (h : Has s a) (ha : AccOk s) (hok : a.Ok) :
    StepReaches s (byteStep b s) (a.step b) := by
  have hl := h.length
  have hroom : s.fill.toNat ≤ 153 := by have := hok.room; omega
  obtain ⟨t, e1, e2, e3, e4, e5⟩ := appendByte_spec b h.bytes hroom
  replace e5 := e5 ha
  have hp : Has t (a.push b) := ⟨e2, by rw [e4]; exact h.et, by rw [e4]; exact h.synced⟩
  have hsy : t.synced = a.synced := hp.synced
  have honly : SessionOnly s t := by unfold SessionOnly; rw [e4]
  simp only [byteStep, overflowGuard_room hroom, processByte, e1, accumulating, hsy, Sess.step]
  by_cases hs : a.synced = true
  · rw [if_pos hs, if_pos hs]
    have hgo := accumulate_reaches hp e5 (Sess.push_testing b hok hs)
    generalize (a.push b).accumulate = r at hgo
    cases r with
    | ended ev a' => obtain ⟨u, f1, f2⟩ := hgo; exact ⟨u, f1, f2.has, honly.trans f2.only, f2.acc⟩
    | emitting f a' => obtain ⟨u, f1, f2, f3⟩ := hgo; exact ⟨u, f1, ⟨f2.has, honly.trans f2.only, f2.acc⟩, f3⟩
  · rw [if_neg hs, if_neg hs]
    obtain ⟨u, f1, f2⟩ := awaitHeader_reaches hp e5
    exact ⟨u, by simp only [f1, endStep], f2.has, honly.trans f2.only, f2.acc⟩

/-! ### The byte step on a session: what it can do -/

/-- The invariants after a step that ended, and what is known where a record is presented (R100). -/
def StepOk (a : Sess) (b : Byte) : SessStep → Prop
  | .ended ev a' => a'.Ok ∧ FeedStatus (eventStatus ev) ∧ (∀ ans, ev ≠ .emission ans) ∧
      ∃ k, k ≤ (a.bytes ++ [b]).length ∧ a'.bytes = (a.bytes ++ [b]).drop k
  | .emitting f a' => a'.bytes = a.bytes ++ [b] ∧ a'.synced = true ∧ 14 ≤ a'.et ∧ a'.et ≤ a'.bytes.length ∧
      a'.bytes.length ≤ 154 ∧ f = a'.bytes.take a'.et ∧ ValidFrame f

theorem Sess.resync_suffix {a : Sess} {start : Nat} (hs : start ≤ a.bytes.length) :
    ∃ k, start ≤ k ∧ k ≤ a.bytes.length ∧ (a.resync start).bytes = a.bytes.drop k :=
  resyncBytes_suffix start a.bytes hs

theorem Sess.ready_ok {a : Sess} {pre : Sess} {b : Byte} (hb : a.bytes = pre.bytes ++ [b]) (hs : a.synced = true)
    (h4 : 4 ≤ a.bytes.length) (ht : a.Testing) (hno : a.et = 0 → a.bytes.length ≤ 5) : StepOk pre b a.ready := by
  unfold Sess.ready
  have hres : (a.resync 1).Ok ∧ ∃ k, k ≤ (pre.bytes ++ [b]).length ∧ (a.resync 1).bytes = (pre.bytes ++ [b]).drop k := by
    refine ⟨Sess.resync_ok (le_refl _) (by omega) ht.room, ?_⟩
    obtain ⟨k, -, h2, h3⟩ := Sess.resync_suffix (a := a) (start := 1) (by omega)
    rw [← hb]; exact ⟨k, h2, h3⟩
  split_ifs with hc hf hl
  · exact ⟨hres.1, by decide, by simp, hres.2⟩
  · exact ⟨hres.1, by decide, by simp, hres.2⟩
  · have hvf := validFrame_take ht hc.1 hc.2 (not_not.mp hf) hl
    have hex := ht.expected hc.1
    exact ⟨hb, hs, by omega, hc.2, ht.room, rfl, hvf⟩
  · refine ⟨⟨fun h => absurd hs (by simp [h]), fun _ => ⟨h4, ht.header⟩, fun he => ?_, ?_, fun he => ?_⟩, by decide,
      by simp, 0, by omega, by simp [hb]⟩
    · obtain ⟨h1, h2, h3, -⟩ := ht.expected he
      exact ⟨hs, h1, h2, h3, by omega⟩
    · by_cases he : a.et = 0
      · have := hno he; omega
      · have := ht.expected he; omega
    · exact (ht.expected he).2.2.2

theorem Sess.step_ok {a : Sess} (b : Byte) (h : a.Ok) : StepOk a b (a.step b) := by
  unfold Sess.step
  by_cases hs : a.synced = true
  · rw [if_pos hs]
    have ht := Sess.push_testing b h hs
    have h4 := (h.header hs).1
    have hlen : (a.push b).bytes.length = a.bytes.length + 1 := by simp [Sess.push]
    unfold Sess.accumulate
    split_ifs with hc hbig
    · refine ⟨Sess.resync_ok (le_refl _) (by omega) ht.room, by decide, by simp, ?_⟩
      obtain ⟨k, -, h2, h3⟩ := Sess.resync_suffix (a := a.push b) (start := 1) (by omega)
      exact ⟨k, h2, h3⟩
    · exact Sess.ready_ok rfl hs (by simp only; omega) ⟨ht.header, ht.room, fun _ =>
        ⟨by simp only; omega, by simp only; omega, hc.2, rfl⟩⟩ (fun h0 => by simp only at h0; omega)
    · exact Sess.ready_ok rfl hs (by omega) ht (fun h0 => by
        have : ¬ 6 ≤ (a.push b).bytes.length := fun h6 => hc ⟨h0, h6⟩
        omega)
  · rw [if_neg hs]
    obtain ⟨h3, het⟩ := h.awaiting (by simpa using hs)
    have hlen : (a.push b).bytes.length = a.bytes.length + 1 := by simp [Sess.push]
    have hs' : a.synced = false := by simpa using hs
    unfold Sess.await
    split_ifs with h4 hh
    · refine ⟨⟨fun _ => ⟨by omega, het⟩, fun hc => absurd hc (by simp [Sess.push, hs']), fun hc => absurd het hc,
        by omega, fun hc => absurd het hc⟩, by decide, by simp, 0, by simp, rfl⟩
    · refine ⟨⟨by simp, fun _ => ⟨by simp [Config.pHdr], by decide⟩, by simp, by simp [Config.pHdr], by simp⟩,
        by decide, by simp, (a.push b).bytes.length - 4, ?_, hh.symm⟩
      have : (a.bytes ++ [b]).length = (a.push b).bytes.length := rfl
      omega
    · refine ⟨⟨fun _ => ⟨?_, het⟩, fun hc => absurd hc (by simp [Sess.push, hs']), fun hc => absurd het hc, ?_,
        fun hc => absurd het hc⟩, by decide, by simp, (a.push b).bytes.length - 3, ?_, rfl⟩
      · simp only [lastBytes, List.length_drop]; omega
      · simp only [lastBytes, List.length_drop]; omega
      · have : (a.bytes ++ [b]).length = (a.push b).bytes.length := rfl
        omega

end Sys2Proof.Machine
end

