-- ==== Sys2Proof/Laws/Run.lean ====
section
/-! SUPPORT. The loop of FEED and FEEDN as a function of the session: `Sess.run` is `runChunk` on lists. -/

namespace Sys2Proof.Machine

/-- Where a run of the loop ends: the session, the operation and the record it is held with (none when it has responded),
the answers left, and what it put on the ports. -/
structure RunEnd where
  sess : Sess
  op : Option Operation
  port : Option SinkRecord
  answers : List (BitVec 1)
  outs : List PortEvent

/-- The loop responds and ends. -/
def RunEnd.responded (o : Operation) (a : Sess) (answers : List (BitVec 1)) : RunEnd :=
  ⟨a, none, none, answers, [.response [rsp0 o.consumed o.firstErr]]⟩

/-- The same end, with one more output before its outputs. -/
def RunEnd.after (e : PortEvent) (r : RunEnd) : RunEnd := { r with outs := e :: r.outs }

/-- The loop of R99 on a session. -/
def Sess.run : List Byte → Operation → Sess → List (BitVec 1) → RunEnd
  | [], o, a, ans => .responded o a ans
  | b :: rest, o, a, ans =>
    if o.stop then .responded o a ans
    else
      match a.step b with
      | .ended ev a' => Sess.run rest (countEvent ev o) a' ans
      | .emitting f a' =>
        match ans with
        | [] => ⟨a', some o, some (frameRecord f), [], [.emission (frameRecord f)]⟩
        | bit :: bits =>
          .after (.emission (frameRecord f))
            (Sess.run rest (countEvent (.emission (answerOfBit bit)) o) (a'.resync a'.et) bits)

theorem finishEmission_reaches {s : State} {a : Sess} (bits : List (BitVec 1)) (h : Has s a) (ha : AccOk s)
    (hs : a.et ≤ a.bytes.length) :
    ∃ t, finishEmission bits s = .ok t ∧ Reaches (takeAnswer bits s) t (a.resync a.et) := by
  have h' : Has (takeAnswer bits s) a := ⟨h.bytes, h.et, h.synced⟩
  obtain ⟨t, e1, e2, -⟩ := resync_reaches h' (a := a) (start := a.et) ⟨ha.form, ha.range⟩ hs
  exact ⟨t, by unfold finishEmission; rw [h.et]; exact e1, e2⟩

/-- The state a run of the loop leaves. -/
def endState (s t : State) (r : RunEnd) : State :=
  { s with
    acc := t.acc, fill := t.fill, et := t.et, synced := t.synced
    op := r.op, sinkPort := r.port, answers := r.answers, out := s.out ++ r.outs }

theorem runChunk_reaches (bs : List Byte) (o : Operation) {s : State} {a : Sess} (h : Has s a) (ha : AccOk s)
    (hok : a.Ok) (hop : s.op = none) (hport : s.sinkPort = none) :
    ∃ t, runChunk bs o s = .ok t ∧ Has t (Sess.run bs o a s.answers).sess ∧ AccOk t ∧
      t = endState s t (Sess.run bs o a s.answers) := by
  induction bs generalizing o s a with
  | nil =>
    refine ⟨respondFeed o s, rfl, ⟨h.bytes, h.et, h.synced⟩, ⟨ha.form, ha.range⟩, ?_⟩
    simp only [Sess.run, RunEnd.responded, endState, ← hop, ← hport]; rfl
  | cons b rest ih =>
    unfold runChunk Sess.run
    by_cases hst : o.stop = true
    · rw [if_pos hst, if_pos hst]
      refine ⟨respondFeed o s, rfl, ⟨h.bytes, h.et, h.synced⟩, ⟨ha.form, ha.range⟩, ?_⟩
      simp only [RunEnd.responded, endState, ← hop, ← hport]; rfl
    rw [if_neg hst, if_neg hst]
    have hgo := byteStep_reaches b h ha hok
    have hso := Sess.step_ok b hok
    generalize a.step b = st at hgo hso
    cases st with
    | ended ev a' =>
      obtain ⟨t, e1, e2⟩ := hgo
      obtain ⟨f1, f2, f3, f4, f5, f6, f7, f8⟩ := e2.only.frame
      obtain ⟨u, g1, g2, g3, g4⟩ := ih (countEvent ev o) e2.has e2.acc hso.1 (f1.trans hop) (f2.trans hport)
      rw [f6] at g2 g4
      refine ⟨u, by simp only [e1, g1], g2, g3, ?_⟩
      rw [g4]
      simp only [endState, f3, f4, f5, f7, f8]
    | emitting f a' =>
      obtain ⟨t, e1, e2, -⟩ := hgo
      obtain ⟨-, -, h14, hle, hle', -⟩ := hso
      obtain ⟨f1, f2, f3, f4, f5, f6, f7, f8⟩ := e2.only.frame
      simp only [e1, presentRecord_answers, f6]
      cases hans : s.answers with
      | nil =>
        refine ⟨holdOperation o (presentRecord (frameRecord f) t), rfl, ⟨e2.has.bytes, e2.has.et, e2.has.synced⟩,
          ⟨e2.acc.form, e2.acc.range⟩, ?_⟩
        simp only [endState, holdOperation, presentRecord, f3, f4, f5, f6, f7, f8, hans]
      | cons bit bits =>
        have hp : Has (presentRecord (frameRecord f) t) a' := ⟨e2.has.bytes, e2.has.et, e2.has.synced⟩
        obtain ⟨u, g1, g2⟩ := finishEmission_reaches bits hp ⟨e2.acc.form, e2.acc.range⟩ hle
        obtain ⟨k1, k2, k3, k4, k5, k6, k7, k8⟩ := g2.only.frame
        have hr : (a'.resync a'.et).Ok := Sess.resync_ok (by omega) hle hle'
        obtain ⟨v, m1, m2, m3, m4⟩ := ih (countEvent (.emission (answerOfBit bit)) o) g2.has g2.acc hr k1 k2
        rw [k6] at m2 m4
        refine ⟨v, by simp only [g1, m1], m2, m3, ?_⟩
        rw [m4]
        simp only [endState, RunEnd.after, k3, k4, k5, k7, k8, takeAnswer_misuse, presentRecord_misuse, takeAnswer_params, takeAnswer_sinkPresent,
          takeAnswer_cmdPort, takeAnswer_out, takeAnswer_answers, presentRecord_params, presentRecord_sinkPresent,
          presentRecord_cmdPort, presentRecord_out, f3, f4, f5, f7, f8, List.append_assoc, List.cons_append,
          List.nil_append]

/-- What holds where a run of the loop ends: between operations the session's invariants, and in a hold what `HoldInv`
says. -/
structure RunEnd.Ok (o : Operation) (r : RunEnd) : Prop where
  idle : r.op = none → r.port = none ∧ r.sess.Ok
  held : ∀ o', r.op = some o' → r.answers = [] ∧ r.sess.synced = true ∧ 14 ≤ r.sess.et ∧
    r.sess.et ≤ r.sess.bytes.length ∧ r.sess.bytes.length ≤ 154 ∧
    (∃ f, f = r.sess.bytes.take r.sess.et ∧ ValidFrame f ∧ r.port = some (frameRecord f)) ∧
    o'.stop = false ∧ o'.chunk = o.chunk ∧ FeedStatus o'.firstErr ∧ o'.consumed.toNat < o.chunk.length

theorem countEvent_consumed_toNat {ev : Event} {o : Operation} (h : o.consumed.toNat < 255) :
    (countEvent ev o).consumed.toNat = o.consumed.toNat + 1 := by
  simp only [countEvent_consumed, BitVec.toNat_add]
  have : (1 : BitVec 8).toNat = 1 := rfl
  omega

theorem countEvent_feedStatus {ev : Event} {o : Operation} (h : FeedStatus o.firstErr)
    (h' : FeedStatus (eventStatus ev)) : FeedStatus (countEvent ev o).firstErr := by
  simp only [countEvent_firstErr]; split_ifs
  · exact h'
  · exact h

theorem Sess.run_ok (bs : List Byte) (o : Operation) (a : Sess) (ans : List (BitVec 1)) (hok : a.Ok)
    (hfe : FeedStatus o.firstErr) (hlen : o.chunk.length ≤ 255) (hc : o.consumed.toNat + bs.length = o.chunk.length) :
    (Sess.run bs o a ans).Ok o := by
  induction bs generalizing o a ans with
  | nil => exact ⟨fun _ => ⟨rfl, hok⟩, fun _ h => by simp [Sess.run, RunEnd.responded] at h⟩
  | cons b rest ih =>
    unfold Sess.run
    by_cases hst : o.stop = true
    · rw [if_pos hst]; exact ⟨fun _ => ⟨rfl, hok⟩, fun _ h => by simp [RunEnd.responded] at h⟩
    rw [if_neg hst]
    simp only [List.length_cons] at hc
    have hso := Sess.step_ok b hok
    generalize a.step b = st at hso
    cases st with
    | ended ev a' =>
      have := ih (countEvent ev o) a' ans hso.1 (countEvent_feedStatus hfe hso.2.1) hlen
        (by rw [countEvent_consumed_toNat (by omega), countEvent_chunk]; omega)
      exact ⟨this.idle, this.held⟩
    | emitting f a' =>
      obtain ⟨h1, h2, h3, h4, h5, h6, h7⟩ := hso
      cases ans with
      | nil =>
        refine ⟨fun h => by simp at h, fun o' h => ?_⟩
        simp only [Option.some.injEq] at h
        subst h
        exact ⟨rfl, h2, h3, h4, h5, ⟨f, h6, h7, rfl⟩, by simpa using hst, rfl, hfe, by omega⟩
      | cons bit bits =>
        have := ih (countEvent (.emission (answerOfBit bit)) o) (a'.resync a'.et) bits
          (Sess.resync_ok (by omega) h4 h5) (countEvent_feedStatus hfe (by left; rfl)) hlen
          (by rw [countEvent_consumed_toNat (by omega), countEvent_chunk]; omega)
        exact ⟨this.idle, this.held⟩

/-! ### From runs to states -/

theorem Inv.accOk {s : State} (h : Inv s) : AccOk s := ⟨h.form, h.range⟩

/-- An idle state with the invariant has a session that keeps I1 to I4. -/
theorem Inv.session {s : State} (h : Inv s) (hi : Idle s) :
    ∃ a, Has s a ∧ a.Ok ∧ a.et = s.et.toNat ∧ a.synced = s.synced := by
  obtain ⟨buf, hb⟩ := h.readable
  exact ⟨_, .of_contents hb, (Has.of_contents hb).inv_iff.mp (h.idle hi).2, rfl, rfl⟩

/-- The state a run leaves keeps the invariant. -/
theorem Inv.of_run {s t : State} {r : RunEnd} {o : Operation} (hh : Has t r.sess) (ha : AccOk t)
    (ht : t = endState s t r) (hr : r.Ok o) (hlen : o.chunk.length ≤ 255) : Inv t := by
  have hop : t.op = r.op := by rw [ht]; rfl
  have hport : t.sinkPort = r.port := by rw [ht]; rfl
  refine ⟨ha.form, ha.range, ⟨_, hh.bytes⟩, fun hi => ?_, fun o' ho => ?_⟩
  · obtain ⟨h1, h2⟩ := hr.idle (hop.symm.trans hi)
    exact ⟨hport.trans h1, hh.inv_iff.mpr h2⟩
  · obtain ⟨-, h2, h3, h4, h5, ⟨f, h6, h7, h8⟩, h9, h10, h11, h12⟩ := hr.held o' (hop.symm.trans ho)
    have hl := hh.length
    refine ⟨hh.synced.trans h2, ⟨by rw [hh.et]; exact h3, by rw [hh.et]; omega, by omega⟩,
      ⟨f, ?_, h7, hport.trans h8⟩, ⟨h9, by rw [h10]; exact h12, by rw [h10]; exact hlen⟩, h11⟩
    rw [h6, hh.et, memRead_of_contents hh.bytes (by omega), List.drop_zero]

/-- FEED and FEEDN on their operand buffer: the run of the session from the start of an operation. -/
theorem feedBytes_reaches (chunk : List Byte) {s : State} {a : Sess} (h : Has s a) (ha : AccOk s) (hok : a.Ok)
    (hop : s.op = none) (hport : s.sinkPort = none) :
    ∃ t, feedBytes chunk s = .ok t ∧ Has t (Sess.run chunk (startOperation chunk) a s.answers).sess ∧ AccOk t ∧
      t = endState s t (Sess.run chunk (startOperation chunk) a s.answers) :=
  runChunk_reaches chunk (startOperation chunk) h ha hok hop hport

theorem feedBytes_inv (chunk : List Byte) {s : State} (h : Inv s) (hi : Idle s) (hlen : chunk.length ≤ 255) :
    ∃ t, feedBytes chunk s = .ok t ∧ Inv t := by
  obtain ⟨a, h1, h2, -⟩ := h.session hi
  obtain ⟨t, e1, e2, e3, e4⟩ := feedBytes_reaches chunk h1 h.accOk h2 hi (h.idle hi).1
  exact ⟨t, e1, .of_run e2 e3 e4 (Sess.run_ok chunk _ a _ h2 (.inl rfl) hlen (by simp [startOperation])) hlen⟩

end Sys2Proof.Machine
end

