-- ==== Sys2Proof/Laws/Check.lean ====
section
/-! SUPPORT. A check that a concrete idle state keeps the invariant, for witnesses. -/

namespace Sys2Proof.Machine

/-- I1 to I4 of R100 on a session, as a check. -/
def Sess.check (a : Sess) : Bool :=
  (a.synced || (decide (a.bytes.length ≤ 3) && decide (a.et = 0))) &&
  (!a.synced || (decide (4 ≤ a.bytes.length) && decide (HeaderAt a.bytes 0))) &&
  (decide (a.et = 0) || (a.synced && decide (10 ≤ a.et ∧ a.et ≤ 154 ∧ 6 ≤ a.bytes.length ∧ a.bytes.length < a.et) &&
    decide (a.et = 10 + lengthOf a.bytes))) &&
  decide (a.bytes.length ≤ 153)

theorem Sess.ok_of_check {a : Sess} (h : a.check = true) : a.Ok := by
  simp only [Sess.check, Bool.and_eq_true, Bool.or_eq_true, Bool.not_eq_true', decide_eq_true_eq] at h
  obtain ⟨⟨⟨h1, h2⟩, h3⟩, h4⟩ := h
  refine ⟨fun hs => ?_, fun hs => ?_, fun he => ?_, h4, fun he => ?_⟩
  · rcases h1 with h | h
    · simp [h] at hs
    · exact h
  · rcases h2 with h | h
    · simp [h] at hs
    · exact h
  · rcases h3 with h | h
    · exact absurd h he
    · exact ⟨h.1.1, h.1.2⟩
  · rcases h3 with h | h
    · exact absurd h he
    · exact h.2

/-- An idle state that keeps the invariant, as a check. -/
def idleCheck (s : State) : Bool :=
  s.op.isNone && s.sinkPort.isNone && Memory.wf s.acc && s.acc.all (fun d => decide (d.1 < 154)) &&
    match contents s with
    | .ok buf => Sess.check ⟨buf, s.et.toNat, s.synced⟩
    | .error _ => false

theorem inv_of_idleCheck {s : State} (h : idleCheck s = true) : Inv s ∧ Idle s := by
  simp only [idleCheck, Bool.and_eq_true, Option.isNone_iff_eq_none, List.all_eq_true, decide_eq_true_eq] at h
  obtain ⟨⟨⟨⟨h1, h2⟩, h3⟩, h4⟩, h5⟩ := h
  cases hc : contents s with
  | error f => rw [hc] at h5; simp at h5
  | ok buf =>
    rw [hc] at h5
    refine ⟨⟨h3, h4, ⟨buf, hc⟩, fun _ => ⟨h2, (Has.of_contents hc).inv_iff.mpr (Sess.ok_of_check h5)⟩, fun o ho => ?_⟩, h1⟩
    rw [h1] at ho; cases ho

/-- The same, of a state that also has a sink. -/
theorem ready_of_idleCheck {s : State} (h : idleCheck s = true) (hs : s.sinkPresent = true) : Ready s :=
  ⟨(inv_of_idleCheck h).1, (inv_of_idleCheck h).2, hs⟩

end Sys2Proof.Machine
end

