-- ==== Sys2Proof/Laws/Outer.lean ====
section
/-! SUPPORT. The byte step neither reads nor writes anything outside the session: run with other host inputs, outputs and
working values, it does the same and leaves those as they were. -/

namespace Sys2Proof.Machine

/-- The session of `s` with everything else of `u`. -/
def outer (u s : State) : State :=
  { u with acc := s.acc, fill := s.fill, et := s.et, synced := s.synced }

/-- A byte step's result with its state changed. -/
def ByteStep.onState (f : State → State) : ByteStep → ByteStep
  | .ended ev s => .ended ev (f s)
  | .emitting r s => .emitting r (f s)

variable (u s : State)

@[simp] theorem outer_acc : (outer u s).acc = s.acc := rfl
@[simp] theorem outer_fill : (outer u s).fill = s.fill := rfl
@[simp] theorem outer_et : (outer u s).et = s.et := rfl
@[simp] theorem outer_synced : (outer u s).synced = s.synced := rfl
@[simp] theorem outer_op : (outer u s).op = u.op := rfl
@[simp] theorem outer_sinkPort : (outer u s).sinkPort = u.sinkPort := rfl
@[simp] theorem outer_params : (outer u s).params = u.params := rfl
@[simp] theorem outer_sinkPresent : (outer u s).sinkPresent = u.sinkPresent := rfl
@[simp] theorem outer_cmdPort : (outer u s).cmdPort = u.cmdPort := rfl
@[simp] theorem outer_answers : (outer u s).answers = u.answers := rfl
@[simp] theorem outer_out : (outer u s).out = u.out := rfl
@[simp] theorem outer_misuse : (outer u s).misuse = u.misuse := rfl
theorem outer_self : outer s s = s := rfl
theorem sessionOnly_iff_outer {s t : State} : SessionOnly s t ↔ t = outer s t := Iff.rfl

theorem memRead_outer (off n : Nat) : memRead (outer u s) off n = memRead s off n := rfl

theorem memWrite_outer (off : Nat) (v : List Byte) :
    memWrite (outer u s) off v = (memWrite s off v).map (outer u) := by
  unfold memWrite; split_ifs <;> rfl

theorem readFooter_outer (e : Nat) : readFooter (outer u s) e = readFooter s e := rfl

theorem accLe16_outer (off : Nat) : accLe16 (outer u s) off = accLe16 s off := rfl

theorem scanHeader_outer (lo n : Nat) : scanHeader (outer u s) lo n = scanHeader s lo n := by
  induction n with
  | zero => rfl
  | succ n ih => simp only [scanHeader, memRead_outer, ih]

theorem appendByte_outer (b : Byte) : appendByte b (outer u s) = (appendByte b s).map (outer u) := by
  simp only [appendByte, memWrite_outer, outer_fill]
  cases memWrite s s.fill.toNat [b] <;> rfl

theorem moveToFront_outer (off k : Nat) : moveToFront off k (outer u s) = (moveToFront off k s).map (outer u) := by
  simp only [moveToFront, memRead_outer]
  cases memRead s off k with
  | error f => rfl
  | ok v => simp only [memWrite_outer]; cases memWrite s 0 v <;> rfl

theorem moveAndSync_outer (off k : Nat) (flag : Bool) :
    moveAndSync off k flag (outer u s) = (moveAndSync off k flag s).map (outer u) := by
  simp only [moveAndSync, moveToFront_outer]
  cases moveToFront off k s <;> rfl

theorem resync_outer (start : Nat) : resync start (outer u s) = (resync start s).map (outer u) := by
  simp only [resync, outer_fill, scanHeader_outer]
  split_ifs
  · rfl
  · cases scanHeader s start (s.fill.toNat - 3 - start) with
    | error f => rfl
    | ok o => cases o <;> exact moveAndSync_outer ..

theorem raiseErr_outer (code : Status) :
    raiseErr code (outer u s) = (raiseErr code s).map (fun p => (p.1, outer u p.2)) := by
  simp only [raiseErr, resync_outer]
  cases resync 1 s <;> rfl

theorem overflowGuard_outer :
    overflowGuard (outer u s) = (overflowGuard s).map (fun p => (p.1, outer u p.2)) := by
  simp only [overflowGuard, outer_fill, resync_outer]
  by_cases h0 : s.fill.toNat = Config.pCap
  · simp only [if_pos h0]
    cases resync 1 s with
    | error f => rfl
    | ok t =>
      by_cases h : t.fill.toNat = Config.pCap
      · simp only [Except.map]; rw [if_pos h]; exact if_pos h
      · simp only [Except.map]; rw [if_neg h]; exact if_neg h
  · simp only [if_neg h0]; rfl

theorem awaitHeader_outer : awaitHeader (outer u s) = (awaitHeader s).map (fun p => (p.1, outer u p.2)) := by
  simp only [awaitHeader, outer_fill, memRead_outer, moveAndSync_outer, moveToFront_outer]
  split_ifs
  · rfl
  · cases memRead s (s.fill.toNat - 4) 4 with
    | error f => rfl
    | ok w =>
      simp only []
      split_ifs
      · cases moveAndSync (s.fill.toNat - 4) 4 true s <;> rfl
      · cases moveToFront (s.fill.toNat - 3) 3 s <;> rfl

theorem endStep_outer (r : Except Fault (Event × State)) :
    endStep (r.map (fun p => (p.1, outer u p.2))) = (endStep r).map (ByteStep.onState (outer u)) := by
  cases r <;> rfl

theorem frameIsReady_outer : frameIsReady (outer u s) = frameIsReady s := rfl

theorem frameReady_outer : frameReady (outer u s) = (frameReady s).map (ByteStep.onState (outer u)) := by
  simp only [frameReady, frameIsReady_outer, outer_et, readFooter_outer, memRead_outer, raiseErr_outer, endStep_outer]
  by_cases h : frameIsReady s = true
  · simp only [if_pos h]
    cases readFooter s s.et.toNat with
    | error f => rfl
    | ok footer =>
      by_cases hf : footer ≠ Config.pFtr
      · simp only [if_pos hf]
      · simp only [if_neg hf]
        cases memRead s 0 s.et.toNat with
        | error f => rfl
        | ok frame =>
          simp only []
          cases validateFn frame with
          | error f => rfl
          | ok v => cases v <;> rfl
  · simp only [if_neg h]; rfl

theorem accumulate_outer : accumulate (outer u s) = (accumulate s).map (ByteStep.onState (outer u)) := by
  simp only [accumulate, outer_et, outer_fill, accLe16_outer, raiseErr_outer, endStep_outer, frameReady_outer]
  split_ifs
  · cases accLe16 s 4 with
    | error f => rfl
    | ok len =>
      simp only []
      split_ifs
      · rfl
      · exact frameReady_outer u (setEt (totalSize len) s)
  · rfl

/-- The byte step with everything outside the session replaced. -/
theorem byteStep_outer (b : Byte) : byteStep b (outer u s) = (byteStep b s).map (ByteStep.onState (outer u)) := by
  have hp : ∀ t, processByte b (outer u t) = (processByte b t).map (ByteStep.onState (outer u)) := by
    intro t
    simp only [processByte, appendByte_outer]
    cases appendByte b t with
    | error f => rfl
    | ok v =>
      simp only [Except.map]
      by_cases h : accumulating v = true
      · rw [if_pos h]; exact (if_pos h).trans (accumulate_outer u v)
      · rw [if_neg h]; refine (if_neg h).trans ?_
        rw [awaitHeader_outer, endStep_outer]; rfl
  simp only [byteStep, overflowGuard_outer]
  cases overflowGuard s with
  | error f => rfl
  | ok p =>
    obtain ⟨o, t⟩ := p
    cases o with
    | none => exact hp t
    | some c => rfl

/-- A byte step changes nothing outside the session, whatever the state. -/
theorem byteStep_ended_only {b : Byte} {ev : Event} {s t : State} (h : byteStep b s = .ok (.ended ev t)) :
    SessionOnly s t := by
  have := byteStep_outer s s b
  rw [outer_self, h] at this
  simpa [Except.map, ByteStep.onState, sessionOnly_iff_outer] using this

theorem byteStep_emitting_only {b : Byte} {r : SinkRecord} {s t : State} (h : byteStep b s = .ok (.emitting r t)) :
    SessionOnly s t := by
  have := byteStep_outer s s b
  rw [outer_self, h] at this
  simpa [Except.map, ByteStep.onState, sessionOnly_iff_outer] using this

theorem resync_only {start : Nat} {s t : State} (h : resync start s = .ok t) : SessionOnly s t := by
  have := resync_outer s s start
  rw [outer_self, h] at this
  simpa [Except.map, sessionOnly_iff_outer] using this

theorem finishEmission_only {bits : List (BitVec 1)} {s t : State} (h : finishEmission bits s = .ok t) :
    SessionOnly (takeAnswer bits s) t := resync_only h

end Sys2Proof.Machine
end

