-- ==== Sys2Proof/Laws/PerInstr.lean ====
section
/-! SUPPORT. Facts about every command as syntax, one lemma per constructor: its first word is a word of its row of the
opcode table, and its words are as many as that first word calls for. -/

namespace Sys2Proof.Laws

open Sys2Proof

/-- The fields of a command word are the fields it was made of. -/
theorem opcField_commandWord (opc imm8 : Byte) : opcField (commandWord opc imm8) = opc := by
  unfold opcField commandWord
  apply BitVec.eq_of_getLsbD_eq
  intro i hi
  simp only [BitVec.getLsbD_extractLsb', BitVec.getLsbD_append]
  simp [hi]

theorem immField_commandWord (opc imm8 : Byte) : immField (commandWord opc imm8) = imm8 := by
  unfold immField commandWord
  apply BitVec.eq_of_getLsbD_eq
  intro i hi
  simp only [BitVec.getLsbD_extractLsb', BitVec.getLsbD_append]
  simp [hi]

/-- A command word is made of its fields. -/
theorem commandWord_fields (w : Word) : commandWord (opcField w) (immField w) = w := by
  unfold commandWord opcField immField
  apply BitVec.eq_of_getLsbD_eq
  intro i hi
  simp only [BitVec.getLsbD_append, BitVec.getLsbD_extractLsb']
  split_ifs with h
  · simp [h]
  · have : i - 8 < 8 := by omega
    simp only [this, decide_true, Bool.true_and]
    congr 1; omega

/-- A row that leaves `IMM8` free is matched through `OPC` alone. -/
theorem rowMatches_commandWord (name : String) (m v opc imm8 : Byte) :
    rowMatches ⟨name, commandWord m 0, commandWord v 0⟩ (commandWord opc imm8) = decide (opc &&& m = v) := by
  unfold rowMatches
  have h : commandWord opc imm8 &&& commandWord m 0 = commandWord (opc &&& m) 0 := by
    unfold commandWord
    apply BitVec.eq_of_getLsbD_eq
    intro i hi
    simp only [BitVec.getLsbD_and, BitVec.getLsbD_append]
    split_ifs <;> simp
  rw [h, Bool.eq_iff_iff, beq_iff_eq, decide_eq_true_eq]
  constructor
  · intro e
    have := congrArg opcField e
    rwa [opcField_commandWord, opcField_commandWord] at this
  · rintro rfl; rfl

/-! ### The first word is of the command's row -/

/-- The command has a first word, and it is a word of the command's row. -/
def FirstWord.Statement (i : Instr) : Prop := ∃ w ws, encode i = w :: ws ∧ rowMatches (rowOf i) w = true

theorem FirstWord.init : FirstWord.Statement .init := ⟨_, _, rfl, by decide⟩
theorem FirstWord.feed (b : Byte) : FirstWord.Statement (.feed b) :=
  ⟨_, _, rfl, (rowMatches_commandWord _ 0xFF 0x02 _ _).trans (by decide)⟩
theorem FirstWord.feedn (payload : List Word) : FirstWord.Statement (.feedn payload) :=
  ⟨_, _, rfl, (rowMatches_commandWord _ 0xFF 0x03 _ _).trans (by decide)⟩
theorem FirstWord.validate (payload : List Word) : FirstWord.Statement (.validate payload) :=
  ⟨_, _, rfl, (rowMatches_commandWord _ 0xFF 0x04 _ _).trans (by decide)⟩
theorem FirstWord.reserved00 (m : Byte) : FirstWord.Statement (.reserved00 m) :=
  ⟨_, _, rfl, (rowMatches_commandWord _ 0xFF 0x00 _ _).trans (by decide)⟩
theorem FirstWord.reserved05 (m : Byte) : FirstWord.Statement (.reserved05 m) :=
  ⟨_, _, rfl, (rowMatches_commandWord _ 0xFF 0x05 _ _).trans (by decide)⟩
theorem FirstWord.reserved06 (x : BitVec 1) (m : Byte) : FirstWord.Statement (.reserved06 x m) :=
  ⟨_, _, rfl, (rowMatches_commandWord _ 0xFE 0x06 _ _).trans (by revert x; decide)⟩
theorem FirstWord.reserved08 (x : BitVec 3) (m : Byte) : FirstWord.Statement (.reserved08 x m) :=
  ⟨_, _, rfl, (rowMatches_commandWord _ 0xF8 0x08 _ _).trans (by revert x; decide)⟩
theorem FirstWord.reserved10 (x : BitVec 4) (m : Byte) : FirstWord.Statement (.reserved10 x m) :=
  ⟨_, _, rfl, (rowMatches_commandWord _ 0xF0 0x10 _ _).trans (by revert x; decide)⟩
theorem FirstWord.reserved20 (x : BitVec 5) (m : Byte) : FirstWord.Statement (.reserved20 x m) :=
  ⟨_, _, rfl, (rowMatches_commandWord _ 0xE0 0x20 _ _).trans (by revert x; decide)⟩
theorem FirstWord.reserved40 (x : BitVec 6) (m : Byte) : FirstWord.Statement (.reserved40 x m) :=
  ⟨_, _, rfl, (rowMatches_commandWord _ 0xC0 0x40 _ _).trans (by revert x; decide)⟩
theorem FirstWord.reserved80 (x : BitVec 7) (m : Byte) : FirstWord.Statement (.reserved80 x m) :=
  ⟨_, _, rfl, (rowMatches_commandWord _ 0x80 0x80 _ _).trans (by revert x; decide)⟩
theorem FirstWord.initBad (m : Byte) : FirstWord.Statement (.initBad m) :=
  ⟨_, _, rfl, (rowMatches_commandWord _ 0xFF 0x01 _ _).trans (by decide)⟩

/-! ### The length is what the first word says -/

/-- A well-formed command has as many payload words as its first word calls for (R58). -/
def WordCount.Statement (i : Instr) : Prop :=
  i.wf = true → ∃ w ws, encode i = w :: ws ∧ ws.length = payloadCount w

/-- The count of payload words by the fields. -/
theorem payloadCount_commandWord (opc imm8 : Byte) :
    payloadCount (commandWord opc imm8) = if opc = 0x03 ∨ opc = 0x04 then imm8.toNat else 0 := by
  simp only [payloadCount, opcField_commandWord, immField_commandWord]

theorem countField_toNat {payload : List Word} (h : payload.length ≤ 255) :
    (countField payload).toNat = payload.length := by
  unfold countField; rw [BitVec.toNat_ofNat]; omega

theorem WordCount.init : WordCount.Statement .init := fun _ => ⟨_, _, rfl, by decide⟩
theorem WordCount.feed (b : Byte) : WordCount.Statement (.feed b) := fun _ =>
  ⟨_, _, rfl, by rw [payloadCount_commandWord]; rfl⟩
theorem WordCount.feedn (payload : List Word) : WordCount.Statement (.feedn payload) := fun h => by
  refine ⟨_, _, rfl, ?_⟩
  rw [payloadCount_commandWord, if_pos (.inl rfl), countField_toNat (of_decide_eq_true h)]
theorem WordCount.validate (payload : List Word) : WordCount.Statement (.validate payload) := fun h => by
  refine ⟨_, _, rfl, ?_⟩
  rw [payloadCount_commandWord, if_pos (.inr rfl), countField_toNat (of_decide_eq_true h)]
theorem WordCount.reserved00 (m : Byte) : WordCount.Statement (.reserved00 m) := fun _ =>
  ⟨_, _, rfl, by rw [payloadCount_commandWord]; rfl⟩
theorem WordCount.reserved05 (m : Byte) : WordCount.Statement (.reserved05 m) := fun _ =>
  ⟨_, _, rfl, by rw [payloadCount_commandWord]; rfl⟩
theorem WordCount.reserved06 (x : BitVec 1) (m : Byte) : WordCount.Statement (.reserved06 x m) := fun _ =>
  ⟨_, _, rfl, by rw [payloadCount_commandWord, if_neg (by clear * - x; revert x; decide)]; rfl⟩
theorem WordCount.reserved08 (x : BitVec 3) (m : Byte) : WordCount.Statement (.reserved08 x m) := fun _ =>
  ⟨_, _, rfl, by rw [payloadCount_commandWord, if_neg (by clear * - x; revert x; decide)]; rfl⟩
theorem WordCount.reserved10 (x : BitVec 4) (m : Byte) : WordCount.Statement (.reserved10 x m) := fun _ =>
  ⟨_, _, rfl, by rw [payloadCount_commandWord, if_neg (by clear * - x; revert x; decide)]; rfl⟩
theorem WordCount.reserved20 (x : BitVec 5) (m : Byte) : WordCount.Statement (.reserved20 x m) := fun _ =>
  ⟨_, _, rfl, by rw [payloadCount_commandWord, if_neg (by clear * - x; revert x; decide)]; rfl⟩
theorem WordCount.reserved40 (x : BitVec 6) (m : Byte) : WordCount.Statement (.reserved40 x m) := fun _ =>
  ⟨_, _, rfl, by rw [payloadCount_commandWord, if_neg (by clear * - x; revert x; decide)]; rfl⟩
theorem WordCount.reserved80 (x : BitVec 7) (m : Byte) : WordCount.Statement (.reserved80 x m) := fun _ =>
  ⟨_, _, rfl, by rw [payloadCount_commandWord, if_neg (by clear * - x; revert x; decide)]; rfl⟩
theorem WordCount.initBad (m : Byte) : WordCount.Statement (.initBad m) := fun _ =>
  ⟨_, _, rfl, by rw [payloadCount_commandWord]; rfl⟩

end Sys2Proof.Laws
end

