-- ==== Sys2Proof/Laws/Step.lean ====
section
/-! SUPPORT. What one step can do, said once: refuse what R156 forbids, go on with a held operation, wait, or perform the next
command of the port. -/

namespace Sys2Proof.Machine

variable {s t : State}

theorem step_misuse {m : Misuse} (h : s.misuse = some m) : step s = .refused (misuseRefusal m) := by
  unfold step; rw [h]

theorem step_held {o : Operation} (hp : Proper s) (h : s.op = some o) : step s = resumeOperation o s := by
  unfold step; rw [hp, h]

theorem step_waits (hp : Proper s) (hi : Idle s) (h : takeCommand s = none) : step s = .next s := by
  unfold step; simp only [hp, hi, h]

theorem step_performs {i : Instr} (hp : Proper s) (hi : Idle s) (h : takeCommand s = some (i, t)) :
    step s = exec i t := by
  unfold step; simp only [hp, hi, h]

/-- A step that goes on found nothing to refuse, and went one of the three ways. -/
theorem step_cases (h : step s = .next t) : Proper s ∧
    ((∃ o, s.op = some o ∧ resumeOperation o s = .next t) ∨
      (Idle s ∧ takeCommand s = none ∧ t = s) ∨
      Idle s ∧ ∃ i u, takeCommand s = some (i, u) ∧ exec i u = .next t) := by
  cases hm : s.misuse with
  | some m => rw [step_misuse hm] at h; cases h
  | none =>
    refine ⟨hm, ?_⟩
    cases ho : s.op with
    | some o => rw [step_held hm ho] at h; exact .inl ⟨o, rfl, h⟩
    | none =>
      cases hc : takeCommand s with
      | none => rw [step_waits hm ho hc] at h; cases h; exact .inr (.inl ⟨ho, rfl, rfl⟩)
      | some c =>
        obtain ⟨i, u⟩ := c
        rw [step_performs hm ho hc] at h
        exact .inr (.inr ⟨ho, i, u, rfl, h⟩)

end Sys2Proof.Machine
end

