-- ==== Sys2Proof/Tests/Slice0.lean ====
section
/-! SUPPORT. The model's own tests, each with the vector or rule of spec/ its expected value comes from: well-formedness,
the words of every constructor, one or two single steps of every instruction, and for each obligation with hypotheses a
state and operands that meet them. -/

open Sys2Proof Sys2Proof.Machine

namespace Sys2Proof.Tests

/-! ### Helpers -/

/-- A block between operations that keeps these bytes, with these answers to come. -/
def block (bytes : List Byte) (et : Byte) (synced : Bool) (answers : List (BitVec 1)) : State :=
  { State.reset with
    acc := Memory.writeRange [] 0 bytes, fill := BitVec.ofNat 8 bytes.length, et := et, synced := synced
    answers := answers }

/-- The frame `G` of 95_test_vectors.md. -/
def frameG : List Byte :=
  [0xFD, 0xFC, 0xFB, 0xFA, 0x08, 0x00, 0xFF, 0x01, 0x00, 0x00, 0x02, 0x00, 0x20, 0x00, 0x04, 0x03, 0x02, 0x01]

/-- `BAD` of 95_test_vectors.md: `G` with its last byte changed to 00. -/
def frameBad : List Byte := frameG.dropLast ++ [0x00]

/-- The smallest valid frame, vector V-16. -/
def frameMin : List Byte := [0xFD, 0xFC, 0xFB, 0xFA, 0x04, 0x00, 0x01, 0x00, 0x00, 0x00, 0x04, 0x03, 0x02, 0x01]

/-- A frame of the largest size, 154 bytes (L = 144). -/
def frameMax : List Byte :=
  [0xFD, 0xFC, 0xFB, 0xFA, 0x90, 0x00, 0x12, 0x00, 0x01, 0x00] ++ List.replicate 140 0x55 ++ [0x04, 0x03, 0x02, 0x01]

/-- A buffer with header, matching size and footer, and `L = 3` (13 bytes). -/
def frameShort : List Byte := [0xFD, 0xFC, 0xFB, 0xFA, 0x03, 0x00, 0x01, 0x02, 0x03, 0x04, 0x03, 0x02, 0x01]

/-- A block that keeps all but the last byte of `G`, with `ET` known. -/
def almostG (answers : List (BitVec 1)) : State := block (frameG.take 17) 18 true answers

/-- A block held after `G`, its answer owed. -/
def heldG : State :=
  { block frameG 18 true [] with
    op := some ⟨[0x01], .ok, 0, false⟩, sinkPort := some (frameRecord frameG)
    out := [.emission (frameRecord frameG)] }

/-- A check of the state an outcome goes on with. -/
def nextHolds (p : State → Bool) : Host.Outcome State Fault Refusal → Bool
  | .next t => p t
  | .fault _ => false
  | .refused _ => false

theorem exists_next {p : State → Bool} {r : Host.Outcome State Fault Refusal} (h : nextHolds p r = true) :
    ∃ t, r = .next t ∧ p t = true := by
  cases r with
  | next t => exact ⟨t, rfl, h⟩
  | fault f => cases h
  | refused f => cases h

/-- An outcome goes on with these outputs and this session. -/
def endsWith (out : List PortEvent) (fill et : Byte) (synced : Bool) : Host.Outcome State Fault Refusal → Bool :=
  nextHolds fun t => decide (t.out = out ∧ t.fill = fill ∧ t.et = et ∧ t.synced = synced)

/-! ### Well-formedness refuses what has no encoding -/

theorem test_wf_refuses_feedn_256 : (Instr.feedn (List.replicate 256 0x0000)).wf = false := by decide +kernel
theorem test_wf_refuses_validate_256 : (Instr.validate (List.replicate 256 0x0000)).wf = false := by decide +kernel
theorem test_wf_refuses_initBad_zero : (Instr.initBad 0x00).wf = false := by decide

/-! ### Words written out from R57 and opcode_table.json -/

theorem test_decode_init : decode [0b00000001_00000000#16] = .ok (.init, []) := rfl
theorem test_decode_feed : decode [0b00000010_11111101#16] = .ok (.feed 0xFD, []) := rfl
theorem test_decode_feedn : decode [0b00000011_00000010#16, 0x00FD, 0x01FC, 0x0100] =
    .ok (.feedn [0x00FD, 0x01FC], [0x0100]) := rfl
theorem test_decode_validate : decode [0b00000100_00000001#16, 0x00FD, 0x0100] =
    .ok (.validate [0x00FD], [0x0100]) := rfl
theorem test_decode_reserved00 : decode [0b00000000_10101010#16] = .ok (.reserved00 0xAA, []) := rfl
theorem test_decode_reserved05 : decode [0b00000101_00000001#16] = .ok (.reserved05 0x01, []) := rfl
theorem test_decode_reserved06 : decode [0b00000111_00000001#16] = .ok (.reserved06 0b1 0x01, []) := rfl
theorem test_decode_reserved08 : decode [0b00001101_00000001#16] = .ok (.reserved08 0b101 0x01, []) := rfl
theorem test_decode_reserved10 : decode [0b00011101_00000001#16] = .ok (.reserved10 0b1101 0x01, []) := rfl
theorem test_decode_reserved20 : decode [0b00110001_00000001#16] = .ok (.reserved20 0b10001 0x01, []) := rfl
theorem test_decode_reserved40 : decode [0b01100001_00000001#16] = .ok (.reserved40 0b100001 0x01, []) := rfl
theorem test_decode_reserved80 : decode [0b11000001_00000001#16] = .ok (.reserved80 0b1000001 0x01, []) := rfl
theorem test_decode_initBad : decode [0b00000001_11111111#16] = .ok (.initBad 0xFF, []) := rfl
theorem test_decode_waits_for_payload : decode [0x0302, 0x00FD] = .error .payloadNotArrived := rfl

/-- `withFetchWord` places a table word, with zero payload words, where the next step takes it. -/
theorem test_withFetchWord_feedn : (State.reset.withFetchWord 16 0x0302).cmdPort = [0x0302, 0x0000, 0x0000] ∧
    decodeTableWord 16 0x0302 = some (.feedn [0x0000, 0x0000]) := by decide

/-! ### Single steps -/

/-- R120's worked example: INIT in the middle of a frame. -/
theorem test_init : endsWith [.response [0x0000]] 0 0 false
    (exec .init (block [0xFD, 0xFC, 0xFB, 0xFA, 0x08] 0 true [])) = true := by decide

/-- L1-1, byte 4: the header is found. -/
theorem test_feed_header : endsWith [.response [0x0100]] 4 0 true
    (exec (.feed 0xFA) (block [0xFD, 0xFC, 0xFB] 0 false [])) = true := by decide

/-- L1-1, byte 18: the frame is emitted. -/
theorem test_feed_emits : endsWith [.emission ⟨18, 0xFF, 0x0000, frameG⟩, .response [0x0100]] 0 0 false
    (exec (.feed 0x01) (almostG [0])) = true := by decide +kernel

/-- S-8: an oversized length, then `G`. -/
theorem test_feedn_oversized : endsWith [.emission ⟨18, 0xFF, 0x0000, frameG⟩, .response [0x1802]] 0 0 false
    (exec (.feedn ([0x00FD, 0x00FC, 0x00FB, 0x00FA, 0x0091, 0x0000] ++ frameG.map (BitVec.setWidth 16)))
      { State.reset with answers := [0] }) = true := by decide +kernel

/-- S-14, first command: `RESYNC(1)` keeps `G` and the bytes after it. -/
theorem test_feedn_resync : endsWith [.response [0x2803]] 22 0 true
    (exec (.feedn (([0xFD, 0xFC, 0xFB, 0xFA, 0x1E, 0x00] ++ List.replicate 12 0x11 ++ frameG ++
      List.replicate 4 0xEE).map (BitVec.setWidth 16))) State.reset) = true := by decide +kernel

/-- V-14: the high byte of the echo word is lost, the status is whole. -/
theorem test_validate_accepts : endsWith [.response [0x0000, 0x0004, 0x0012, 0xBEEF]] 0 0 false
    (exec (.validate [0xFD, 0xFC, 0xFB, 0xFA, 0x04, 0x00, 0x12, 0xAB, 0xEF, 0xBE, 0x04, 0x03, 0x02, 0x01])
      State.reset) = true := by decide

/-- V-7: step 3 comes before step 5. -/
theorem test_validate_rejects : endsWith [.response [0x0007]] 0 0 false
    (exec (.validate [0x00, 0xFC, 0xFB, 0xFA, 0x02, 0x00, 0xAA, 0xBB, 0x04, 0x03, 0x02, 0x01])
      State.reset) = true := by decide

/-- R121's worked example, and the other reserved rows: `0x0001`, and the session stays. -/
theorem test_reserved : ([.reserved00 0x00, .reserved05 0x00, .reserved06 1 0x00, .reserved08 7 0x00,
    .reserved10 0 0x12, .reserved20 0 0x00, .reserved40 0 0x00, .reserved80 0x7F 0xFF].all fun i =>
      endsWith [.response [0x0001]] 17 18 true (exec i (almostG []))) = true := by decide

/-- R122: INIT with a nonzero `IMM8` does not re-initialize. -/
theorem test_initBad : endsWith [.response [0x0001]] 17 18 true (exec (.initBad 0x01) (almostG [])) = true := by
  decide

/-! ### Witnesses: states and operands that meet the hypotheses of each obligation

Each is named after the obligation, and after the clause where there are several. -/

theorem ready_block {bytes : List Byte} {et : Byte} {synced : Bool} {answers : List (BitVec 1)}
    (h : idleCheck (block bytes et synced answers) = true) : Ready (block bytes et synced answers) :=
  ready_of_idleCheck h rfl

/-- The answers take no part in the invariant. -/
theorem inv_answers {s : State} (h : Inv s) (answers : List (BitVec 1)) : Inv { s with answers := answers } where
  form := h.form
  range := h.range
  readable := h.readable
  idle hi := ⟨(h.idle hi).1, ⟨(h.idle hi).2.awaiting, (h.idle hi).2.header, (h.idle hi).2.expected, (h.idle hi).2.room,
    (h.idle hi).2.total⟩⟩
  held o ho := ⟨(h.held o ho).synced, (h.held o ho).size, (h.held o ho).frame, (h.held o ho).running,
    (h.held o ho).reported⟩

/-- Nor does what the host has done. -/
theorem inv_noteMisuse {s : State} (h : Inv s) (m : Misuse) : Inv (noteMisuse m s) where
  form := h.form
  range := h.range
  readable := h.readable
  idle hi := ⟨(h.idle hi).1, ⟨(h.idle hi).2.awaiting, (h.idle hi).2.header, (h.idle hi).2.expected, (h.idle hi).2.room,
    (h.idle hi).2.total⟩⟩
  held o ho := ⟨(h.held o ho).synced, (h.held o ho).size, (h.held o ho).frame, (h.held o ho).running,
    (h.held o ho).reported⟩

theorem ready_almostG (answers : List (BitVec 1)) : Ready (almostG answers) :=
  have h : Ready (almostG []) := ready_block (by decide +kernel)
  ⟨inv_answers h.inv answers, rfl, rfl⟩

theorem contents_heldG : memRead heldG 0 18 = .ok frameG := by decide +kernel

/-- The held block keeps the invariant. -/
theorem inv_heldG : Inv heldG where
  form := by decide +kernel
  range := by decide +kernel
  readable := ⟨frameG, contents_heldG⟩
  idle h := by cases h
  held o ho := by
    obtain rfl := Option.some.inj ho
    exact ⟨rfl, by decide +kernel, ⟨frameG, contents_heldG, by decide +kernel, rfl⟩, by decide +kernel, .inl rfl⟩

/-- Reset is ready to be fed. -/
theorem ready_reset : Ready State.reset := ready_of_idleCheck (by decide +kernel) rfl

theorem test_witness_DecodeOfEncodeIsTheCommand :
    (Instr.feedn (List.replicate 255 0x00FD)).wf = true ∧ (Instr.validate []).wf = true ∧
      (Instr.initBad 0x01).wf = true := by decide +kernel

theorem test_witness_EncodeOfDecodeIsTheWords :
    decode [0x0302, 0x01FD, 0x00FC, 0x0100] = .ok (.feedn [0x01FD, 0x00FC], [0x0100]) := rfl

/-- Both clauses, where they meet: one payload word missing, and none missing. -/
theorem test_witness_CommandLengthIsDecidedByItsFirstWord :
    ∃ s t : State, Idle s ∧ Proper s ∧ s.cmdPort = 0x0302 :: [0x00FD] ∧ [0x00FD].length < 2 ∧
      Idle t ∧ Proper t ∧ t.cmdPort = 0x0302 :: [0x00FD, 0x00FC] ∧ 2 ≤ [0x00FD, 0x00FC].length :=
  ⟨hostWords .owner [0x0302, 0x00FD] State.reset, hostWords .owner [0x0302, 0x00FD, 0x00FC] State.reset, by decide +kernel⟩

theorem test_witness_StepPerformsTheDecodedCommand :
    ∃ s : State, Idle s ∧ Proper s ∧ decode s.cmdPort = .ok (.feed 0xFD, [0x0100]) :=
  ⟨hostWords .owner [0x02FD, 0x0100] State.reset, rfl, rfl, rfl⟩

theorem test_witness_IdleBlockHoldsItsState : Idle (almostG []) ∧ Proper (almostG []) ∧ (almostG []).cmdPort = [] := by decide +kernel

theorem test_witness_OwedAnswerHoldsTheBlock :
    heldG.op = some ⟨[0x01], .ok, 0, false⟩ ∧ Proper heldG ∧ heldG.answers = [] := by decide +kernel

theorem test_witness_LateAnswersEqualEarlyAnswers :
    Proper (almostG []) ∧ (Instr.feed 0x01).wf = true ∧
      ∃ t, exec (.feed 0x01) (almostG []) = .next t ∧ decide (t.op = some ⟨[0x01], .ok, 0, false⟩) = true :=
  ⟨rfl, rfl, exists_next (by decide +kernel)⟩

theorem test_witness_HostInputsAreOnlyTaken :
    ∃ t, step (hostWords .owner [0x0201] (almostG [0, 1])) = .next t ∧ decide (t.answers = [1] ∧ t.cmdPort = []) = true :=
  exists_next (by decide +kernel)

theorem test_witness_InitReinitializesTheSession : Idle (almostG []) := by decide +kernel

/-- The edges of the reserved ranges. -/
theorem test_witness_ReservedOpcodesAreMalformedCalls :
    Idle (hostWords .owner [0x00FF] State.reset) ∧ Proper (hostWords .owner [0x00FF] State.reset) ∧
      [0x0000#16, 0x00FF, 0x0500, 0xFFFF].all (fun w =>
        decide (w.extractLsb' 8 8 = 0x00#8 ∨ 5 ≤ (w.extractLsb' 8 8).toNat)) = true := by
  decide +kernel

theorem test_witness_EveryReservedCommandResponds : Idle (almostG []) := by decide +kernel

/-- Both clauses, at the edges of their ranges. -/
theorem test_witness_InitWithNonzeroImmediateIsMalformed :
    Idle (hostWords .owner [0x0101] State.reset) ∧ Proper (hostWords .owner [0x0101] State.reset) ∧ (0x01 : Byte) ≠ 0 ∧
      [0x0101#16, 0x01FF].all (fun w => decide (0x0101 ≤ w.toNat ∧ w.toNat ≤ 0x01FF)) = true := by decide +kernel

theorem test_witness_InitLooksLikePowerOn : Inv (almostG []) ∧ Idle (almostG []) :=
  ⟨(ready_almostG []).inv, (ready_almostG []).idle⟩

/-- A buffer for each of the seven clauses, at the edges where they meet (V-9, V-21, V-22, V-7, V-20, V-6 at `L = 3`,
V-16). -/
theorem test_witness_ValidatorReportsTheEarliestFailure :
    (frameG.take 5).length < 6 ∧
    (∃ buf, buf = [0xFD, 0xFC, 0xFB, 0xFA, 0x00, 0x00] ∧ 6 ≤ buf.length ∧ lengthOf buf = 0) ∧
    (∃ buf, buf = [0xFD, 0xFC, 0xFB, 0xFA, 0x01, 0x00] ∧ 6 ≤ buf.length ∧ lengthOf buf ≠ 0 ∧
      10 + lengthOf buf ≠ buf.length) ∧
    (∃ buf, buf = frameShort.set 0 0x00 ∧ 6 ≤ buf.length ∧ lengthOf buf ≠ 0 ∧ 10 + lengthOf buf = buf.length ∧
      ¬ HeaderAt buf 0) ∧
    (∃ buf, buf = frameShort.set 12 0x00 ∧ 6 ≤ buf.length ∧ lengthOf buf ≠ 0 ∧ 10 + lengthOf buf = buf.length ∧
      HeaderAt buf 0 ∧ buf.drop (buf.length - 4) ≠ Config.pFtr) ∧
    (6 ≤ frameShort.length ∧ lengthOf frameShort ≠ 0 ∧ 10 + lengthOf frameShort = frameShort.length ∧
      HeaderAt frameShort 0 ∧ frameShort.drop (frameShort.length - 4) = Config.pFtr ∧ lengthOf frameShort < 4) ∧
    ValidFrame frameMin :=
  ⟨by decide, ⟨_, rfl, by decide⟩, ⟨_, rfl, by decide⟩, ⟨_, rfl, by decide⟩, ⟨_, rfl, by decide⟩, by decide⟩

theorem test_witness_ValidatorAcceptsExactlyValidFrames :
    validateFn frameMin = .ok (.accept ⟨4, 0x01, 0x0000⟩) ∧
      ∃ t, exec (.validate (frameMin.map (BitVec.setWidth 16))) State.reset = .next t ∧
        decide (t.out = State.reset.out ++ [.response (0x0000 :: [0x0004, 0x0001, 0x0000])]) = true :=
  ⟨by decide +kernel, exists_next (by decide +kernel)⟩

theorem test_witness_DecodedFieldsAreLittleEndian :
    frameG[4]? = some 0x08 ∧ frameG[4 + 1]? = some 0x00 ∧
      validateFn frameG = .ok (.accept ⟨8, 0xFF, 0x0000⟩) := by
  decide +kernel

theorem test_witness_HighEchoByteIsDiscarded : lengthOf frameG ≠ 1 := by decide +kernel

/-- On both sides of `L = 3`. -/
theorem test_witness_DecoderCallFailsOnlyOnShortLength :
    ∀ buf ∈ [frameShort, frameMin],
      HeaderAt buf 0 ∧ buf.length = 10 + lengthOf buf ∧ lastBytes 4 buf = Config.pFtr := by decide +kernel

/-- The malformed calls at their edges, and 1 and 154 words accepted as operands. -/
theorem test_witness_ValidateRespondsTheVerdict :
    Idle (almostG []) ∧ ([] : List Word).length = 0 ∧ 154 < (List.replicate 155 (0 : Word)).length ∧
    (∃ w ∈ [0x00FD#16, 0x0100], w.extractLsb' 8 8 ≠ 0#8) ∧
    [[0x00FD#16], frameMax.map (BitVec.setWidth 16)].all (fun payload =>
      decide (1 ≤ payload.length ∧ payload.length ≤ 154) &&
        payload.all fun w => decide (w.extractLsb' 8 8 = 0#8)) = true ∧
    nextHolds (fun t => decide (t.out = [.response [0x0006]])) (exec (.validate [0x00FD]) State.reset) = true :=
  ⟨rfl, rfl, by decide +kernel, ⟨0x0100, by simp, by decide⟩, by decide +kernel⟩

/-- The last range inside `ACC` and the first that leaves it. -/
theorem test_witness_AccWritesReadBack : 153 + [0x11#8].length ≤ 154 ∧ 154 < 154 + [0x11#8].length := by decide +kernel

theorem test_witness_CanonicalMemoriesAreEqualData :
    Memory.wf (Memory.write [(3, 0x11)] 1 0x22) = true ∧ Memory.wf [(1, 0x22), (3, 0x11)] = true := by decide +kernel

/-- Inside a byte step, where `FILL = ET`: R90's worked example (scan start 1, header at 18), and after an emission with
nothing beyond the frame (start `e = FILL`). And at `FILL = ET = 154`, the state right before the footer is found wrong. -/
theorem test_witness_ResyncKeepsTheLatestHeader :
    (∃ s buf, buf = [0xFD, 0xFC, 0xFB, 0xFA, 0x1E, 0x00] ++ List.replicate 12 0x11 ++ frameG ++ List.replicate 4 0xEE ∧
      s = block buf 40 true [] ∧ contents s = .ok buf ∧ s.et = s.fill ∧ 1 ≤ buf.length ∧ HeaderAt buf 18 ∧
      ∀ q < 40, 18 < q → ¬ HeaderAt buf q) ∧
    (contents (block frameG 18 true []) = .ok frameG ∧ 18 ≤ frameG.length ∧ ∀ p < 19, 18 ≤ p → ¬ HeaderAt frameG p) ∧
    ∃ s buf, buf = frameMax.dropLast ++ [0x00] ∧ s = block buf 154 true [] ∧ contents s = .ok buf ∧ s.et = s.fill ∧
      1 ≤ buf.length ∧ ∀ p < 154, 1 ≤ p → ¬ HeaderAt buf p :=
  ⟨⟨_, _, rfl, rfl, by decide +kernel⟩, by decide +kernel, _, _, rfl, rfl, by decide +kernel⟩

/-- At the largest `FILL` between operations, 153. -/
theorem test_witness_OverflowGuardNeverFires : Ready (block (frameMax.take 153) 154 true []) :=
  ready_block (by decide +kernel)

/-- Both clauses: without and with a sink. -/
theorem test_witness_FeedCompletes :
    (Inv (hostSinkPresent false State.reset) ∧ Idle (hostSinkPresent false State.reset) ∧
      (hostSinkPresent false State.reset).sinkPresent = false) ∧ Ready (almostG []) :=
  ⟨⟨(inv_of_idleCheck (by decide +kernel)).1, rfl, rfl⟩, ready_almostG []⟩

/-- The three clauses: 2 bytes kept, and 3 kept with and without the header completed. -/
theorem test_witness_FeedWhileAwaitingHeader :
    (∀ bytes ∈ [([0x11, 0xFD] : List Byte), [0xFD, 0xFC, 0xFB]],
      idleCheck (block bytes 0 false []) = true ∧ (block bytes 0 false []).synced = false) ∧
    [0x11#8, 0xFD].length < 3 ∧ [0xFD, 0xFC, 0xFB] ++ [0xFA#8] = Config.pHdr ∧
    [0xFD, 0xFC, 0xFB] ++ [0xFB#8] ≠ Config.pHdr := by decide +kernel

/-- The sixth byte not there yet; `L = 0` and `L = 144` at the sixth byte; the last byte but one of the largest frame. -/
theorem test_witness_FeedWhileAccumulating :
    (∃ buf, buf = frameG.take 4 ∧ Ready (block buf 0 true []) ∧ contents (block buf 0 true []) = .ok buf ∧
      buf.length + 1 < 6) ∧
    (∃ buf, buf = [0xFD, 0xFC, 0xFB, 0xFA, 0x00] ∧ Ready (block buf 0 true []) ∧
      contents (block buf 0 true []) = .ok buf ∧ candidateTotal (block buf 0 true []) (buf ++ [0x00]) ≤ 154 ∧
      buf.length + 1 < candidateTotal (block buf 0 true []) (buf ++ [0x00])) ∧
    (∃ buf, buf = [0xFD, 0xFC, 0xFB, 0xFA, 0x90] ∧ Ready (block buf 0 true []) ∧
      contents (block buf 0 true []) = .ok buf ∧ candidateTotal (block buf 0 true []) (buf ++ [0x00]) ≤ 154 ∧
      buf.length + 1 < candidateTotal (block buf 0 true []) (buf ++ [0x00])) ∧
    ∃ buf, buf = frameMax.take 152 ∧ Ready (block buf 154 true []) ∧ contents (block buf 154 true []) = .ok buf ∧
      candidateTotal (block buf 154 true []) (buf ++ [0x03]) ≤ 154 ∧
      buf.length + 1 < candidateTotal (block buf 154 true []) (buf ++ [0x03]) :=
  ⟨⟨_, rfl, ready_block (by decide +kernel), by decide +kernel⟩,
    ⟨_, rfl, ready_block (by decide +kernel), by decide +kernel⟩,
    ⟨_, rfl, ready_block (by decide +kernel), by decide +kernel⟩,
    _, rfl, ready_block (by decide +kernel), by decide +kernel⟩

/-- `L = 145` at the sixth byte (S-7). -/
theorem test_witness_FeedOfAnOversizedLength :
    ∃ s buf, buf = [0xFD, 0xFC, 0xFB, 0xFA, 0x91] ∧ s = block buf 0 true [] ∧ Ready s ∧ s.synced = true ∧
      contents s = .ok buf ∧ s.et = 0 ∧ 6 ≤ buf.length + 1 ∧ 154 < 10 + lengthOf (buf ++ [0x00]) :=
  ⟨_, _, rfl, rfl, ready_block (by decide +kernel), by decide +kernel⟩

/-- Both clauses: `BAD` (S-5) and a frame of `L = 3` with its footer (R85). -/
theorem test_witness_FeedOfABadFrame :
    (∃ s buf, buf = frameG.take 17 ∧ s = almostG [] ∧ Ready s ∧ s.synced = true ∧ contents s = .ok buf ∧
      6 ≤ buf.length + 1 ∧ candidateTotal s (buf ++ [0x00]) ≤ 154 ∧
      candidateTotal s (buf ++ [0x00]) ≤ buf.length + 1 ∧
      lastBytes 4 ((buf ++ [0x00]).take (candidateTotal s (buf ++ [0x00]))) ≠ Config.pFtr) ∧
    ∃ s buf, buf = frameShort.take 12 ∧ s = block buf 13 true [] ∧ Ready s ∧ s.synced = true ∧ contents s = .ok buf ∧
      6 ≤ buf.length + 1 ∧ candidateTotal s (buf ++ [0x01]) ≤ 154 ∧
      candidateTotal s (buf ++ [0x01]) ≤ buf.length + 1 ∧
      lastBytes 4 ((buf ++ [0x01]).take (candidateTotal s (buf ++ [0x01]))) = Config.pFtr ∧
      validateFn ((buf ++ [0x01]).take (candidateTotal s (buf ++ [0x01]))) = .ok (.reject .invalidFrameSize) :=
  ⟨⟨_, _, rfl, rfl, ready_almostG [], by decide +kernel⟩,
    _, _, rfl, rfl, ready_block (by decide +kernel), by decide +kernel⟩

theorem test_witness_FeedOfAValidFrameEmits :
    ∃ s buf, buf = frameG.take 17 ∧ s = almostG [1] ∧ Ready s ∧ s.synced = true ∧ contents s = .ok buf ∧
      6 ≤ buf.length + 1 ∧ 18 = candidateTotal s (buf ++ [0x01]) ∧ 18 ≤ 154 ∧ 18 ≤ buf.length + 1 ∧
      ValidFrame ((buf ++ [0x01]).take 18) ∧ s.answers = 1 :: [] :=
  ⟨_, _, rfl, rfl, ready_almostG [1], by decide +kernel⟩

/-- With bytes beyond the frame, as `RESYNC` can leave them (S-14). -/
theorem test_witness_FeedOfAValidFrameWaitsForTheAnswer :
    ∃ s buf, buf = frameG ++ [0xEE, 0xEE] ∧ s = block buf 0 true [] ∧ Ready s ∧ s.synced = true ∧
      contents s = .ok buf ∧ 6 ≤ buf.length + 1 ∧ 18 = candidateTotal s (buf ++ [0x55]) ∧ 18 ≤ 154 ∧
      18 ≤ buf.length + 1 ∧ ValidFrame ((buf ++ [0x55]).take 18) ∧ s.answers = [] :=
  ⟨_, _, rfl, rfl, ready_block (by decide +kernel), by decide +kernel⟩

theorem test_witness_CandidateFrameOutcome :
    (∃ s buf, buf = frameG.take 17 ∧ s = almostG [0] ∧ Ready s ∧ s.synced = true ∧ contents s = .ok buf ∧
      6 ≤ buf.length + 1 ∧ 18 = candidateTotal s (buf ++ [0x01]) ∧ 18 ≤ buf.length + 1 ∧ s.answers ≠ [] ∧
      ∃ t, exec (.feed 0x01) s = .next t ∧ decide (t.fill = 0) = true) ∧
    ∃ s buf, buf = [0xFD, 0xFC, 0xFB, 0xFA, 0x91] ∧ s = block buf 0 true [0] ∧ Ready s ∧ s.synced = true ∧
      contents s = .ok buf ∧ 6 ≤ buf.length + 1 ∧ 155 = candidateTotal s (buf ++ [0x00]) ∧ 154 < 155 ∧
      s.answers ≠ [] ∧ ∃ t, exec (.feed 0x00) s = .next t ∧ decide (t.fill = 3) = true :=
  ⟨⟨_, _, rfl, rfl, ready_almostG [0], rfl, by decide +kernel, by decide, by decide, by decide, by decide,
      exists_next (by decide +kernel)⟩,
    _, _, rfl, rfl, ready_block (by decide +kernel), rfl, by decide +kernel, by decide, by decide, by decide, by decide,
      exists_next (by decide +kernel)⟩

/-- A step that moves bytes, and one that only appends. -/
theorem test_witness_FeedFrame :
    (Ready (almostG [0]) ∧ ∃ t, exec (.feed 0x01) (almostG [0]) = .next t ∧ decide (t.fill = 0) = true) ∧
    (Ready State.reset ∧ ∃ t, exec (.feed 0xFD) State.reset = .next t ∧
      decide (t.fill.toNat = State.reset.fill.toNat + 1) = true) :=
  ⟨⟨ready_almostG [0], exists_next (by decide +kernel)⟩, ready_reset, exists_next (by decide +kernel)⟩

/-- Each of the four malformed calls (S-17, S-18, S-19, S-20). -/
theorem test_witness_FeednMalformedCalls :
    Idle State.reset ∧ (hostSinkPresent false State.reset).sinkPresent = false ∧ ([] : List Word).length = 0 ∧
      (1 < [0x00FD#16, 0x00FC].length ∧ ({ State.reset with params := ⟨false⟩ } : State).params.chunkFeed = false) ∧
      ∃ w ∈ [0x00FD#16, 0x01FC], w.extractLsb' 8 8 ≠ 0#8 :=
  ⟨rfl, rfl, rfl, by decide, 0x01FC, by simp, by decide⟩

/-- A chunk of 1 byte where chunks are not allowed, and of 255 where they are. -/
theorem test_witness_FeednCompletes :
    (∃ bytes : List Byte, bytes = [0xFD] ∧ Ready { State.reset with params := ⟨false⟩ } ∧ 1 ≤ bytes.length ∧
      bytes.length ≤ 255 ∧ bytes.length = 1) ∧
    ∃ bytes : List Byte, bytes = List.replicate 255 0x00 ∧ Ready State.reset ∧ 1 ≤ bytes.length ∧ bytes.length ≤ 255 ∧
      State.reset.params.chunkFeed = true :=
  ⟨⟨_, rfl, ready_of_idleCheck (by decide) rfl, by decide⟩, _, rfl, ready_reset, by decide +kernel⟩

/-- S-6: an error and an emission in one chunk. -/
theorem test_witness_FeednProcessesItsConsumedBytes :
    Ready { State.reset with answers := [0] } ∧ 1 ≤ (frameBad ++ frameG).length ∧ (frameBad ++ frameG).length ≤ 255 ∧
      State.reset.params.chunkFeed = true ∧
      ∃ t, exec (.feedn ((frameBad ++ frameG).map payloadWord)) { State.reset with answers := [0] } = .next t ∧
        decide (Idle t ∧ t.out = [.emission (frameRecord frameG), .response [0x2403]]) = true :=
  ⟨ready_of_idleCheck (by decide +kernel) rfl, by decide, by decide, rfl, exists_next (by decide +kernel)⟩

/-- S-15: a stop after the first of two frames. -/
theorem test_witness_ShortCountOnlyAfterStop :
    Ready { State.reset with answers := [1, 0] } ∧ 1 ≤ (frameG ++ frameG).length ∧ (frameG ++ frameG).length ≤ 255 ∧
      State.reset.params.chunkFeed = true ∧
      ∃ t, exec (.feedn ((frameG ++ frameG).map payloadWord)) { State.reset with answers := [1, 0] } = .next t ∧
        decide (Idle t ∧ t.out = State.reset.out ++ [frameRecord frameG].map .emission ++
          [.response [0x12#8 ++ (0#4 ++ statusCode .ok)]]) = true :=
  ⟨ready_of_idleCheck (by decide +kernel) rfl, by decide, by decide, rfl, exists_next (by decide +kernel)⟩

theorem test_witness_StopEndsTheChunk :
    ∃ s : State, s = { State.reset with answers := [1] } ∧ Ready s ∧ s.params.chunkFeed = true ∧ contents s = .ok [] ∧
      ValidFrame frameG ∧ frameG.length ≤ 154 ∧ frameG.length + frameG.length ≤ 255 ∧ s.answers = 1#1 :: [] :=
  ⟨_, rfl, ready_of_idleCheck (by decide) rfl, by decide +kernel⟩

/-- S-22, k = 1, as a FEED and a FEEDN. -/
theorem test_witness_ChunkingInvariance :
    ∃ (s : State) (cmds : List Instr), s = { State.reset with answers := List.replicate 18 0 } ∧
      cmds = [.feed 0xFD, .feedn ((frameG.drop 1).map payloadWord)] ∧ Ready s ∧ s.params.chunkFeed = true ∧
      AllContinue s ∧ (∀ i ∈ cmds, Feeding i) ∧ (cmds.flatMap fedBytes).length ≤ s.answers.length := by
  refine ⟨_, _, rfl, rfl, ready_of_idleCheck (by decide) rfl, rfl, by decide, fun i hi => ?_, by decide⟩
  rcases List.mem_cons.mp hi with rfl | hi
  · exact .inl ⟨_, rfl⟩
  · rw [List.mem_singleton] at hi
    exact .inr ⟨frameG.drop 1, hi, by decide, by decide⟩

/-- Noise, `G`, and a byte that is kept. -/
theorem test_witness_EmittedFramesAreSegmentsOfTheInput :
    ∃ (s : State) (bytes : List Byte), s = { State.reset with answers := [0] } ∧ bytes = [0x11] ++ frameG ++ [0xFD] ∧
      Ready s ∧ 1 ≤ bytes.length ∧ bytes.length ≤ 255 ∧ s.params.chunkFeed = true ∧ contents s = .ok [] ∧
      ∃ t, exec (.feedn (bytes.map payloadWord)) s = .next t ∧
        decide (Idle t ∧ contents t = .ok [0xFD] ∧ t.out = s.out ++ [frameRecord frameG].map .emission ++
          [.response [0x14#8 ++ (0#4 ++ statusCode .ok)]]) = true :=
  ⟨_, _, rfl, rfl, ready_of_idleCheck (by decide) rfl, by decide, by decide, rfl, by decide,
    exists_next (by decide +kernel)⟩

theorem test_witness_FeednFrame :
    Ready (almostG [0]) ∧ ∃ t, exec (.feedn [payloadWord 0x01]) (almostG [0]) = .next t ∧ decide (t.fill = 0) = true :=
  ⟨ready_almostG [0], exists_next (by decide +kernel)⟩

theorem test_witness_EveryCommandCompletes :
    Inv (almostG []) ∧ Idle (almostG []) ∧ (Instr.validate (List.replicate 255 0xFFFF)).wf = true :=
  ⟨(ready_almostG []).inv, rfl, by decide +kernel⟩

/-- An idle block with a command, and a held block whose answer has come. -/
theorem test_witness_StepKeepsTheInvariant :
    (Inv (hostWords .owner [0x02FD] State.reset) ∧
      ∃ t, step (hostWords .owner [0x02FD] State.reset) = .next t ∧ decide (t.fill = 1) = true) ∧
    (Inv (hostAnswer 1 heldG) ∧ ∃ t, step (hostAnswer 1 heldG) = .next t ∧ decide (t.fill = 0) = true) :=
  ⟨⟨(inv_of_idleCheck (by decide +kernel)).1, exists_next (by decide +kernel)⟩,
    ⟨inv_answers inv_heldG [1], exists_next (by decide +kernel)⟩⟩

/-- Both clauses: a held and an idle block, and a held block on whose port the host has put a word. -/
theorem test_witness_StepNeverFaults :
    (Inv heldG ∧ Proper heldG) ∧ (Inv (almostG [0]) ∧ Proper (almostG [0])) ∧
      Inv (hostWords .owner [0x0100] heldG) ∧
      (hostWords .owner [0x0100] heldG).misuse = some .commandInsideAnswer :=
  ⟨⟨inv_heldG, rfl⟩, ⟨(ready_almostG [0]).inv, rfl⟩, inv_noteMisuse inv_heldG .commandInsideAnswer, rfl⟩

theorem test_witness_EveryEmissionIsAValidFrame :
    Inv (hostWords .owner [0x0201] (almostG [])) ∧ ∃ t, step (hostWords .owner [0x0201] (almostG [])) = .next t ∧
      decide (t.out = [.emission (frameRecord frameG)]) = true :=
  ⟨(inv_of_idleCheck (by decide +kernel)).1, exists_next (by decide +kernel)⟩

theorem test_witness_OneResponseAfterTheEmissions :
    Inv (almostG [0]) ∧ Idle (almostG [0]) ∧ (Instr.feed 0x01).wf = true ∧
      ∃ t, exec (.feed 0x01) (almostG [0]) = .next t ∧ decide (Idle t) = true :=
  ⟨(ready_almostG [0]).inv, rfl, rfl, exists_next (by decide +kernel)⟩

/-- Two states that differ in a byte above `FILL`. -/
theorem test_witness_StaleBytesAreUnobservable :
    ∃ s t : State, s ≠ t ∧ Inv s ∧ Inv t ∧ SameObservable s t ∧ Proper s :=
  ⟨block [0xFD] 0 false [], { block [0xFD] 0 false [] with acc := [(0, 0xFD), (7, 0x99)] }, by decide +kernel,
    (ready_block (by decide +kernel)).inv, (inv_of_idleCheck (by decide +kernel)).1,
    ⟨by decide +kernel, rfl, rfl, rfl, rfl, rfl, rfl, rfl, rfl, rfl, rfl, rfl⟩, rfl⟩

theorem test_witness_EveryValidFrameIsEmittedOnce :
    ∃ s : State, s = { State.reset with answers := [0] } ∧ Ready s ∧ contents s = .ok [] ∧ ValidFrame frameMax ∧
      frameMax.length ≤ 154 ∧ ValidFrame frameMin ∧ s.answers = 0 :: [] :=
  ⟨_, rfl, ready_of_idleCheck (by decide) rfl, by decide +kernel⟩

/-- S-28: noise that ends in a part of a header. -/
theorem test_witness_NoiseBeforeAFrameIsDiscarded :
    ∃ s : State, s = { State.reset with answers := [0] } ∧ Ready s ∧ contents s = .ok [] ∧
      (∀ p, ¬ HeaderAt [0x00, 0x11, 0xFD, 0xFC, 0xFB] p) ∧ ValidFrame frameG ∧ frameG.length ≤ 154 ∧
      s.answers = 0 :: [] := by
  refine ⟨_, rfl, ready_of_idleCheck (by decide) rfl, by decide, fun p h => ?_, by decide +kernel⟩
  have := h.length_le
  simp only [List.length_cons, List.length_nil] at this
  have : p = 0 ∨ p = 1 := by omega
  rcases this with rfl | rfl <;> exact absurd h (by decide)

/-- L1-5, with `BAD` and `G`. -/
theorem test_witness_RecoveryAfterACorruptedFooter :
    ∃ s : State, s = { State.reset with answers := [0] } ∧ Ready s ∧ contents s = .ok [] ∧ HeaderAt frameBad 0 ∧
      (∀ p, 1 ≤ p → ¬ HeaderAt frameBad p) ∧ frameBad.length = 10 + lengthOf frameBad ∧ frameBad.length ≤ 154 ∧
      lastBytes 4 frameBad ≠ Config.pFtr ∧ ValidFrame frameG ∧ frameG.length ≤ 154 ∧ s.answers = 0 :: [] := by
  refine ⟨_, rfl, ready_of_idleCheck (by decide) rfl, by decide, by decide, fun p h1 h => ?_, by decide +kernel⟩
  have hl : p < 18 := by
    have := h.length_le
    have : frameBad.length = 18 := rfl
    omega
  exact (show ∀ q < 18, 1 ≤ q → ¬ HeaderAt frameBad q by decide +kernel) p hl h1 h

/-- S-7's header and length with no body, and with a body that ends in a part of a header. -/
theorem test_witness_RecoveryAfterAnOversizedLength :
    ∃ s : State, s = { State.reset with answers := [0] } ∧ Ready s ∧ contents s = .ok [] ∧ s.answers = 0 :: [] ∧
      ValidFrame frameG ∧ frameG.length ≤ 154 ∧
      ∀ body ∈ [[], [0x11, 0x22, 0xFD, 0xFC, 0xFB]], ∃ big, big = [0xFD, 0xFC, 0xFB, 0xFA, 0x91, 0x00] ++ body ∧
        HeaderAt big 0 ∧ (∀ p, 1 ≤ p → ¬ HeaderAt big p) ∧ 6 ≤ big.length ∧ 144 < lengthOf big := by
  refine ⟨_, rfl, ready_of_idleCheck (by decide) rfl, by decide, rfl, by decide, by decide, fun body hb => ⟨_, rfl, ?_⟩⟩
  have hlen : body.length ≤ 5 := by
    rcases List.mem_pair.mp hb with rfl | rfl <;> decide
  have hno : ∀ q < 8, 1 ≤ q → ¬ HeaderAt ([0xFD, 0xFC, 0xFB, 0xFA, 0x91, 0x00] ++ body) q := by
    rcases List.mem_pair.mp hb with rfl | rfl <;> decide
  refine ⟨by rfl, fun p h1 h => hno p ?_ h1 h, by simp, ?_⟩
  · have := h.length_le
    simp only [List.length_append, List.length_cons, List.length_nil] at this
    omega
  · rcases List.mem_pair.mp hb with rfl | rfl <;> decide

/-- R66's example, and 141 payload bytes. -/
theorem test_witness_PseudoInstructionsExpand :
    frameOf 0x01FF 0x0000 [0x02, 0x00, 0x20, 0x00] = frameG ∧
      assembleLine (.feedframe 0x01FF 0x0000 [0x02, 0x00, 0x20, 0x00]) =
        some (0x0312 :: frameG.map (BitVec.setWidth 16)) ∧
      140 < (List.replicate 141 (0x00 : Byte)).length := by decide +kernel

/-- The clauses: any state, a held one, an idle one. -/
theorem test_witness_ForbiddenCommandsAreRefused :
    ([0x0100] : List Word) ≠ [] ∧ heldG.op = some ⟨[0x01], .ok, 0, false⟩ ∧ Idle (almostG []) := by decide +kernel

/-- R156: a word presented inside the answer stops the next step, by name. -/
theorem test_command_inside_answer_refused :
    step (hostWords .owner [0x0100] heldG) = .refused .commandDuringOperation := rfl

end Sys2Proof.Tests
end

section
/-! PROOFS. The little-endian fields of a buffer (spec/20_memory.md R31) and of the record the validator gives. -/

namespace Sys2Proof.Machine

theorem le16_of_getElem? {buf : List Byte} {off : Nat} {lo hi : Byte} (hlo : buf[off]? = some lo)
    (hhi : buf[off + 1]? = some hi) : le16 buf off = .ok (le16Bytes lo hi) := by
  simp only [le16, bufByte, hlo, hhi]

theorem le16Bytes_toNat (lo hi : Byte) : (le16Bytes lo hi).toNat = lo.toNat + 256 * hi.toNat := by
  have hl := lo.isLt
  have hh := hi.isLt
  rw [le16Bytes_eq, BitVec.toNat_ofNat]
  omega

/-- R52: the high byte of the word is discarded. -/
theorem cmdEchoOf_le16Bytes (lo hi : Byte) : cmdEchoOf (le16Bytes lo hi) = lo := by
  have hl := lo.isLt
  apply BitVec.eq_of_toNat_eq
  rw [cmdEchoOf, BitVec.extractLsb'_toNat, le16Bytes_toNat, Nat.shiftRight_zero]
  omega

/-- What acceptance says, with the record it gives (R80, R55). -/
theorem validateFn_eq_accept_iff {buf : List Byte} {d : Decoded} :
    validateFn buf = .ok (.accept d) ↔ ValidFrame buf ∧ d = frameDecoded buf := by
  rw [validateFn_eq]
  constructor
  · intro h
    have h := Except.ok.inj h
    split_ifs at h with hsize hzero htotal hhdr hftr hmin
    cases h
    exact ⟨⟨by omega, hhdr, by omega, not_not.mp htotal, not_not.mp hftr⟩, rfl⟩
  · rintro ⟨⟨hsize, hhdr, hmin, htotal, hftr⟩, rfl⟩
    rw [if_neg (by omega), if_neg (by omega), if_neg (not_not.mpr htotal), if_neg (not_not.mpr hhdr),
      if_neg (not_not.mpr hftr), if_neg (by omega)]

/-- Settles O20: an accepted buffer has at least 14 bytes, so each field's two bytes are there, and each word is the
sum `lo + 256 * hi` of its bytes, whose low byte is `lo`. -/
theorem decodedFieldsAreLittleEndian : Obligations.DecodedFieldsAreLittleEndian := by
  refine ⟨fun buf off lo hi hlo hhi => ⟨_, le16_of_getElem? hlo hhi, le16Bytes_toNat lo hi⟩, fun buf d h => ?_⟩
  obtain ⟨⟨-, -, hmin, htotal, -⟩, rfl⟩ := validateFn_eq_accept_iff.mp h
  have hbyte : ∀ off < 14, buf[off]? = some (buf.getD off 0) := fun off hoff => by
    rw [List.getElem?_eq_getElem (by omega), List.getElem_eq_getD]
  have hword := le16_of_getElem? (hbyte 6 (by omega)) (hbyte 7 (by omega))
  exact ⟨le16_eq (by omega), le16_eq (by omega), hbyte 6 (by omega), _, hword, (cmdEchoOf_le16Bytes _ _).symm⟩

end Sys2Proof.Machine
end

section
/-! PROOFS. The assembler's pseudo-instructions: the fields of the frame FEEDFRAME builds (spec/30_encoding.md R50,
R66), and the expansion of each pseudo-instruction. -/

namespace Sys2Proof.Machine

variable {c16 s16 : Word} {payload : List Byte}

/-- R31: the arithmetic meaning of a word's two bytes in stream order. -/
theorem toNat_lowByte_add_highByte (w : Word) :
    (w.extractLsb' 0 8).toNat + 256 * (w.extractLsb' 8 8).toNat = w.toNat := by
  have hw := w.isLt
  simp only [BitVec.extractLsb'_toNat, Nat.shiftRight_eq_div_pow]
  omega

@[simp] theorem length_frameOf : (frameOf c16 s16 payload).length = 14 + payload.length := by
  simp only [frameOf, le16Stream, Config.pHdr, Config.pFtr, List.length_append, List.length_cons, List.length_nil]
  omega

theorem headerAt_frameOf : HeaderAt (frameOf c16 s16 payload) 0 := rfl

theorem drop_frameOf_footer : (frameOf c16 s16 payload).drop (10 + payload.length) = Config.pFtr :=
  List.drop_left' (by simp [le16Stream, Config.pHdr]; omega)

/-- R51: the length field counts the two words and the payload, as long as that count fits in a word. -/
theorem lengthOf_frameOf (h : payload.length < 65532) : lengthOf (frameOf c16 s16 payload) = 4 + payload.length := by
  have hsum : lengthOf (frameOf c16 s16 payload) = (BitVec.ofNat 16 (4 + payload.length)).toNat :=
    toNat_lowByte_add_highByte _
  rw [hsum, BitVec.toNat_ofNat]
  omega

theorem validFrame_frameOf (h : payload.length < 65532) : ValidFrame (frameOf c16 s16 payload) := by
  have hlen : lengthOf (frameOf c16 s16 payload) = 4 + payload.length := lengthOf_frameOf h
  refine ⟨?_, headerAt_frameOf, ?_, ?_, ?_⟩
  · rw [length_frameOf]; omega
  · rw [hlen]; omega
  · rw [hlen, length_frameOf]; omega
  · rw [length_frameOf, show 14 + payload.length - 4 = 10 + payload.length by omega, drop_frameOf_footer]

theorem frameDecoded_frameOf (h : payload.length < 65532) :
    frameDecoded (frameOf c16 s16 payload) =
      ⟨BitVec.ofNat 16 (4 + payload.length), c16.extractLsb' 0 8, s16⟩ := by
  have hstatus : ((frameOf c16 s16 payload).getD 8 0).toNat + 256 * ((frameOf c16 s16 payload).getD 9 0).toNat =
      s16.toNat := toNat_lowByte_add_highByte s16
  rw [frameDecoded, lengthOf_frameOf h, hstatus, BitVec.ofNat_toNat, BitVec.setWidth_eq]
  rfl

/-- R65: an operand list of 1 to 255 bytes is not refused. -/
theorem assembleFeedn_eq_some {bytes : List Byte} (h1 : 1 ≤ bytes.length) (h2 : bytes.length ≤ 255) :
    assembleFeedn bytes = some (encode (.feedn (bytes.map payloadWord))) :=
  if_neg (by rw [Config.pMaxChunk]; omega)

theorem assembleLine_feedframe (h : payload.length ≤ 140) :
    assembleLine (.feedframe c16 s16 payload) = some (encode (.feedn ((frameOf c16 s16 payload).map payloadWord))) := by
  rw [assembleLine, if_neg (by omega)]
  exact assembleFeedn_eq_some (by rw [length_frameOf]; omega) (by rw [length_frameOf]; omega)

theorem assembleLine_feedframe_refused (h : 140 < payload.length) :
    assembleLine (.feedframe c16 s16 payload) = none :=
  if_pos h

theorem assembleLine_feeds (bytes : List Byte) :
    assembleLine (.feeds bytes) = some ((feedEach bytes).flatMap encode) := by
  rw [assembleLine, feedEach, List.flatMap_map]

/-- Settles O56: with at most 140 payload bytes the frame has at most 154 bytes, which FEEDN takes, and its length
field is exact; the other lines are their expansions. -/
theorem pseudoInstructionsExpand : Obligations.PseudoInstructionsExpand := by
  refine ⟨fun c16 s16 payload h => ?_, fun _ _ _ => assembleLine_feedframe_refused, assembleLine_feeds, rfl⟩
  have hfits : payload.length < 65532 := by omega
  exact ⟨assembleLine_feedframe h, validFrame_frameOf hfits, frameDecoded_frameOf hfits⟩

end Sys2Proof.Machine
end

section
/-! PROOFS. The verdict of the Frame Validator by the order of its checks (spec/40_frame_validator.md R80, R81), and
VALIDATE as an operation: its operand buffer (spec/30_encoding.md R59) and its response (R83). -/

namespace Sys2Proof.Machine

variable {s : State} {payload : List Word} {v : Verdict}

/-- Settles O18: each clause denies the checks before its own in `validateFn_eq`, the validator as one chain of
conditions, and so selects one branch of it. -/
theorem validatorReportsTheEarliestFailure : Obligations.ValidatorReportsTheEarliestFailure := by
  intro buf
  refine ⟨fun hshort => ?_, fun hsize hzero => ?_, fun hsize hzero htotal => ?_, fun hsize hzero htotal hhdr => ?_,
    fun hsize hzero htotal hhdr hftr => ?_, fun hsize hzero htotal hhdr hftr hmin => ?_,
    fun hvalid => validateFn_eq_accept_iff.mpr ⟨hvalid, rfl⟩⟩ <;> rw [validateFn_eq]
  · rw [if_pos hshort]
  · rw [if_neg (not_lt.mpr hsize), if_pos hzero]
  · rw [if_neg (not_lt.mpr hsize), if_neg hzero, if_pos htotal]
  · rw [if_neg (not_lt.mpr hsize), if_neg hzero, if_neg (not_not.mpr htotal), if_pos hhdr]
  · rw [if_neg (not_lt.mpr hsize), if_neg hzero, if_neg (not_not.mpr htotal), if_neg (not_not.mpr hhdr), if_pos hftr]
  · rw [if_neg (not_lt.mpr hsize), if_neg hzero, if_neg (not_not.mpr htotal), if_neg (not_not.mpr hhdr),
      if_neg (not_not.mpr hftr), if_pos hmin]

/-- R59: a payload word gives its low byte when its bits 15:8 are zero, and otherwise there is no buffer. -/
theorem operandBuffer_cons (w : Word) (ws : List Word) : operandBuffer (w :: ws) =
    if w.extractLsb' 8 8 = 0#8 then (operandBuffer ws).map (w.extractLsb' 0 8 :: ·) else none := by
  rw [operandBuffer, payloadByte]
  by_cases hw : w.extractLsb' 8 8 = 0#8
  · cases operandBuffer ws <;> simp [hw]
  · simp [hw]

theorem operandBuffer_eq_map (h : ∀ w ∈ payload, w.extractLsb' 8 8 = 0#8) :
    operandBuffer payload = some (payload.map fun w => w.extractLsb' 0 8) := by
  induction payload with
  | nil => rfl
  | cons w ws ih =>
    obtain ⟨hw, hws⟩ := List.forall_mem_cons.mp h
    rw [operandBuffer_cons, if_pos hw, ih hws]
    rfl

theorem operandBuffer_eq_none {w : Word} (hmem : w ∈ payload) (hw : w.extractLsb' 8 8 ≠ 0#8) :
    operandBuffer payload = none := by
  induction payload with
  | nil => cases hmem
  | cons v vs ih =>
    rw [operandBuffer_cons]
    obtain rfl | hmem := List.mem_cons.mp hmem
    · rw [if_neg hw]
    · rw [ih hmem, Option.map_none, ite_self]

theorem whenIdle_idle {r : Host.Outcome State Fault Refusal} (hi : Idle s) : whenIdle s r = r := by
  rw [whenIdle, hi]

/-- R83: no payload, too long a payload and a word that is no byte are all the malformed call of R131. -/
theorem exec_validate_malformed (hi : Idle s)
    (h : payload.length = 0 ∨ 154 < payload.length ∨ ∃ w ∈ payload, w.extractLsb' 8 8 ≠ 0#8) :
    exec (.validate payload) s = .next (malformedCall s) := by
  rw [exec, execValidate, whenIdle_idle hi]
  obtain hlen | hlen | ⟨w, hmem, hw⟩ := h
  · rw [if_pos (.inl hlen)]
  · rw [if_pos (.inr hlen)]
  · rw [operandBuffer_eq_none hmem hw]
    exact ite_self _

/-- R83: a payload that is an operand buffer is answered with the verdict on it, and only the response is new. -/
theorem exec_validate_verdict (hi : Idle s) (hmin : 1 ≤ payload.length) (hmax : payload.length ≤ 154)
    (hhigh : ∀ w ∈ payload, w.extractLsb' 8 8 = 0#8)
    (hv : validateFn (payload.map fun w => w.extractLsb' 0 8) = .ok v) :
    exec (.validate payload) s = .next (respond (verdictWords v) s) := by
  rw [exec, execValidate, whenIdle_idle hi, if_neg (by rw [Config.pMaxTotal]; omega),
    operandBuffer_eq_map hhigh]
  simp only [validateBuffer, hv, outcome]

/-- R62: with `CONSUMED` 0, `RSP0` is the status code alone. -/
theorem rsp0_zero (code : Status) : rsp0 0 code = (statusCode code).setWidth 16 := by
  cases code <;> rfl

/-- Settles O23: the encoding is R58's by definition; a malformed payload has no operand buffer of 1 to 154 bytes; any
other is answered with the verdict, which `validateFn_eq` shows always to be there. -/
theorem validateRespondsTheVerdict : Obligations.ValidateRespondsTheVerdict := by
  refine fun s payload hi => ⟨rfl, exec_validate_malformed hi, fun hmin hmax hhigh =>
    ⟨fun d hv => ?_, fun code hv => ?_, _, validateFn_eq _⟩⟩
  · rw [exec_validate_verdict hi hmin hmax hhigh hv]; rfl
  · rw [exec_validate_verdict hi hmin hmax hhigh hv, verdictWords, rsp0_zero]; rfl

end Sys2Proof.Machine
end

section
/-! PROOFS. What `RESYNC` keeps, by the headers of the bytes it scans (spec/41_stream_decoder.md R90). -/

namespace Sys2Proof.Machine

variable {buf : List Byte} {start : Nat}

/-- R90: the backward scan reaches every offset from the scan start on where a header can stand, so it stops at the
highest one. -/
theorem resyncBytes_of_latest_header {p : Nat} (hp : start ≤ p) (hhdr : HeaderAt buf p)
    (hlast : ∀ q, p < q → ¬ HeaderAt buf q) : resyncBytes start buf = (buf.drop p, true) := by
  have hroom := hhdr.length_le
  have hscan : latestHeader buf start (buf.length - 3 - start) = some p :=
    latestHeader_eq_some.mpr ⟨hp, by omega, hhdr, fun q hq _ => hlast q hq⟩
  rw [resyncBytes, hscan]

/-- R90: with no header from the scan start on, at most three bytes are kept, which may begin one. -/
theorem resyncBytes_of_no_header (hnone : ∀ p, start ≤ p → ¬ HeaderAt buf p) :
    resyncBytes start buf = (lastBytes (min 3 (buf.length - start)) buf, false) := by
  have hscan : latestHeader buf start (buf.length - 3 - start) = none :=
    latestHeader_eq_none.mpr fun q hq _ => hnone q hq
  rw [resyncBytes, hscan]

/-- Settles O26: `resync_spec` gives the state as `resyncBytes` says, and each clause on the headers is one value of
`resyncBytes`. -/
theorem resyncKeepsTheLatestHeader : Obligations.ResyncKeepsTheLatestHeader := by
  intro s buf start hbuf hstart
  obtain ⟨t, hrun, hcont, hsync, het, honly, -, habove⟩ := resync_spec hbuf hstart
  refine ⟨t, hrun, het, honly, fun p hp hhdr hlast => ?_, fun hnone => ?_, habove⟩
  · rw [hsync, hcont, resyncBytes_of_latest_header hp hhdr hlast]
    exact ⟨rfl, rfl⟩
  · rw [hsync, hcont, resyncBytes_of_no_header hnone]
    exact ⟨rfl, rfl⟩

end Sys2Proof.Machine
end

section
/-! PROOFS. FEED by what its one byte step does (spec/41_stream_decoder.md R92, R98): the response it gives, and the
header search (R93). -/

namespace Sys2Proof.Machine

variable {s t : State} {a : Sess} {b : Byte} {buf : List Byte}

/-- R98: when its byte step ends with an event, FEED responds `CONSUMED` 1 and the status of that event. -/
theorem exec_feed_of_ended {ev : Event} (hi : Idle s) (hsink : s.sinkPresent = true)
    (hstep : byteStep b s = .ok (.ended ev t)) :
    exec (.feed b) s = .next (respond [rsp0 1 (eventStatus ev)] t) := by
  rw [exec, execFeed, whenIdle_idle hi, if_pos hsink, feedBytes, runChunk]
  simp only [hstep]
  rfl

theorem respond_of_sessionOnly {ws : List Word} (h : SessionOnly s t) :
    respond ws t = { s with
      acc := t.acc, fill := t.fill, et := t.et, synced := t.synced, out := s.out ++ [.response ws] } :=
  congrArg (respond ws) h

theorem Sess.await_short (h : a.bytes.length < 4) : a.await = a := if_pos h

theorem Sess.await_header (h : a.bytes = Config.pHdr) : a.await = ⟨Config.pHdr, 0, true⟩ := by
  rw [Sess.await, h]
  rfl

/-- R93: a full window that is not the header loses its first byte. -/
theorem Sess.await_other (hlen : a.bytes.length = 4) (h : a.bytes ≠ Config.pHdr) :
    a.await = ⟨lastBytes 3 a.bytes, a.et, a.synced⟩ := by
  rw [Sess.await, if_neg (by omega), if_neg]
  rwa [hlen, Nat.sub_self, List.drop_zero]

/-- The header search never sets `ET` (R93). -/
theorem Sess.await_et (h : a.et = 0) : a.await.et = 0 := by
  unfold Sess.await
  split_ifs
  · exact h
  · rfl
  · exact h

/-- R93: FEED in the phase AWAITING_HEADER answers `Ok`, and leaves the header search's session. -/
theorem exec_feed_awaiting (hr : Ready s) (hsync : s.synced = false) (hbuf : contents s = .ok buf) :
    ∃ t, exec (.feed b) s = .next (respond [0x0100] t) ∧ SessionOnly s t ∧ Has t (Sess.await ⟨buf ++ [b], 0, false⟩) := by
  have hhas : Has s ⟨buf, 0, false⟩ := ⟨hbuf, by rw [((hr.inv.idle hr.idle).2.awaiting hsync).2]; rfl, hsync⟩
  have hok : (⟨buf, 0, false⟩ : Sess).Ok := hhas.inv_iff.mp (hr.inv.idle hr.idle).2
  obtain ⟨t, hstep, hreach⟩ : StepReaches s (byteStep b s) (.ended .quiet (Sess.await ⟨buf ++ [b], 0, false⟩)) :=
    byteStep_reaches b hhas hr.inv.accOk hok
  exact ⟨t, exec_feed_of_ended hr.idle hr.sink hstep, hreach.only, hreach.has⟩

/-- Settles O29: the header search on the appended bytes, one clause for each of its branches. -/
theorem feedWhileAwaitingHeader : Obligations.FeedWhileAwaitingHeader := by
  intro s b buf hr hsync hbuf
  obtain ⟨t, hexec, honly, hhas⟩ := exec_feed_awaiting (b := b) hr hsync hbuf
  have het : t.et = 0 := BitVec.eq_of_toNat_eq (hhas.et.trans (Sess.await_et rfl))
  refine ⟨_, hexec, ?_, fun hlen => ?_, fun hlen hhdr => ?_, fun hlen hhdr => ?_⟩
  · rw [respond_of_sessionOnly honly, het]
  · rw [Sess.await_short (by rw [List.length_append]; exact Nat.succ_lt_succ hlen)] at hhas
    exact ⟨hhas.bytes, hhas.synced⟩
  · rw [Sess.await_header hhdr] at hhas
    exact ⟨hhas.bytes, hhas.synced⟩
  · rw [Sess.await_other (by simpa using hlen) hhdr] at hhas
    exact ⟨hhas.bytes, hhas.synced⟩

end Sys2Proof.Machine
end

section
/-! PROOFS. FEED of the byte at which a candidate frame turns out to be corrupt: an oversized length
(spec/41_stream_decoder.md R95), a wrong footer, or a buffer the validator rejects (R96). -/

namespace Sys2Proof.Machine

variable {s u : State} {b : Byte} {buf : List Byte} {code : Status}

/-! ### The byte step in the phase ACCUMULATING -/

/-- R92: with `SYNCED` set, the byte step is the append and then ACCUMULATE. -/
theorem byteStep_accumulating (b : Byte) (hr : Ready s) (hsync : s.synced = true) (hbuf : contents s = .ok buf) :
    ∃ u, appendByte b s = .ok u ∧ contents u = .ok (buf ++ [b]) ∧ u.et = s.et ∧ SessionOnly s u ∧
      byteStep b s = accumulate u := by
  have hroom := (hr.inv.idle hr.idle).2.room
  obtain ⟨u, happ, hcont, -, hu, -⟩ := appendByte_spec b hbuf hroom
  have hphase : accumulating u = true := by rw [hu]; exact hsync
  refine ⟨u, happ, hcont, by rw [hu], by rw [SessionOnly, hu], ?_⟩
  simp only [byteStep, overflowGuard_room hroom, processByte, happ, if_pos hphase]

/-- R95: the length decode raises the error when the declared size is above 154. -/
theorem accumulate_oversized (hbuf : contents u = .ok buf) (het : u.et = 0) (hlen : 6 ≤ buf.length)
    (hbig : 154 < 10 + lengthOf buf) : accumulate u = endStep (raiseErr .bufferTooSmall u) := by
  rw [accumulate, if_pos ⟨het, by rwa [← contents_length hbuf]⟩, accLe16_spec hbuf hlen]
  exact if_pos (.inl (by rwa [totalSize_lengthOf]))

/-- R94: from the 6th byte on, with a size that fits, FRAME_READY is tested with `ET` the candidate's total size. -/
theorem accumulate_decoded (hbuf : contents u = .ok buf) (hlen : 6 ≤ buf.length) (hfits : candidateTotal u buf ≤ 154) :
    accumulate u = frameReady (setEt (candidateTotal u buf) u) := by
  unfold candidateTotal at hfits ⊢
  by_cases het : u.et = 0
  · rw [if_pos het] at hfits ⊢
    rw [accumulate, if_pos ⟨het, by rwa [← contents_length hbuf]⟩, accLe16_spec hbuf hlen]
    simp only [totalSize_lengthOf, Config.pCap, Config.pMaxTotal]
    rw [if_neg (by omega)]
  · have hself : setEt u.et.toNat u = u := by rw [setEt, BitVec.ofNat_toNat, BitVec.setWidth_eq]
    rw [if_neg het, accumulate, if_neg (fun h => het h.1), hself]

/-! ### The error event -/

theorem scanHeader_setEt (n lo k : Nat) : scanHeader (setEt n s) lo k = scanHeader s lo k := by
  induction k with
  | zero => rfl
  | succ k ih => rw [scanHeader, scanHeader, ih]; rfl

theorem moveAndSync_setEt (n off k : Nat) (flag : Bool) :
    moveAndSync off k flag (setEt n s) = moveAndSync off k flag s := by
  unfold moveAndSync moveToFront
  rw [memRead_congr (setEt_acc s n)]
  cases memRead s off k with
  | error f => rfl
  | ok v => simp only [memWrite]; split_ifs <;> rfl

/-- `RESYNC` clears `ET` and does not read it (R90), so the `ET` written by the length decode leaves no trace. -/
theorem resync_setEt (n start : Nat) : resync start (setEt n s) = resync start s := by
  simp only [resync, setEt_fill, scanHeader_setEt, moveAndSync_setEt]

theorem raiseErr_setEt (n : Nat) : raiseErr code (setEt n s) = raiseErr code s := by
  rw [raiseErr, raiseErr, resync_setEt]

/-- R95, R96, R98: when its byte step raises an error after the append, FEED leaves what `RESYNC(1)` leaves and reports
that error. -/
theorem exec_feed_of_raiseErr (hr : Ready s) (happ : appendByte b s = .ok u) (honly : SessionOnly s u)
    (hbuf : contents u = .ok (buf ++ [b])) (hstep : byteStep b s = endStep (raiseErr code u)) :
    ∃ u v, appendByte b s = .ok u ∧ resync 1 u = .ok v ∧
      exec (.feed b) s = .next { v with out := s.out ++ [.response [rsp0 1 code]] } := by
  obtain ⟨v, hresync, -, -, -, hv, -⟩ := resync_spec (start := 1) hbuf (by simp)
  obtain ⟨-, -, -, -, -, -, hout, -⟩ := (honly.trans hv).frame
  rw [raiseErr, hresync] at hstep
  exact ⟨u, v, happ, hresync, by rw [exec_feed_of_ended hr.idle hr.sink hstep, respond, hout]; rfl⟩

/-- Settles O31: the length decode of the appended bytes raises the error. -/
theorem feedOfAnOversizedLength : Obligations.FeedOfAnOversizedLength := by
  intro s b buf hr hsync hbuf het hlen hbig
  obtain ⟨u, happ, hcont, hetu, honly, hstep⟩ := byteStep_accumulating b hr hsync hbuf
  have hsix : 6 ≤ (buf ++ [b]).length := by simpa using hlen
  rw [accumulate_oversized hcont (hetu.trans het) hsix hbig] at hstep
  exact exec_feed_of_raiseErr hr happ honly hcont hstep

/-! ### A complete candidate frame -/

section
variable (hbuf : contents u = .ok buf) (hmin : 4 ≤ u.et.toNat) (hmax : u.et.toNat ≤ buf.length)
include hbuf hmin hmax

theorem frameIsReady_of_le : frameIsReady u = true := by
  have hne : u.et ≠ 0 := fun h => by rw [h] at hmin; exact absurd hmin (by decide)
  rw [frameIsReady, Bool.and_eq_true, decide_eq_true_eq, bne_iff_ne]
  exact ⟨hne, by rwa [← contents_length hbuf]⟩

/-- The candidate footer is the last 4 bytes of the candidate frame. -/
theorem readFooter_of_le : readFooter u u.et.toNat = .ok (lastBytes 4 (buf.take u.et.toNat)) := by
  rw [readFooter, if_neg (by rw [Config.pFtrLen]; omega), memRead_of_contents hbuf (by rw [Config.pFtrLen]; omega),
    lastBytes, List.length_take, Nat.min_eq_left hmax, List.drop_take]
  congr 2
  rw [Config.pFtrLen]
  omega

/-- R96: the footer check comes first. -/
theorem frameReady_wrong_footer (hftr : lastBytes 4 (buf.take u.et.toNat) ≠ Config.pFtr) :
    frameReady u = endStep (raiseErr .invalidFooter u) := by
  rw [frameReady, if_pos (frameIsReady_of_le hbuf hmin hmax), readFooter_of_le hbuf hmin hmax]
  exact if_pos hftr

/-- R96: behind a right footer, any rejection by the validator is `InvalidPacket`; its own code is not reported. -/
theorem frameReady_rejected {reason : Status} (hftr : lastBytes 4 (buf.take u.et.toNat) = Config.pFtr)
    (hrej : validateFn (buf.take u.et.toNat) = .ok (.reject reason)) :
    frameReady u = endStep (raiseErr .invalidPacket u) := by
  have hread : memRead u 0 u.et.toNat = .ok (buf.take u.et.toNat) := by
    rw [memRead_of_contents hbuf (by omega), List.drop_zero]
  rw [frameReady, if_pos (frameIsReady_of_le hbuf hmin hmax), readFooter_of_le hbuf hmin hmax]
  simp only [hftr, ne_eq, not_true, if_false, hread, hrej]

end

/-- I3 of R100: a candidate's total size is at least the 10 bytes that stand around its payload. -/
theorem ten_le_candidateTotal (hinv : SessionInv s) (buf : List Byte) : 10 ≤ candidateTotal s buf := by
  unfold candidateTotal
  split_ifs with het
  · omega
  · exact (hinv.expected het).2.1

/-- R94, R96: the byte that completes a candidate frame is appended, and FRAME_READY is tested with `ET` the total size
of that frame, which the appended bytes reach. -/
theorem byteStep_completing {e : Nat} (b : Byte) (hr : Ready s) (hsync : s.synced = true)
    (hbuf : contents s = .ok buf) (hlen : 6 ≤ buf.length + 1) (he : candidateTotal s (buf ++ [b]) = e) (hfits : e ≤ 154) :
    ∃ u, appendByte b s = .ok u ∧ contents (setEt e u) = .ok (buf ++ [b]) ∧ (setEt e u).et.toNat = e ∧
      SessionOnly s u ∧ byteStep b s = frameReady (setEt e u) := by
  obtain ⟨u, happ, hcont, hetu, honly, hstep⟩ := byteStep_accumulating b hr hsync hbuf
  have htotal : candidateTotal u (buf ++ [b]) = e := by rw [← he, candidateTotal, candidateTotal, hetu]
  refine ⟨u, happ, hcont, ofNat8_toNat (by omega), honly, ?_⟩
  rw [hstep, accumulate_decoded hcont (by simpa using hlen) (by rwa [htotal]), htotal]

/-- Settles O32: each clause is one check of FRAME_READY on the completed candidate. -/
theorem feedOfABadFrame : Obligations.FeedOfABadFrame := by
  intro s b buf hr hsync hbuf hlen hfits hdone
  have hten := ten_le_candidateTotal (hr.inv.idle hr.idle).2 (buf ++ [b])
  generalize he : candidateTotal s (buf ++ [b]) = e at hfits hdone hten ⊢
  obtain ⟨u, happ, hcont, hete, honly, hstep⟩ := byteStep_completing b hr hsync hbuf hlen he hfits
  have hmin : 4 ≤ (setEt e u).et.toNat := by omega
  have hmax : (setEt e u).et.toNat ≤ (buf ++ [b]).length := by rw [hete, List.length_append]; exact hdone
  refine ⟨fun hftr => ?_, fun reason hftr hrej => ?_⟩
  · rw [frameReady_wrong_footer hcont hmin hmax (by rwa [hete]), raiseErr_setEt] at hstep
    exact exec_feed_of_raiseErr hr happ honly hcont hstep
  · rw [frameReady_rejected hcont hmin hmax (by rwa [hete]) (by rwa [hete]), raiseErr_setEt] at hstep
    exact exec_feed_of_raiseErr hr happ honly hcont hstep

end Sys2Proof.Machine
end

section
/-! PROOFS. Session control and the reserved commands (spec/42_session_control.md R120 to R122): INIT, and the command
words that are malformed calls whatever the state. -/

namespace Sys2Proof.Machine

variable {s : State} {w : Word} {ws payload : List Word}

/-! ### The malformed encodings -/

/-- R121, R122: between operations, a malformed encoding is answered `InvalidArguments` and nothing else changes. -/
theorem refuseEncoding_idle (hi : Idle s) :
    refuseEncoding s = .next { s with out := s.out ++ [.response [0x0001]] } := whenIdle_idle hi

/-- R58: a command word that calls for no payload is a command by itself. -/
theorem takeCommand_single (hport : s.cmdPort = w :: ws) (hcount : payloadCount w = 0) :
    takeCommand s = some (decodeCommand w [], { s with cmdPort := ws }) := by
  have hdecode : decode (w :: ws) = .ok (decodeCommand w [], ws) := by
    rw [decode, hcount, if_neg (Nat.not_lt_zero _), List.take_zero, List.drop_zero]
  simp only [takeCommand, hport, hdecode]

/-- R121, R122: the step on a word whose command is a malformed encoding takes that word alone. -/
theorem step_of_refused_word (hp : Proper s) (hi : Idle s) (hport : s.cmdPort = w :: ws) (hcount : payloadCount w = 0)
    (hexec : ∀ t, exec (decodeCommand w []) t = refuseEncoding t) :
    step s = .next { s with cmdPort := ws, out := s.out ++ [.response [0x0001]] } := by
  rw [step_performs hp hi (takeCommand_single hport hcount), hexec]
  exact refuseEncoding_idle (s := { s with cmdPort := ws }) hi

/-! ### The words of the reserved rows and of INIT_BAD -/

theorem opcField_toNat (w : Word) : (opcField w).toNat = w.toNat / 256 := by
  have hw := w.isLt
  rw [opcField, BitVec.extractLsb'_toNat, Nat.shiftRight_eq_div_pow]
  omega

theorem immField_toNat (w : Word) : (immField w).toNat = w.toNat % 256 := by
  rw [immField, BitVec.extractLsb'_toNat, Nat.shiftRight_zero]

/-- R57, R121: an `OPC` outside 0x01 to 0x04 is that of a RESERVED row, and each of the eight rows refuses. -/
theorem exec_decodeCommand_reserved (t : State)
    (h1 : opcField w ≠ 0x01) (h2 : opcField w ≠ 0x02) (h3 : opcField w ≠ 0x03) (h4 : opcField w ≠ 0x04) :
    exec (decodeCommand w payload) t = refuseEncoding t := by
  simp only [decodeCommand, if_neg h1, if_neg h2, if_neg h3, if_neg h4]
  split_ifs <;> rfl

/-- R122: INIT wins only on the word 0x0100. -/
theorem decodeCommand_initBad (hopc : opcField w = 0x01) (himm : immField w ≠ 0x00) :
    decodeCommand w payload = .initBad (immField w) := by
  simp only [decodeCommand, if_pos hopc, if_neg himm]

/-- R58: only the words of FEEDN and VALIDATE call for a payload. -/
theorem payloadCount_eq_zero (h3 : opcField w ≠ 0x03) (h4 : opcField w ≠ 0x04) : payloadCount w = 0 :=
  if_neg (not_or.mpr ⟨h3, h4⟩)

/-! ### The obligations -/

/-- Settles O13: the encoding is R57's by definition; between operations INIT is the three updates and the response. -/
theorem initReinitializesTheSession : Obligations.InitReinitializesTheSession :=
  ⟨rfl, fun _ hi => whenIdle_idle hi⟩

/-- Settles O14: an `OPC` of 0x00 or at least 0x05 is none of the four codes with a meaning. -/
theorem reservedOpcodesAreMalformedCalls : Obligations.ReservedOpcodesAreMalformedCalls := by
  intro s w ws hi hp hport (hres : opcField w = 0x00 ∨ 5 ≤ (opcField w).toNat)
  have hne : ∀ opc : Byte, opc ≠ 0x00 → opc.toNat < 5 → opcField w ≠ opc := by
    rintro _ hzero hlt rfl
    exact hres.elim hzero (Nat.not_le_of_lt hlt)
  have h3 := hne 0x03 (by decide) (by decide)
  have h4 := hne 0x04 (by decide) (by decide)
  exact step_of_refused_word hp hi hport (payloadCount_eq_zero h3 h4) fun t =>
    exec_decodeCommand_reserved t (hne 0x01 (by decide) (by decide)) (hne 0x02 (by decide) (by decide)) h3 h4

/-- Settles O16: the words 0x0101 to 0x01FF are those with `OPC` 0x01 and a nonzero `IMM8`, which decode to INIT_BAD. -/
theorem initWithNonzeroImmediateIsMalformed : Obligations.InitWithNonzeroImmediateIsMalformed := by
  refine fun s hi => ⟨fun _ _ => refuseEncoding_idle hi, fun w ws hp hport hmin hmax => ?_⟩
  have hquot : w.toNat / 256 = 1 := by omega
  have hopc : opcField w = 0x01 := BitVec.eq_of_toNat_eq ((opcField_toNat w).trans hquot)
  have himm : immField w ≠ 0x00 := fun h => by
    have hzero : w.toNat % 256 = 0 := by rw [← immField_toNat, h]; rfl
    omega
  have hcount : payloadCount w = 0 := payloadCount_eq_zero (by rw [hopc]; decide) (by rw [hopc]; decide)
  exact step_of_refused_word hp hi hport hcount fun t => by rw [decodeCommand_initBad hopc himm]; rfl

end Sys2Proof.Machine
end

section
/-! PROOFS. The command port (spec/30_encoding.md R56 to R61): the decoder and the encoder are inverse to each other on
well-formed commands, every word is of the table row of its command, and what the step takes off the port. -/

namespace Sys2Proof.Machine

open Sys2Proof.Laws

variable {s : State} {i : Instr} {w : Word} {opc imm8 : Byte} {ws rest payload : List Word}

/-! ### The decoder on a command word -/

/-- R58: once the payload words a command word calls for are there, the command is taken and the words after it are left. -/
theorem decode_cons_append (h : payload.length = payloadCount w) :
    decode (w :: (payload ++ rest)) = .ok (decodeCommand w payload, rest) := by
  rw [decode, if_neg (by simp [h]), ← h, List.take_left, List.drop_left]

/-- R58: what decodes is a command word with the payload words it calls for. -/
theorem decode_eq_ok (h : decode ws = .ok (i, rest)) :
    ∃ w payload, ws = w :: (payload ++ rest) ∧ payload.length = payloadCount w ∧ i = decodeCommand w payload := by
  cases ws with
  | nil => cases h
  | cons w ws =>
    rw [decode] at h
    split_ifs at h with hlen
    cases h
    exact ⟨w, _, by rw [List.take_append_drop], List.length_take_of_le (not_lt.mp hlen), rfl⟩

/-- R57: the command of a word made of its two fields. -/
theorem decodeCommand_commandWord (opc imm8 : Byte) : decodeCommand (commandWord opc imm8) payload =
    if opc = 0x01 then (if imm8 = 0x00 then .init else .initBad imm8)
    else if opc = 0x02 then .feed imm8
    else if opc = 0x03 then .feedn payload
    else if opc = 0x04 then .validate payload
    else if opc = 0x00 then .reserved00 imm8
    else if opc = 0x05 then .reserved05 imm8
    else if opc.extractLsb' 1 7 = 3#7 then .reserved06 (opc.extractLsb' 0 1) imm8
    else if opc.extractLsb' 3 5 = 1#5 then .reserved08 (opc.extractLsb' 0 3) imm8
    else if opc.extractLsb' 4 4 = 1#4 then .reserved10 (opc.extractLsb' 0 4) imm8
    else if opc.extractLsb' 5 3 = 1#3 then .reserved20 (opc.extractLsb' 0 5) imm8
    else if opc.extractLsb' 6 2 = 1#2 then .reserved40 (opc.extractLsb' 0 6) imm8
    else .reserved80 (opc.extractLsb' 0 7) imm8 := by
  simp only [decodeCommand, opcField_commandWord, immField_commandWord]

/-- The `OPC` values that have a row of their own. -/
abbrev SingleOpc (opc : Byte) : Prop := opc ∈ ([0x01, 0x02, 0x03, 0x04, 0x00, 0x05] : List Byte)

theorem decodeCommand_ranges (h : ¬ SingleOpc opc) : decodeCommand (commandWord opc imm8) payload =
    if opc.extractLsb' 1 7 = 3#7 then .reserved06 (opc.extractLsb' 0 1) imm8
    else if opc.extractLsb' 3 5 = 1#5 then .reserved08 (opc.extractLsb' 0 3) imm8
    else if opc.extractLsb' 4 4 = 1#4 then .reserved10 (opc.extractLsb' 0 4) imm8
    else if opc.extractLsb' 5 3 = 1#3 then .reserved20 (opc.extractLsb' 0 5) imm8
    else if opc.extractLsb' 6 2 = 1#2 then .reserved40 (opc.extractLsb' 0 6) imm8
    else .reserved80 (opc.extractLsb' 0 7) imm8 := by
  simp only [SingleOpc, List.mem_cons, List.not_mem_nil, or_false, not_or] at h
  obtain ⟨h1, h2, h3, h4, h0, h5⟩ := h
  rw [decodeCommand_commandWord, if_neg h1, if_neg h2, if_neg h3, if_neg h4, if_neg h0, if_neg h5]

/-! ### Each command decodes back -/

theorem decodeCommand_reserved06 (x : BitVec 1) :
    decodeCommand (commandWord (0b0000011#7 ++ x) imm8) payload = .reserved06 x imm8 := by
  rw [decodeCommand_ranges (by revert x; decide), if_pos BitVec.extractLsb'_append_eq_left,
    BitVec.extractLsb'_append_eq_right]

theorem decodeCommand_reserved08 (x : BitVec 3) :
    decodeCommand (commandWord (0b00001#5 ++ x) imm8) payload = .reserved08 x imm8 := by
  rw [decodeCommand_ranges (by revert x; decide), if_neg (by revert x; decide),
    if_pos BitVec.extractLsb'_append_eq_left, BitVec.extractLsb'_append_eq_right]

theorem decodeCommand_reserved10 (x : BitVec 4) :
    decodeCommand (commandWord (0b0001#4 ++ x) imm8) payload = .reserved10 x imm8 := by
  rw [decodeCommand_ranges (by revert x; decide), if_neg (by revert x; decide),
    if_neg (by revert x; decide), if_pos BitVec.extractLsb'_append_eq_left, BitVec.extractLsb'_append_eq_right]

theorem decodeCommand_reserved20 (x : BitVec 5) :
    decodeCommand (commandWord (0b001#3 ++ x) imm8) payload = .reserved20 x imm8 := by
  rw [decodeCommand_ranges (by revert x; decide), if_neg (by revert x; decide),
    if_neg (by revert x; decide), if_neg (by revert x; decide),
    if_pos BitVec.extractLsb'_append_eq_left, BitVec.extractLsb'_append_eq_right]

theorem decodeCommand_reserved40 (x : BitVec 6) :
    decodeCommand (commandWord (0b01#2 ++ x) imm8) payload = .reserved40 x imm8 := by
  rw [decodeCommand_ranges (by revert x; decide), if_neg (by revert x; decide),
    if_neg (by revert x; decide), if_neg (by revert x; decide),
    if_neg (by revert x; decide), if_pos BitVec.extractLsb'_append_eq_left, BitVec.extractLsb'_append_eq_right]

theorem decodeCommand_reserved80 (x : BitVec 7) :
    decodeCommand (commandWord (0b1#1 ++ x) imm8) payload = .reserved80 x imm8 := by
  rw [decodeCommand_ranges (by revert x; decide), if_neg (by revert x; decide),
    if_neg (by revert x; decide), if_neg (by revert x; decide),
    if_neg (by revert x; decide), if_neg (by revert x; decide), BitVec.extractLsb'_append_eq_right]

/-- R58: a well-formed command is its command word and as many payload words as that word calls for. -/
theorem encode_eq_cons (hw : i.wf = true) : ∃ w ws, encode i = w :: ws ∧ ws.length = payloadCount w := by
  cases i with
  | init => exact WordCount.init hw
  | feed b => exact WordCount.feed b hw
  | feedn payload => exact WordCount.feedn payload hw
  | validate payload => exact WordCount.validate payload hw
  | reserved00 m => exact WordCount.reserved00 m hw
  | reserved05 m => exact WordCount.reserved05 m hw
  | reserved06 x m => exact WordCount.reserved06 x m hw
  | reserved08 x m => exact WordCount.reserved08 x m hw
  | reserved10 x m => exact WordCount.reserved10 x m hw
  | reserved20 x m => exact WordCount.reserved20 x m hw
  | reserved40 x m => exact WordCount.reserved40 x m hw
  | reserved80 x m => exact WordCount.reserved80 x m hw
  | initBad m => exact WordCount.initBad m hw

/-- R57: the words of a well-formed command stand for that command. -/
theorem decodeCommand_of_encode (hw : i.wf = true) (h : encode i = w :: payload) : decodeCommand w payload = i := by
  cases i with
  | init => cases h; rfl
  | initBad m =>
    cases h
    have hm : m ≠ 0x00 := by simpa [Instr.wf] using hw
    rw [decodeCommand_commandWord, if_pos rfl, if_neg hm]
  | reserved06 x m => cases h; exact decodeCommand_reserved06 x
  | reserved08 x m => cases h; exact decodeCommand_reserved08 x
  | reserved10 x m => cases h; exact decodeCommand_reserved10 x
  | reserved20 x m => cases h; exact decodeCommand_reserved20 x
  | reserved40 x m => cases h; exact decodeCommand_reserved40 x
  | reserved80 x m => cases h; exact decodeCommand_reserved80 x
  | feed b => cases h; rw [decodeCommand_commandWord]; rfl
  | feedn ws => cases h; rw [decodeCommand_commandWord]; rfl
  | validate ws => cases h; rw [decodeCommand_commandWord]; rfl
  | reserved00 m => cases h; rw [decodeCommand_commandWord]; rfl
  | reserved05 m => cases h; rw [decodeCommand_commandWord]; rfl

/-- Settles O1: the payload words are as many as the command word calls for, and that word gives the constructor back. -/
theorem decodeOfEncodeIsTheCommand : Obligations.DecodeOfEncodeIsTheCommand := by
  intro i rest hw
  obtain ⟨w, payload, henc, hcount⟩ := encode_eq_cons hw
  rw [henc, List.cons_append, decode_cons_append hcount, decodeCommand_of_encode hw henc]

/-! ### The words of a decoded command -/

theorem eq_nil_of_payloadCount (hlen : payload.length = payloadCount (commandWord opc imm8))
    (h3 : opc ≠ 0x03) (h4 : opc ≠ 0x04) : payload = [] :=
  List.length_eq_zero_iff.mp (by rw [hlen, payloadCount_commandWord, if_neg (not_or.mpr ⟨h3, h4⟩)])

theorem countField_of_length (hlen : payload.length = imm8.toNat) : countField payload = imm8 := by
  rw [countField, hlen, BitVec.ofNat_toNat, BitVec.setWidth_eq]

/-- The count field bounds a payload. -/
theorem length_le_255 (hlen : payload.length = imm8.toNat) : payload.length ≤ 255 := by
  have := imm8.isLt
  omega

/-- The last RESERVED range takes what the others leave: the values with the top bit set. -/
theorem opc_ranges_exhaustive : ∀ opc : BitVec 8, SingleOpc opc ∨ opc.extractLsb' 1 7 = 3#7 ∨
    opc.extractLsb' 3 5 = 1#5 ∨ opc.extractLsb' 4 4 = 1#4 ∨ opc.extractLsb' 5 3 = 1#3 ∨
    opc.extractLsb' 6 2 = 1#2 ∨ opc.extractLsb' 7 1 = 1#1 := by
  decide

/-- R57, R121: in the RESERVED ranges the command keeps all bits of `OPC`. -/
theorem encode_decodeCommand_ranges (h : ¬ SingleOpc opc) :
    encode (decodeCommand (commandWord opc imm8) payload) = [commandWord opc imm8] ∧
      (decodeCommand (commandWord opc imm8) payload).wf = true := by
  have hjoin : ∀ (k n : Nat) (hi : BitVec n) (hn : n + k = 8), opc.extractLsb' k n = hi →
      (hi ++ opc.extractLsb' 0 k).cast hn = opc := by
    rintro k n _ hn rfl
    obtain rfl : n = 8 - k := by omega
    rw [BitVec.extractLsb'_append_extractLsb'_eq_extractLsb' (by omega)]
    exact BitVec.eq_of_toNat_eq (by simpa [hn] using opc.isLt)
  have hkeep : ∀ (hi : Byte), hi = opc → [commandWord hi imm8] = [commandWord opc imm8] := by rintro _ rfl; rfl
  rw [decodeCommand_ranges h]
  split_ifs with h06 h08 h10 h20 h40
  · exact ⟨hkeep _ (hjoin 1 7 _ rfl h06), rfl⟩
  · exact ⟨hkeep _ (hjoin 3 5 _ rfl h08), rfl⟩
  · exact ⟨hkeep _ (hjoin 4 4 _ rfl h10), rfl⟩
  · exact ⟨hkeep _ (hjoin 5 3 _ rfl h20), rfl⟩
  · exact ⟨hkeep _ (hjoin 6 2 _ rfl h40), rfl⟩
  · have h80 : opc.extractLsb' 7 1 = 1#1 := by
      simpa only [h, h06, h08, h10, h20, h40, false_or] using opc_ranges_exhaustive opc
    exact ⟨hkeep _ (hjoin 7 1 _ rfl h80), rfl⟩

/-- R57: the command of a command word, with the payload it calls for, is well formed and keeps every bit. -/
theorem encode_decodeCommand (hlen : payload.length = payloadCount w) :
    encode (decodeCommand w payload) = w :: payload ∧ (decodeCommand w payload).wf = true := by
  obtain ⟨opc, imm8, rfl⟩ : ∃ opc imm8, w = commandWord opc imm8 := ⟨_, _, (commandWord_fields w).symm⟩
  by_cases hopc : SingleOpc opc
  · have hnil := eq_nil_of_payloadCount hlen
    have hcount : opc = 0x03 ∨ opc = 0x04 → payload.length = imm8.toNat := fun h => by
      rw [hlen, payloadCount_commandWord, if_pos h]
    simp only [SingleOpc, List.mem_cons, List.not_mem_nil, or_false] at hopc
    rw [decodeCommand_commandWord]
    rcases hopc with rfl | rfl | rfl | rfl | rfl | rfl
    · rw [hnil (by decide) (by decide), if_pos rfl]
      split_ifs with himm
      · subst himm; exact ⟨rfl, rfl⟩
      · exact ⟨rfl, by simpa [Instr.wf] using himm⟩
    · rw [hnil (by decide) (by decide)]; exact ⟨rfl, rfl⟩
    · have hn := hcount (.inl rfl)
      exact ⟨congrArg (fun m => commandWord 0x03 m :: payload) (countField_of_length hn),
        decide_eq_true (length_le_255 hn)⟩
    · have hn := hcount (.inr rfl)
      exact ⟨congrArg (fun m => commandWord 0x04 m :: payload) (countField_of_length hn),
        decide_eq_true (length_le_255 hn)⟩
    · rw [hnil (by decide) (by decide)]; exact ⟨rfl, rfl⟩
    · rw [hnil (by decide) (by decide)]; exact ⟨rfl, rfl⟩
  · obtain rfl := eq_nil_of_payloadCount hlen (by rintro rfl; exact hopc (by decide))
      (by rintro rfl; exact hopc (by decide))
    exact encode_decodeCommand_ranges hopc

/-- Settles O2: what decodes is a command word with its payload, and those are the words of the command. -/
theorem encodeOfDecodeIsTheWords : Obligations.EncodeOfDecodeIsTheWords := by
  intro ws i rest h
  obtain ⟨w, payload, rfl, hlen, rfl⟩ := decode_eq_ok h
  obtain ⟨henc, hwf⟩ := encode_decodeCommand hlen
  exact ⟨hwf, by rw [henc, List.cons_append]⟩

/-! ### What the step takes off the port -/

theorem takeCommand_eq_none : takeCommand s = none ↔ ∃ e, decode s.cmdPort = .error e := by
  unfold takeCommand
  cases decode s.cmdPort <;> simp

theorem takeCommand_of_decode (h : decode s.cmdPort = .ok (i, rest)) :
    takeCommand s = some (i, { s with cmdPort := rest }) := by
  simp only [takeCommand, h]

/-- R58: a command with a payload word missing is not taken. -/
theorem takeCommand_of_waiting (hport : s.cmdPort = w :: ws) (hlen : ws.length < payloadCount w) :
    takeCommand s = none :=
  takeCommand_eq_none.mpr ⟨.payloadNotArrived, by rw [hport, decode, if_pos hlen]⟩

/-- R37, R58: what the block takes off the port is a well-formed command, and only its words are gone. -/
theorem takeCommand_eq_some {t : State} (h : takeCommand s = some (i, t)) :
    ∃ rest, decode s.cmdPort = .ok (i, rest) ∧ i.wf = true ∧ t = { s with cmdPort := rest } := by
  cases hdec : decode s.cmdPort with
  | error e => simp only [takeCommand, hdec] at h; cases h
  | ok p =>
    obtain ⟨j, rest⟩ := p
    rw [takeCommand_of_decode hdec] at h
    cases h
    exact ⟨rest, rfl, (encodeOfDecodeIsTheWords _ _ _ hdec).1, rfl⟩

/-- Settles O6: a decoded command is well formed, and it is what the step takes. -/
theorem stepPerformsTheDecodedCommand : Obligations.StepPerformsTheDecodedCommand := fun _ _ _ hi hp h =>
  ⟨(encodeOfDecodeIsTheWords _ _ _ h).1, step_performs hp hi (takeCommand_of_decode h)⟩

/-- Settles O7: from an empty port no command is taken. -/
theorem idleBlockHoldsItsState : Obligations.IdleBlockHoldsItsState := fun s hi hp h =>
  step_waits hp hi (takeCommand_eq_none.mpr ⟨.noCommandWord, by rw [h, decode]⟩)

/-- Settles O3: the number the statement names is the payload count, on which the decoder decides. -/
theorem commandLengthIsDecidedByItsFirstWord : Obligations.CommandLengthIsDecidedByItsFirstWord := by
  intro s w ws n hi hp hport hn
  change n = payloadCount w at hn
  subst hn
  refine ⟨fun hlen => step_waits hp hi (takeCommand_of_waiting hport hlen), fun hlen => ?_⟩
  have hcount : (ws.take (payloadCount w)).length = payloadCount w := List.length_take_of_le hlen
  have hdec : decode s.cmdPort = .ok (decodeCommand w (ws.take (payloadCount w)), ws.drop (payloadCount w)) := by
    rw [hport, decode, if_neg (not_lt.mpr hlen)]
  obtain ⟨henc, hwf⟩ := encode_decodeCommand hcount
  rw [Nat.add_comm, List.take_succ_cons, List.drop_succ_cons]
  exact ⟨_, henc, hwf, step_performs hp hi (takeCommand_of_decode hdec)⟩

/-- Settles O5: each word list, run through the decoder. -/
theorem writtenOutWordsDecode : Obligations.WrittenOutWordsDecode :=
  ⟨rfl, rfl, rfl, rfl, rfl, rfl, rfl⟩

/-! ### The opcode table -/

/-- A row that leaves `IMM8` free, by its bits of `OPC`. -/
def opcRow (r : String × Byte × Byte) : Row := ⟨r.1, commandWord r.2.1 0, commandWord r.2.2 0⟩

/-- The rows of the table after INIT: mnemonic, mask and value of `OPC`. -/
def opcRows : List (String × Byte × Byte) :=
  [("FEED", 0xFF, 0x02), ("FEEDN", 0xFF, 0x03), ("VALIDATE", 0xFF, 0x04), ("RESERVED", 0xFF, 0x00),
    ("RESERVED", 0xFF, 0x05), ("RESERVED", 0xFE, 0x06), ("RESERVED", 0xF8, 0x08), ("RESERVED", 0xF0, 0x10),
    ("RESERVED", 0xE0, 0x20), ("RESERVED", 0xC0, 0x40), ("RESERVED", 0x80, 0x80), ("INIT_BAD", 0xFF, 0x01)]

theorem opcodeTable_eq : opcodeTable = rowOf .init :: opcRows.map opcRow := by decide

/-- Every `OPC` is of exactly one row that leaves `IMM8` free, the row of the command of any word with that `OPC`, INIT
aside. -/
theorem filter_opcRows (opc : Byte) :
    (opcRows.filter fun r => decide (opc &&& r.2.1 = r.2.2)).map opcRow =
      [rowOf (decodeCommand (commandWord opc 0x01) [])] := by
  revert opc; decide +kernel

/-- The row of a command word does not depend on its payload, nor on `IMM8` but for INIT. -/
theorem rowOf_decodeCommand (h : ¬ (opc = 0x01 ∧ imm8 = 0x00)) :
    rowOf (decodeCommand (commandWord opc imm8) payload) = rowOf (decodeCommand (commandWord opc 0x01) []) := by
  simp only [decodeCommand_commandWord, apply_ite rowOf]
  simp only [rowOf]
  by_cases h1 : opc = 0x01
  · rw [if_pos h1, if_pos h1, if_neg fun h0 => h ⟨h1, h0⟩]; rfl
  · rw [if_neg h1, if_neg h1]

theorem filter_opcodeTable (opc imm8 : Byte) : opcodeTable.filter (fun r => rowMatches r (commandWord opc imm8)) =
    (if commandWord opc imm8 = 0x0100 then [rowOf .init] else []) ++
      [rowOf (decodeCommand (commandWord opc 0x01) [])] := by
  have hinit : rowMatches (rowOf .init) (commandWord opc imm8) = decide (commandWord opc imm8 = 0x0100) := by
    have hmask : commandWord opc imm8 &&& 0xFFFF = commandWord opc imm8 := BitVec.and_allOnes
    rw [rowMatches, rowOf, hmask]; rfl
  have hrest : (opcRows.map opcRow).filter (fun r => rowMatches r (commandWord opc imm8)) =
      (opcRows.filter fun r => decide (opc &&& r.2.1 = r.2.2)).map opcRow := by
    rw [List.filter_map]
    exact congrArg _ (List.filter_congr fun r _ => rowMatches_commandWord r.1 r.2.1 r.2.2 opc imm8)
  rw [opcodeTable_eq, List.filter_cons, hinit, hrest, filter_opcRows]
  by_cases hw : commandWord opc imm8 = 0x0100
  · rw [if_pos hw, decide_eq_true hw]; rfl
  · rw [if_neg hw, decide_eq_false hw]; rfl

/-- Settles O4: of the rows but INIT exactly one matches; INIT's matches 0x0100 alone. -/
theorem everyWordMatchesTheRowOfItsCommand : Obligations.EveryWordMatchesTheRowOfItsCommand := by
  refine ⟨fun w payload => ?_, fun _ => rfl⟩
  obtain ⟨opc, imm8, rfl⟩ : ∃ opc imm8, w = commandWord opc imm8 := ⟨_, _, (commandWord_fields w).symm⟩
  rw [filter_opcodeTable]
  split_ifs with hw
  · obtain rfl : opc = 0x01 := by rw [← opcField_commandWord opc imm8, hw]; rfl
    rfl
  · rw [rowOf_decodeCommand (imm8 := imm8) (by rintro ⟨rfl, rfl⟩; exact hw rfl)]; rfl

end Sys2Proof.Machine
end

section
/-! PROOFS. What a command means, said once: every command feeds a chunk, clears the session or only responds, and which
it does depends on `SINK_PRESENT` and the build parameter alone (spec/41_stream_decoder.md R98, R99,
spec/40_frame_validator.md R83, spec/42_session_control.md). The invariant through commands and steps (R100). -/

namespace Sys2Proof.Machine

variable {s t : State} {i : Instr} {b : Byte} {bytes chunk : List Byte} {payload : List Word}

/-! ### The meanings -/

/-- What a command does to a block between operations. -/
inductive Meaning where
  /-- FEED and FEEDN, once they run: the byte steps over a chunk. -/
  | feeds (chunk : List Byte)
  /-- INIT. -/
  | clears
  /-- VALIDATE and the malformed calls: a response, and nothing else. -/
  | responds (words : List Word)

/-- A meaning, performed. -/
def Meaning.perform : Meaning → State → Host.Outcome State Fault Refusal
  | .feeds chunk, s => outcome (feedBytes chunk s)
  | .clears, s => .next (respond [rsp0 0 .ok] (setSynced false (setEt 0 (setFill 0 s))))
  | .responds words, s => .next (respond words s)

/-- Which commands can have a meaning: only the feeding commands feed, from 1 to 255 bytes; and a response has one word
with `CONSUMED` 0, but for the verdict of VALIDATE. -/
def Meaning.Of (i : Instr) : Meaning → Prop
  | .feeds chunk => ((∃ b, i = .feed b) ∨ ∃ payload, i = .feedn payload) ∧ 1 ≤ chunk.length ∧
      (i.wf = true → chunk.length ≤ 255)
  | .clears => i = .init
  | .responds words => (∃ code, words = [rsp0 0 code]) ∨ ∃ payload v, i = .validate payload ∧ words = verdictWords v

theorem operandBuffer_length (h : operandBuffer payload = some chunk) : chunk.length = payload.length := by
  induction payload generalizing chunk with
  | nil => cases h; rfl
  | cons w ws ih =>
    rw [operandBuffer_cons] at h
    split_ifs at h
    obtain ⟨bs, hbs, rfl⟩ := Option.map_eq_some_iff.mp h
    simp only [List.length_cons, ih hbs]

theorem outcome_eq_next {r : Except Fault State} : outcome r = .next t ↔ r = .ok t := by
  cases r <;> simp [outcome]

/-- What `e` is on every block between operations with this sink level and this build parameter. -/
abbrev HasMeaning (sink : Bool) (p : Params) (e : State → Host.Outcome State Fault Refusal) (m : Meaning) : Prop :=
  ∀ s, Idle s → s.sinkPresent = sink → s.params = p → e s = m.perform s

theorem execFeed_meaning (b : Byte) (sink : Bool) (p : Params) :
    ∃ m, Meaning.Of (.feed b) m ∧ HasMeaning sink p (exec (.feed b)) m := by
  cases sink with
  | true => exact ⟨.feeds [b], ⟨.inl ⟨b, rfl⟩, le_refl 1, fun _ => by simp⟩, fun s hi hs _ => by
      rw [exec, execFeed, whenIdle_idle hi, if_pos hs]; rfl⟩
  | false => exact ⟨.responds [rsp0 0 .invalidArguments], .inl ⟨_, rfl⟩, fun s hi hs _ => by
      rw [exec, execFeed, whenIdle_idle hi, if_neg (by rw [hs]; decide)]; rfl⟩

theorem execFeedn_meaning (payload : List Word) (sink : Bool) (p : Params) :
    ∃ m, Meaning.Of (.feedn payload) m ∧ HasMeaning sink p (exec (.feedn payload)) m := by
  by_cases hbad : sink = false ∨ payload.length = 0 ∨ (1 < payload.length ∧ p.chunkFeed = false)
  · refine ⟨.responds [rsp0 0 .invalidArguments], .inl ⟨_, rfl⟩, fun s hi hs hp => ?_⟩
    rw [exec, execFeedn, whenIdle_idle hi, hs, hp, if_pos hbad]; rfl
  · cases hbuf : operandBuffer payload with
    | none =>
      refine ⟨.responds [rsp0 0 .invalidArguments], .inl ⟨_, rfl⟩, fun s hi hs hp => ?_⟩
      rw [exec, execFeedn, whenIdle_idle hi, hs, hp, if_neg hbad, hbuf]; rfl
    | some chunk =>
      have hlen := operandBuffer_length hbuf
      refine ⟨.feeds chunk, ⟨.inr ⟨_, rfl⟩, by omega, fun hw => ?_⟩, fun s hi hs hp => ?_⟩
      · rw [hlen]; exact of_decide_eq_true hw
      · rw [exec, execFeedn, whenIdle_idle hi, hs, hp, if_neg hbad, hbuf]; rfl

theorem execValidate_meaning (payload : List Word) (sink : Bool) (p : Params) :
    ∃ m, Meaning.Of (.validate payload) m ∧ HasMeaning sink p (exec (.validate payload)) m := by
  by_cases hgood : 1 ≤ payload.length ∧ payload.length ≤ 154 ∧ ∀ w ∈ payload, w.extractLsb' 8 8 = 0#8
  · obtain ⟨hmin, hmax, hhigh⟩ := hgood
    exact ⟨.responds _, .inr ⟨_, _, rfl, rfl⟩, fun s hi _ _ =>
      exec_validate_verdict hi hmin hmax hhigh (validateFn_eq _)⟩
  · refine ⟨.responds [rsp0 0 .invalidArguments], .inl ⟨_, rfl⟩, fun s hi _ _ => exec_validate_malformed hi ?_⟩
    by_contra hno
    push Not at hno
    obtain ⟨hmin, hmax, hhigh⟩ := hno
    exact hgood ⟨by omega, hmax, hhigh⟩

/-- Every command has one of the three meanings, whatever the rest of the state. -/
theorem exec_meaning (i : Instr) (sink : Bool) (p : Params) :
    ∃ m, Meaning.Of i m ∧ HasMeaning sink p (exec i) m := by
  have hrefuse : ∀ j, (∀ s, exec j s = refuseEncoding s) → ∃ m, Meaning.Of j m ∧ HasMeaning sink p (exec j) m :=
    fun j hj => ⟨.responds [rsp0 0 .invalidArguments], .inl ⟨_, rfl⟩, fun s hi _ _ => (hj s).trans (whenIdle_idle hi)⟩
  cases i with
  | init => exact ⟨.clears, rfl, fun s hi _ _ => whenIdle_idle hi⟩
  | feed b => exact execFeed_meaning b sink p
  | feedn payload => exact execFeedn_meaning payload sink p
  | validate payload => exact execValidate_meaning payload sink p
  | reserved00 m => exact hrefuse _ fun _ => rfl
  | reserved05 m => exact hrefuse _ fun _ => rfl
  | reserved06 x m => exact hrefuse _ fun _ => rfl
  | reserved08 x m => exact hrefuse _ fun _ => rfl
  | reserved10 x m => exact hrefuse _ fun _ => rfl
  | reserved20 x m => exact hrefuse _ fun _ => rfl
  | reserved40 x m => exact hrefuse _ fun _ => rfl
  | reserved80 x m => exact hrefuse _ fun _ => rfl
  | initBad m => exact hrefuse _ fun _ => rfl

/-- R156: while an operation is held, every command is refused. -/
theorem exec_held {o : Operation} (i : Instr) (ho : s.op = some o) : exec i s = .refused .commandDuringOperation := by
  have hrefuse : ∀ r, whenIdle s r = .refused .commandDuringOperation := fun r => by rw [whenIdle, ho]
  cases i <;> exact hrefuse _

/-- A command that answers a next state began between operations. -/
theorem idle_of_exec (h : exec i s = .next t) : Idle s := by
  cases ho : s.op with
  | none => exact ho
  | some o => rw [exec_held i ho] at h; cases h

/-- What a command that answers a next state did. -/
theorem exec_next_meaning (h : exec i s = .next t) : ∃ m, Meaning.Of i m ∧ m.perform s = .next t := by
  obtain ⟨m, hof, hm⟩ := exec_meaning i s.sinkPresent s.params
  exact ⟨m, hof, (hm s (idle_of_exec h) rfl rfl).symm.trans h⟩

/-! ### The invariant -/

/-- The invariant speaks of the session and of a held operation, not of the host's inputs nor of the outputs. -/
theorem Inv.of_ports (h : Inv s) (params : Params) (sinkPresent : Bool) (cmdPort : List Word)
    (answers : List (BitVec 1)) (out : List PortEvent) (misuse : Option Misuse) :
    Inv { s with
      params := params, sinkPresent := sinkPresent, cmdPort := cmdPort, answers := answers, out := out
      misuse := misuse } where
  form := h.form
  range := h.range
  readable := h.readable
  idle hi := by
    obtain ⟨hport, hsess⟩ := h.idle hi
    exact ⟨hport, hsess.awaiting, hsess.header, hsess.expected, hsess.room, hsess.total⟩
  held o ho := by
    obtain ⟨hsync, hsize, hframe, hrun, hrep⟩ := h.held o ho
    exact ⟨hsync, hsize, hframe, hrun, hrep⟩

theorem Inv.respond (h : Inv s) (words : List Word) : Inv (respond words s) := h.of_ports ..

theorem Inv.takeCommand {t : State} (h : Inv s) (ht : takeCommand s = some (i, t)) : Inv t := by
  obtain ⟨rest, -, -, rfl⟩ := takeCommand_eq_some ht
  exact h.of_ports ..

/-- An empty session keeps I1 to I4. -/
theorem Sess.empty_ok : (⟨[], 0, false⟩ : Sess).Ok := Sess.ok_of_check (by decide)

/-- The state after INIT has the empty session. -/
theorem has_clear (s : State) : Has (setSynced false (setEt 0 (setFill 0 s))) ⟨[], 0, false⟩ :=
  ⟨contents_eq_ok.mpr ⟨Nat.zero_le _, rfl, fun _ hlt => absurd hlt (Nat.not_lt_zero _)⟩, rfl, rfl⟩

theorem Inv.clear (h : Inv s) (hi : Idle s) : Inv (setSynced false (setEt 0 (setFill 0 s))) where
  form := h.form
  range := h.range
  readable := ⟨_, (has_clear s).bytes⟩
  idle _ := ⟨(h.idle hi).1, (has_clear s).inv_iff.mpr Sess.empty_ok⟩
  held o ho := by
    rw [setSynced_op, setEt_op, setFill_op, hi] at ho
    cases ho

/-- R132: a meaning, performed between operations, answers a next state that keeps the invariant. -/
theorem Meaning.perform_inv {m : Meaning} (hinv : Inv s) (hi : Idle s) (hw : i.wf = true) (hof : Meaning.Of i m) :
    ∃ t, m.perform s = .next t ∧ Inv t := by
  cases m with
  | feeds chunk =>
    obtain ⟨-, -, hlen⟩ := hof
    obtain ⟨t, hrun, ht⟩ := feedBytes_inv chunk hinv hi (hlen hw)
    exact ⟨t, congrArg outcome hrun, ht⟩
  | clears => exact ⟨_, rfl, (hinv.clear hi).respond _⟩
  | responds words => exact ⟨_, rfl, hinv.respond _⟩

/-- Settles O46: each command has a meaning, and each meaning keeps the invariant. -/
theorem everyCommandCompletes : Obligations.EveryCommandCompletes := by
  intro s i hinv hi hw
  obtain ⟨m, hof, hm⟩ := exec_meaning i s.sinkPresent s.params
  rw [hm s hi rfl rfl]
  exact Meaning.perform_inv hinv hi hw hof

/-! ### A held operation -/

/-- The bytes a held operation has still to process once its answer is taken. -/
def Operation.left (o : Operation) : List Byte := o.chunk.drop (o.consumed.toNat + 1)

theorem resumeOperation_nil (o : Operation) (h : s.answers = []) : resumeOperation o s = .next s := by
  rw [resumeOperation, h]

/-- R153: with its answer there, a held operation goes on from `RESYNC(e)` as the loop on its session, and the session
keeps the invariants. -/
theorem resumeOperation_reaches {o : Operation} {a : Sess} {bit : BitVec 1} {bits : List (BitVec 1)} (hinv : Inv s)
    (ho : s.op = some o) (ha : Has s a) (hans : s.answers = bit :: bits) :
    ∃ t r, r = Sess.run o.left (countEvent (.emission (answerOfBit bit)) o) (a.resync a.et) bits ∧
      resumeOperation o s = .next t ∧ Has t r.sess ∧ AccOk t ∧ t = endState s t r ∧ (a.resync a.et).Ok ∧ r.Ok o := by
  obtain ⟨-, ⟨h14, hle, hmax⟩, -, ⟨-, hlt, hlen⟩, hrep⟩ := hinv.held o ho
  have hfill := ha.length
  rw [ha.et] at h14 hle
  obtain ⟨u, hfin, hu⟩ := finishEmission_reaches bits ha hinv.accOk (by omega)
  obtain ⟨hop, hport, hparams, hsink, hcmd, hansu, hout, hmis⟩ := hu.only.frame
  have hok : (a.resync a.et).Ok := Sess.resync_ok (by omega) (by omega) (by omega)
  obtain ⟨t, hrun, ht, hacc, hend⟩ := runChunk_reaches o.left (countEvent (.emission (answerOfBit bit)) o) hu.has hu.acc
    hok hop hport
  rw [hansu, takeAnswer_answers] at ht hend
  have hrok := Sess.run_ok o.left (countEvent (.emission (answerOfBit bit)) o) (a.resync a.et) bits hok
    (countEvent_feedStatus hrep (.inl rfl)) hlen (by
      rw [countEvent_consumed_toNat (by omega), countEvent_chunk, Operation.left, List.length_drop]; omega)
  refine ⟨t, _, rfl, ?_, ht, hacc, ?_, hok, hrok.idle, hrok.held⟩
  · simp only [resumeOperation, hans, hfin]
    exact congrArg outcome hrun
  · rw [hend]
    simp only [endState, hparams, hsink, hcmd, hout, hmis]
    rfl

theorem resumeOperation_inv {o : Operation} (hinv : Inv s) (ho : s.op = some o) :
    ∃ t, resumeOperation o s = .next t ∧ Inv t := by
  cases hans : s.answers with
  | nil => exact ⟨s, resumeOperation_nil o hans, hinv⟩
  | cons bit bits =>
    obtain ⟨buf, hbuf⟩ := hinv.readable
    obtain ⟨t, r, -, hres, ht, hacc, hend, -, hok⟩ := resumeOperation_reaches hinv ho (.of_contents hbuf) hans
    obtain ⟨-, -, -, ⟨-, -, hlen⟩, -⟩ := hinv.held o ho
    exact ⟨t, hres, .of_run ht hacc hend hok hlen⟩

/-! ### The step -/

/-- R100, R132: from a state with the invariant, where the host keeps R156, a step goes on and keeps the invariant. -/
theorem step_inv (hinv : Inv s) (hp : Proper s) : ∃ t, step s = .next t ∧ Inv t := by
  cases ho : s.op with
  | some o => rw [step_held hp ho]; exact resumeOperation_inv hinv ho
  | none =>
    cases hc : takeCommand s with
    | none => exact ⟨s, step_waits hp ho hc, hinv⟩
    | some c =>
      obtain ⟨i, u⟩ := c
      obtain ⟨rest, -, hw, rfl⟩ := takeCommand_eq_some hc
      rw [step_performs hp ho hc]
      exact everyCommandCompletes _ i (hinv.takeCommand hc) ho hw

/-- Settles O47: the state a step goes on to is the one `step_inv` gives. -/
theorem stepKeepsTheInvariant : Obligations.StepKeepsTheInvariant := by
  intro s t hinv h
  obtain ⟨t', hstep, ht⟩ := step_inv hinv (step_cases h).1
  cases h.symm.trans hstep
  exact ht

/-- Settles O48: `step_inv` where the host keeps R156; otherwise the step begins by refusing what is noted. -/
theorem stepNeverFaults : Obligations.StepNeverFaults := fun _ hinv =>
  ⟨fun hp => (step_inv hinv hp).imp fun _ h => h.1, fun _ h => step_misuse h⟩

/-- Settles O8: with no answer the held operation does not go on, and every meaning refuses. -/
theorem owedAnswerHoldsTheBlock : Obligations.OwedAnswerHoldsTheBlock := fun s o ho =>
  ⟨fun hp hans => by rw [step_held hp ho, resumeOperation_nil o hans], fun i => exec_held i ho⟩

/-! ### Reset and the commands that only respond -/

/-- Settles O11: every field by its value at reset; the port is empty, so the step waits. -/
theorem resetIsANewSession : Obligations.ResetIsANewSession :=
  ⟨rfl, rfl, rfl, rfl, rfl, idleBlockHoldsItsState _ rfl rfl rfl⟩

/-- Settles O12: the session at reset is empty. -/
theorem resetHasTheInvariant : Obligations.ResetHasTheInvariant := (inv_of_idleCheck (by decide +kernel)).1

/-- Settles O15: each of the eight meanings is the malformed encoding. -/
theorem everyReservedCommandResponds : Obligations.EveryReservedCommandResponds := by
  intro s m x1 x3 x4 x5 x6 x7 hi i hmem
  have hrefuse : exec i s = refuseEncoding s := by
    simp only [List.mem_cons, List.not_mem_nil, or_false] at hmem
    rcases hmem with rfl | rfl | rfl | rfl | rfl | rfl | rfl | rfl <;> rfl
  rw [hrefuse, refuseEncoding_idle hi]

/-- Settles O17: after INIT no byte of `ACC` is valid, `ET` is 0 and `SYNCED` is false, as at reset. -/
theorem initLooksLikePowerOn : Obligations.InitLooksLikePowerOn := by
  intro s hinv hi
  refine ⟨_, whenIdle_idle hi, ?_⟩
  exact ⟨(has_clear s).bytes, rfl, rfl, rfl, hi, (hinv.idle hi).1, rfl, rfl, rfl, rfl, rfl, rfl⟩

/-! ### Forbidden commands -/

/-- Settles O57: what R156 forbids is noted and leaves the port alone, and the step refuses it by its name. -/
theorem forbiddenCommandsAreRefused : Obligations.ForbiddenCommandsAreRefused := by
  intro s words hw
  have hother : hostWords .other words s = noteMisuse .secondAgent s := by rw [hostWords, if_neg hw]
  refine ⟨?_, ?_, fun o ho => ?_, fun hi => hostWords_idle words hi⟩
  · rw [hother]; exact step_misuse (noteMisuse_misuse ..)
  · rw [hother]; rfl
  · have howner : hostWords .owner words s = noteMisuse .commandInsideAnswer s := by
      simp only [hostWords, if_neg hw, ho]
    rw [howner]
    exact ⟨step_misuse (noteMisuse_misuse ..), rfl⟩

end Sys2Proof.Machine
end

section
/-! PROOFS. Feeding as a trace: which byte steps a stream of bytes takes on a session, with the answers its emissions use,
their events and the records presented (spec/41_stream_decoder.md R92, R97 to R99). The loop of FEEDN follows the trace up
to the byte at which it stops or is held. -/

namespace Sys2Proof.Machine

variable {b : Byte} {bytes rest : List Byte} {ev : Event} {evs evs' : List Event} {rs rs' : List SinkRecord} {o : Operation}

/-- A session, with the sink's answers still to come. -/
structure Stage where
  sess : Sess
  answers : List (BitVec 1)

variable {p q q' r : Stage}

/-- One byte step that ends, with its event and what it presents. -/
inductive Stage.Moves (b : Byte) : Stage → Event → List SinkRecord → Stage → Prop
  | ended {a a' : Sess} {answers : List (BitVec 1)} {ev : Event} (h : a.step b = .ended ev a') :
      Moves b ⟨a, answers⟩ ev [] ⟨a', answers⟩
  | emitted {a a' : Sess} {f : List Byte} {bit : BitVec 1} {bits : List (BitVec 1)} (h : a.step b = .emitting f a') :
      Moves b ⟨a, bit :: bits⟩ (.emission (answerOfBit bit)) [frameRecord f] ⟨a'.resync a'.et, bits⟩

/-- The byte steps of these bytes, one after the other. -/
inductive Stage.Feeds : List Byte → Stage → List Event → List SinkRecord → Stage → Prop
  | nil {p : Stage} : Feeds [] p [] [] p
  | cons {b : Byte} {bytes : List Byte} {p q r : Stage} {ev : Event} {evs : List Event} {rs rs' : List SinkRecord}
      (h : p.Moves b ev rs q) (hs : Feeds bytes q evs rs' r) : Feeds (b :: bytes) p (ev :: evs) (rs ++ rs') r

/-! ### One byte step -/

/-- A record that the sink may be given: that of a valid frame that fits in `ACC` (R54, R63). -/
def GoodRecord (r : SinkRecord) : Prop := ∃ f, ValidFrame f ∧ f.length ≤ 154 ∧ r = frameRecord f

theorem Sess.step_emitting_good {a a' : Sess} {f : List Byte} (hok : a.Ok) (h : a.step b = .emitting f a') :
    GoodRecord (frameRecord f) ∧ (a'.resync a'.et).Ok := by
  obtain ⟨-, -, hmin, hle, hmax, hf, hvalid⟩ : StepOk a b (.emitting f a') := h ▸ Sess.step_ok b hok
  exact ⟨⟨f, hvalid, by rw [hf, List.length_take]; omega, rfl⟩, Sess.resync_ok (by omega) hle hmax⟩

theorem Stage.Moves.ok (h : p.Moves b ev rs q) (hok : p.sess.Ok) : q.sess.Ok := by
  cases h with
  | ended h => exact (h ▸ Sess.step_ok b hok : StepOk _ b (.ended _ _)).1
  | emitted h => exact (Sess.step_emitting_good hok h).2

theorem Stage.Moves.status (h : p.Moves b ev rs q) (hok : p.sess.Ok) : FeedStatus (eventStatus ev) := by
  cases h with
  | ended h => exact (h ▸ Sess.step_ok b hok : StepOk _ b (.ended _ _)).2.1
  | emitted h => exact .inl rfl

theorem Stage.Moves.good (h : p.Moves b ev rs q) (hok : p.sess.Ok) : ∀ r ∈ rs, GoodRecord r := by
  cases h with
  | ended h => exact fun r hr => absurd hr List.not_mem_nil
  | emitted h => exact List.forall_mem_singleton.mpr (Sess.step_emitting_good hok h).1

/-- A byte step presents at most one record, and then its status is `Ok`. -/
theorem Stage.Moves.records (h : p.Moves b ev rs q) : rs.length ≤ 1 ∧ (rs = [] ∨ eventStatus ev = .ok) := by
  cases h with
  | ended h => exact ⟨Nat.zero_le 1, .inl rfl⟩
  | emitted h => exact ⟨le_refl 1, .inr rfl⟩

theorem Stage.Moves.unique {ev' : Event} (h : p.Moves b ev rs q) (h' : p.Moves b ev' rs' q') :
    ev = ev' ∧ rs = rs' ∧ q = q' := by
  cases h with
  | ended h => cases h' with
    | ended h' => cases h.symm.trans h'; exact ⟨rfl, rfl, rfl⟩
    | emitted h' => cases h.symm.trans h'
  | emitted h => cases h' with
    | ended h' => cases h.symm.trans h'
    | emitted h' => cases h.symm.trans h'; exact ⟨rfl, rfl, rfl⟩

/-- A byte step ends, or it presents a record for which no answer is there. -/
theorem Stage.moves_or_held (p : Stage) (b : Byte) : (∃ ev rs q, p.Moves b ev rs q) ∨
    p.answers = [] ∧ ∃ f a, p.sess.step b = .emitting f a := by
  obtain ⟨a, answers⟩ := p
  cases hstep : a.step b with
  | ended ev a' => exact .inl ⟨_, _, _, .ended hstep⟩
  | emitting f a' =>
    cases answers with
    | nil => exact .inr ⟨rfl, f, a', rfl⟩
    | cons bit bits => exact .inl ⟨_, _, _, .emitted hstep⟩

/-- The answer an event took. -/
def Event.answer : Event → List Answer
  | .emission ans => [ans]
  | .quiet => []
  | .error _ => []

/-- The answers a byte step uses are those of its event, one for each record. -/
theorem Stage.Moves.answers (h : p.Moves b ev rs q) (hok : p.sess.Ok) :
    ∃ used, p.answers = used ++ q.answers ∧ used.length = rs.length ∧ used.map answerOfBit = ev.answer := by
  cases h with
  | @ended a a' answers ev h =>
    obtain ⟨-, -, hno, -⟩ : StepOk a b (.ended ev a') := h ▸ Sess.step_ok b hok
    refine ⟨[], rfl, rfl, ?_⟩
    cases ev with
    | emission ans => exact absurd rfl (hno ans)
    | quiet => rfl
    | error code => rfl
  | @emitted a a' f bit bits h => exact ⟨[bit], rfl, rfl, rfl⟩

/-! ### Many byte steps -/

theorem Stage.Feeds.ok (h : p.Feeds bytes evs rs q) (hok : p.sess.Ok) : q.sess.Ok := by
  induction h with
  | nil => exact hok
  | cons h _ ih => exact ih (h.ok hok)

theorem Stage.Feeds.length (h : p.Feeds bytes evs rs q) : evs.length = bytes.length := by
  induction h with
  | nil => rfl
  | cons _ _ ih => exact congrArg Nat.succ ih

theorem Stage.Feeds.status (h : p.Feeds bytes evs rs q) (hok : p.sess.Ok) : ∀ ev ∈ evs, FeedStatus (eventStatus ev) := by
  induction h with
  | nil => exact fun ev h => absurd h List.not_mem_nil
  | cons h _ ih => exact List.forall_mem_cons.mpr ⟨h.status hok, ih (h.ok hok)⟩

theorem Stage.Feeds.good (h : p.Feeds bytes evs rs q) (hok : p.sess.Ok) : ∀ r ∈ rs, GoodRecord r := by
  induction h with
  | nil => exact fun r h => absurd h List.not_mem_nil
  | cons h _ ih => exact List.forall_mem_append.mpr ⟨h.good hok, ih (h.ok hok)⟩

theorem Stage.Feeds.append (h : p.Feeds bytes evs rs q) (h' : q.Feeds rest evs' rs' r) :
    p.Feeds (bytes ++ rest) (evs ++ evs') (rs ++ rs') r := by
  induction h with
  | nil => exact h'
  | cons h _ ih => rw [List.append_assoc]; exact .cons h (ih h')

theorem Stage.Moves.feeds (h : p.Moves b ev rs q) : p.Feeds [b] [ev] rs q := by
  have := Feeds.cons h .nil
  rwa [List.append_nil] at this

theorem Stage.Feeds.unique (h : p.Feeds bytes evs rs q) (h' : p.Feeds bytes evs' rs' q') :
    evs = evs' ∧ rs = rs' ∧ q = q' := by
  induction h generalizing evs' rs' q' with
  | nil => cases h'; exact ⟨rfl, rfl, rfl⟩
  | cons h _ ih =>
    cases h' with
    | cons h' hs' =>
      obtain ⟨rfl, rfl, rfl⟩ := h.unique h'
      obtain ⟨rfl, rfl, rfl⟩ := ih hs'
      exact ⟨rfl, rfl, rfl⟩

/-- The answers used are those of the events, in order, one for each record. -/
theorem Stage.Feeds.answers (h : p.Feeds bytes evs rs q) (hok : p.sess.Ok) :
    ∃ used, p.answers = used ++ q.answers ∧ used.length = rs.length ∧
      used.map answerOfBit = evs.flatMap Event.answer := by
  induction h with
  | nil => exact ⟨[], rfl, rfl, rfl⟩
  | cons h _ ih =>
    obtain ⟨used, hu1, hu2, hu3⟩ := h.answers hok
    obtain ⟨used', hu1', hu2', hu3'⟩ := ih (h.ok hok)
    refine ⟨used ++ used', ?_, ?_, ?_⟩
    · rw [hu1, hu1', List.append_assoc]
    · rw [List.length_append, List.length_append, hu2, hu2']
    · rw [List.map_append, hu3, hu3', List.flatMap_cons]

/-- At most one answer is used for each byte. -/
theorem Stage.Feeds.answers_length (h : p.Feeds bytes evs rs q) : p.answers.length ≤ q.answers.length + bytes.length := by
  induction h with
  | nil => exact le_refl _
  | cons h _ ih =>
    rw [List.length_cons]
    cases h with
    | ended h => simp only at ih ⊢; omega
    | emitted h => simp only [List.length_cons] at ih ⊢; omega

/-! ### The working values -/

/-- The working values after these events (R99). -/
def countEvents (evs : List Event) (o : Operation) : Operation := evs.foldl (fun o ev => countEvent ev o) o

@[simp] theorem countEvents_nil : countEvents [] o = o := rfl

@[simp] theorem countEvents_cons : countEvents (ev :: evs) o = countEvents evs (countEvent ev o) := rfl

@[simp] theorem countEvents_chunk : (countEvents evs o).chunk = o.chunk := by
  induction evs generalizing o with
  | nil => rfl
  | cons ev evs ih => rw [countEvents_cons, ih, countEvent_chunk]

theorem countEvents_consumed : (countEvents evs o).consumed = o.consumed + BitVec.ofNat 8 evs.length := by
  induction evs generalizing o with
  | nil => exact (BitVec.add_zero _).symm
  | cons ev evs ih =>
    rw [countEvents_cons, ih, countEvent_consumed, List.length_cons, BitVec.add_assoc, Nat.add_comm, BitVec.ofNat_add]
    rfl

/-- The first error is kept (R99). -/
theorem countEvents_firstErr : (countEvents evs o).firstErr = firstError (o.firstErr :: evs.map eventStatus) := by
  induction evs generalizing o with
  | nil => simp only [countEvents_nil, List.map_nil, firstError]; split_ifs with h <;> [exact h; rfl]
  | cons ev evs ih =>
    rw [countEvents_cons, ih, countEvent_firstErr, List.map_cons]
    by_cases h : o.firstErr = .ok
    · simp only [firstError, if_pos h]
    · simp only [firstError, if_neg h]

theorem countEvents_stop : (countEvents evs o).stop = true ↔ o.stop = true ∨ .emission .stop ∈ evs := by
  induction evs generalizing o with
  | nil => simp
  | cons ev evs ih =>
    rw [countEvents_cons, ih, countEvent_stop, Bool.or_eq_true, decide_eq_true_eq, List.mem_cons, or_assoc,
      eq_comm (a := ev)]

/-! ### The loop -/

/-- The same end, with more outputs before its outputs. -/
def RunEnd.afterAll (es : List PortEvent) (e : RunEnd) : RunEnd := { e with outs := es ++ e.outs }

theorem RunEnd.afterAll_afterAll (es es' : List PortEvent) (e : RunEnd) :
    (e.afterAll es').afterAll es = e.afterAll (es ++ es') := by
  simp only [RunEnd.afterAll, List.append_assoc]

/-- No byte step but the last was answered STOP. -/
abbrev NoEarlyStop (evs : List Event) : Prop := ∀ ev ∈ evs.dropLast, ev ≠ .emission .stop

theorem noEarlyStop_nil : NoEarlyStop [] := fun _ h => absurd h List.not_mem_nil

theorem noEarlyStop_singleton (ev : Event) : NoEarlyStop [ev] := noEarlyStop_nil

/-- The loop goes on after a byte step as its event says. -/
theorem Sess.run_cons (hstop : o.stop = false) (h : p.Moves b ev rs q) : Sess.run (b :: rest) o p.sess p.answers =
    (Sess.run rest (countEvent ev o) q.sess q.answers).afterAll (rs.map .emission) := by
  rw [Sess.run, if_neg (by rw [hstop]; decide)]
  cases h with
  | ended h => simp only [h]; rfl
  | emitted h => simp only [h]; rfl

theorem Sess.run_of_stop (hstop : o.stop = true) (bytes : List Byte) :
    Sess.run bytes o p.sess p.answers = .responded o p.sess p.answers := by
  cases bytes with
  | nil => rfl
  | cons b rest => rw [Sess.run, if_pos hstop]

/-- The loop is held where a record finds no answer. -/
theorem Sess.run_held {f : List Byte} {a : Sess} (hstop : o.stop = false) (hans : p.answers = [])
    (hstep : p.sess.step b = .emitting f a) : Sess.run (b :: rest) o p.sess p.answers =
      ⟨a, some o, some (frameRecord f), [], [.emission (frameRecord f)]⟩ := by
  rw [Sess.run, if_neg (by rw [hstop]; decide)]
  simp only [hstep, hans]

/-- The loop follows the trace, as long as no answer but the last is STOP. -/
theorem Sess.run_append (hstop : o.stop = false) (h : p.Feeds bytes evs rs q) (hearly : NoEarlyStop evs) :
    Sess.run (bytes ++ rest) o p.sess p.answers =
      (Sess.run rest (countEvents evs o) q.sess q.answers).afterAll (rs.map .emission) := by
  induction h generalizing o with
  | nil => rfl
  | @cons b bytes p q r ev evs rs rs' h hs ih =>
    rw [List.cons_append, Sess.run_cons hstop h]
    cases hs with
    | nil => rw [List.append_nil, List.nil_append, countEvents_cons, countEvents_nil]
    | @cons b' bytes q q' r ev' evs' rs₁ rs₂ h' hs' =>
      rw [NoEarlyStop, List.dropLast_cons_cons, List.forall_mem_cons] at hearly
      have hgo : (countEvent ev o).stop = false := by
        rw [countEvent_stop, hstop, Bool.false_or, decide_eq_false hearly.1]
      rw [ih hgo hearly.2, RunEnd.afterAll_afterAll, ← List.map_append]
      rfl

/-- Where the loop ends, with the bytes not processed: it responds, with bytes left only after STOP, or it is held inside
the step of the next byte. -/
inductive Stage.EndsWith (q : Stage) (o : Operation) (left : List Byte) : RunEnd → Prop
  | responded (h : left ≠ [] → o.stop = true) : EndsWith q o left (.responded o q.sess q.answers)
  | held {b : Byte} {rest f : List Byte} {a : Sess} (hleft : left = b :: rest) (hans : q.answers = [])
      (hstep : q.sess.step b = .emitting f a) :
      EndsWith q o left ⟨a, some o, some (frameRecord f), [], [.emission (frameRecord f)]⟩

/-- The loop processes some first part of its bytes, as the trace says, and ends there. -/
def Sess.RunsAsTrace (bytes : List Byte) (o : Operation) (p : Stage) : Prop :=
  ∃ fed left evs rs q e, bytes = fed ++ left ∧ p.Feeds fed evs rs q ∧ (o.stop = true → evs = []) ∧ NoEarlyStop evs ∧
    q.EndsWith (countEvents evs o) left e ∧ Sess.run bytes o p.sess p.answers = e.afterAll (rs.map .emission)

/-- A loop that ends before its first byte. -/
theorem Sess.RunsAsTrace.of_endsWith (h : p.EndsWith o bytes (Sess.run bytes o p.sess p.answers)) :
    Sess.RunsAsTrace bytes o p :=
  ⟨[], bytes, [], [], p, _, rfl, .nil, fun _ => rfl, noEarlyStop_nil, h, rfl⟩

theorem Sess.RunsAsTrace.cons (hstop : o.stop = false) (hmove : p.Moves b ev rs q)
    (h : Sess.RunsAsTrace rest (countEvent ev o) q) : Sess.RunsAsTrace (b :: rest) o p := by
  obtain ⟨fed, left, evs, rs', r, e, rfl, hfeeds, hstopped, hearly, hend, hrun⟩ := h
  refine ⟨b :: fed, left, ev :: evs, rs ++ rs', r, e, rfl, .cons hmove hfeeds, ?_, ?_, hend, ?_⟩
  · rw [hstop]; exact nofun
  · cases evs with
    | nil => exact noEarlyStop_singleton ev
    | cons ev' evs =>
      rw [NoEarlyStop, List.dropLast_cons_cons]
      refine List.forall_mem_cons.mpr ⟨fun hev => ?_, hearly⟩
      exact List.cons_ne_nil _ _ (hstopped (by rw [countEvent_stop, decide_eq_true hev, Bool.or_true]))
  · rw [Sess.run_cons hstop hmove, hrun, RunEnd.afterAll_afterAll, List.map_append]

theorem Sess.run_trace (bytes : List Byte) (o : Operation) (p : Stage) : Sess.RunsAsTrace bytes o p := by
  induction bytes generalizing o p with
  | nil => exact .of_endsWith (.responded (absurd rfl))
  | cons b rest ih =>
    cases hstop : o.stop with
    | true =>
      refine .of_endsWith ?_
      rw [Sess.run_of_stop hstop]
      exact .responded fun _ => hstop
    | false =>
      obtain ⟨ev, rs, q, hmove⟩ | ⟨hans, f, a, hstep⟩ := p.moves_or_held b
      · exact .cons hstop hmove (ih _ q)
      · refine .of_endsWith ?_
        rw [Sess.run_held hstop hans hstep]
        exact .held rfl hans hstep

/-- An answer for each byte is enough that the loop is never held. -/
theorem Stage.EndsWith.op_eq_none {left : List Byte} {e : RunEnd} (hfeeds : p.Feeds bytes evs rs q)
    (hend : q.EndsWith o left e) (hlen : (bytes ++ left).length ≤ p.answers.length) : e.op = none := by
  cases hend with
  | responded h => rfl
  | held hleft hans hstep =>
    have hused := hfeeds.answers_length
    rw [hans, List.length_nil] at hused
    rw [hleft, List.length_append, List.length_cons] at hlen
    omega

/-! ### Outputs -/

theorem emissions_append (out out' : List PortEvent) : emissions (out ++ out') = emissions out ++ emissions out' :=
  List.filterMap_append

theorem responses_append (out out' : List PortEvent) : responses (out ++ out') = responses out ++ responses out' :=
  List.filterMap_append

@[simp] theorem emissions_map_emission (rs : List SinkRecord) : emissions (rs.map .emission) = rs := by
  rw [emissions, List.filterMap_map]
  exact List.filterMap_some

@[simp] theorem responses_map_emission (rs : List SinkRecord) : responses (rs.map .emission) = [] := by
  rw [responses, List.filterMap_map]
  exact List.filterMap_eq_nil_iff.mpr fun _ _ => rfl

@[simp] theorem emissions_response (ws : List Word) : emissions [.response ws] = [] := rfl

@[simp] theorem responses_response (ws : List Word) : responses [.response ws] = [ws] := rfl

end Sys2Proof.Machine
end

section
/-! PROOFS. FEED and FEEDN by the trace of their bytes: what they respond, what they process, and how many answers they
use (spec/41_stream_decoder.md R98, R99, R103, R106). -/

namespace Sys2Proof.Machine

variable {s t u : State} {a : Sess} {b : Byte} {bytes chunk : List Byte} {evs : List Event} {rs rs' : List SinkRecord}
  {o : Operation} {p q : Stage} {e : RunEnd}

/-! ### The state where a run of the loop ends -/

/-- The loop, begun in `s`, has ended in `t` as `e` says. -/
structure Ends (s t : State) (e : RunEnd) : Prop where
  has : Has t e.sess
  acc : AccOk t
  state : t = endState s t e

theorem Ends.op (h : Ends s t e) : t.op = e.op := by rw [h.state]; rfl
theorem Ends.answers (h : Ends s t e) : t.answers = e.answers := by rw [h.state]; rfl
theorem Ends.sinkPort (h : Ends s t e) : t.sinkPort = e.port := by rw [h.state]; rfl
theorem Ends.out (h : Ends s t e) : t.out = s.out ++ e.outs := by rw [h.state]; rfl
theorem Ends.sinkPresent (h : Ends s t e) : t.sinkPresent = s.sinkPresent := by rw [h.state]; rfl
theorem Ends.params (h : Ends s t e) : t.params = s.params := by rw [h.state]; rfl

/-- FEED and FEEDN on their chunk: the loop on the session, which ends. -/
theorem feedBytes_ends (hinv : Inv s) (hi : Idle s) (ha : Has s a) (chunk : List Byte) :
    ∃ t, feedBytes chunk s = .ok t ∧ Ends s t (Sess.run chunk (startOperation chunk) a s.answers) := by
  have hok : a.Ok := ha.inv_iff.mp (hinv.idle hi).2
  obtain ⟨t, hrun, hhas, hacc, hend⟩ := feedBytes_reaches chunk ha hinv.accOk hok hi (hinv.idle hi).1
  exact ⟨t, hrun, hhas, hacc, hend⟩

/-- What a run of FEED or FEEDN that answered a next state did. -/
theorem Ends.of_feedBytes (hinv : Inv s) (hi : Idle s) (ha : Has s a) (h : outcome (feedBytes chunk s) = .next t) :
    Ends s t (Sess.run chunk (startOperation chunk) a s.answers) := by
  obtain ⟨t', hrun, hends⟩ := feedBytes_ends hinv hi ha chunk
  cases hrun.symm.trans (outcome_eq_next.mp h)
  exact hends

/-! ### Blocks at a stage -/

/-- A block ready to be fed, with this session and these answers to come. -/
structure AtStage (s : State) (p : Stage) : Prop where
  ready : Ready s
  has : Has s p.sess
  answers : s.answers = p.answers

theorem AtStage.ok (h : AtStage s p) : p.sess.Ok := h.has.inv_iff.mp (h.ready.inv.idle h.ready.idle).2

/-- A ready block is at the stage of its session. -/
theorem Ready.atStage (hr : Ready s) (ha : Has s a) : AtStage s ⟨a, s.answers⟩ := ⟨hr, ha, rfl⟩

/-- Two blocks at one stage agree on the session and the answers. -/
theorem AtStage.same (h : AtStage s p) (h' : AtStage t p) :
    contents s = contents t ∧ s.fill = t.fill ∧ s.et = t.et ∧ s.synced = t.synced ∧ s.answers = t.answers :=
  ⟨h.has.bytes.trans h'.has.bytes.symm, BitVec.eq_of_toNat_eq (h.has.length.symm.trans h'.has.length),
    BitVec.eq_of_toNat_eq (h.has.et.trans h'.has.et.symm), h.has.synced.trans h'.has.synced.symm,
    h.answers.trans h'.answers.symm⟩

/-- Where the loop has responded, the block is ready again. -/
theorem Ends.atStage {es : List PortEvent} (hr : Ready s) (hok : q.sess.Ok)
    (h : Ends s t ((RunEnd.responded o q.sess q.answers).afterAll es)) : AtStage t q := by
  have hdone : ((RunEnd.responded o q.sess q.answers).afterAll es).Ok (startOperation []) :=
    ⟨fun _ => ⟨rfl, hok⟩, fun _ ho => by cases ho⟩
  exact ⟨⟨.of_run h.has h.acc h.state hdone (by decide), h.op, h.sinkPresent.trans hr.sink⟩, h.has, h.answers⟩

/-! ### The commands -/

theorem operandBuffer_payloadWord (bytes : List Byte) : operandBuffer (bytes.map payloadWord) = some bytes := by
  have hlow : ∀ b : Byte, (payloadWord b).extractLsb' 0 8 = b := by decide
  have hhigh : ∀ b : Byte, (payloadWord b).extractLsb' 8 8 = 0#8 := by decide
  rw [operandBuffer_eq_map (List.forall_mem_map.mpr fun b _ => hhigh b), List.map_map]
  exact congrArg some ((List.map_congr_left fun b _ => hlow b).trans (List.map_id bytes))

theorem fedBytes_feedn (bytes : List Byte) : fedBytes (.feedn (bytes.map payloadWord)) = bytes := by
  have hlow : ∀ b : Byte, immField (payloadWord b) = b := by decide
  rw [fedBytes, List.map_map]
  exact (List.map_congr_left fun b _ => hlow b).trans (List.map_id bytes)

theorem exec_feed_eq (hi : Idle s) (hsink : s.sinkPresent = true) : exec (.feed b) s = outcome (feedBytes [b] s) := by
  rw [exec, execFeed, whenIdle_idle hi, if_pos hsink]

theorem exec_feedn_eq (hr : Ready s) (hmin : 1 ≤ bytes.length) (hchunk : bytes.length = 1 ∨ s.params.chunkFeed = true) :
    exec (.feedn (bytes.map payloadWord)) s = outcome (feedBytes bytes s) := by
  have hgood : ¬ (s.sinkPresent = false ∨ (bytes.map payloadWord).length = 0 ∨
      (1 < (bytes.map payloadWord).length ∧ s.params.chunkFeed = false)) := by
    rw [hr.sink, List.length_map]
    rintro (h | h | ⟨h, hp⟩)
    · cases h
    · omega
    · rcases hchunk with h1 | hp'
      · omega
      · rw [hp] at hp'; cases hp'
  rw [exec, execFeedn, whenIdle_idle hr.idle, if_neg hgood, operandBuffer_payloadWord]

/-- Settles O39: one payload word is a chunk of one byte, which the build parameter does not forbid. -/
theorem feednOfOneByteIsFeed : Obligations.FeednOfOneByteIsFeed := by
  intro s b
  have hbuf : operandBuffer [payloadWord b] = some [b] := operandBuffer_payloadWord [b]
  rw [exec, exec, execFeedn, execFeed]
  congr 1
  cases hs : s.sinkPresent with
  | false => rfl
  | true => simp only [hbuf]; exact if_neg (by simp)

/-- Settles O37: each of the four cases leaves FEEDN its malformed branch. -/
theorem feednMalformedCalls : Obligations.FeednMalformedCalls := by
  intro s payload hi h
  have hrun : exec (.feedn payload) s = .next (malformedCall s) := by
    rw [exec, execFeedn, whenIdle_idle hi]
    rcases h with h | h | h | ⟨w, hmem, hw⟩
    · exact if_pos (.inl h)
    · exact if_pos (.inr (.inl h))
    · exact if_pos (.inr (.inr h))
    · rw [operandBuffer_eq_none hmem hw]; exact ite_self _
  exact hrun

/-! ### What FEEDN does -/

/-- The response of the loop after these events (R98, R99). -/
theorem rsp0_countEvents (chunk : List Byte) (evs : List Event) :
    rsp0 (countEvents evs (startOperation chunk)).consumed (countEvents evs (startOperation chunk)).firstErr =
      rsp0 (BitVec.ofNat 8 evs.length) (firstError (evs.map eventStatus)) := by
  rw [countEvents_consumed, countEvents_firstErr]
  exact congrArg (fun c => rsp0 c _) (BitVec.zero_add _)

/-- A run of FEED or FEEDN that has responded: it has processed some first part of its bytes, all unless it met STOP. -/
theorem feedBytes_responded (hr : Ready s) (ha : Has s a) (h : outcome (feedBytes chunk s) = .next t) (ht : Idle t) :
    ∃ fed left evs rs q, chunk = fed ++ left ∧ Stage.Feeds fed ⟨a, s.answers⟩ evs rs q ∧ NoEarlyStop evs ∧
      (left ≠ [] → .emission .stop ∈ evs) ∧ AtStage t q ∧ t.out = s.out ++ (rs.map .emission ++
        [.response [rsp0 (BitVec.ofNat 8 fed.length) (firstError (evs.map eventStatus))]]) := by
  have hends := Ends.of_feedBytes hr.inv hr.idle ha h
  obtain ⟨fed, left, evs, rs, q, e, hsplit, hfeeds, -, hearly, hend, hrun⟩ :=
    Sess.run_trace chunk (startOperation chunk) ⟨a, s.answers⟩
  rw [hrun] at hends
  cases hend with
  | held => cases ht.symm.trans hends.op
  | responded hleft =>
    refine ⟨fed, left, evs, rs, q, hsplit, hfeeds, hearly, fun hne => ?_,
      hends.atStage hr (hfeeds.ok (hr.atStage ha).ok), ?_⟩
    · exact (countEvents_stop.mp (hleft hne)).resolve_left Bool.false_ne_true
    · rw [hends.out, ← hfeeds.length, ← rsp0_countEvents chunk]; rfl

/-- A run of FEED or FEEDN that is held: its records are out, the last of them not answered. -/
theorem feedBytes_held (hinv : Inv s) (hi : Idle s) (ha : Has s a) (h : outcome (feedBytes chunk s) = .next t)
    (ho : t.op = some o) : t.answers = [] ∧ o.chunk = chunk ∧
      ∃ (rs : List SinkRecord) (r : SinkRecord), t.out = s.out ++ (rs.map .emission ++ [.emission r]) := by
  have hends := Ends.of_feedBytes hinv hi ha h
  obtain ⟨fed, left, evs, rs, q, e, -, -, -, -, hend, hrun⟩ :=
    Sess.run_trace chunk (startOperation chunk) ⟨a, s.answers⟩
  rw [hrun] at hends
  cases hend with
  | responded hleft => cases ho.symm.trans hends.op
  | held hleft hans hstep =>
    obtain rfl : o = countEvents evs (startOperation chunk) := Option.some.inj (ho.symm.trans hends.op)
    exact ⟨hends.answers, countEvents_chunk, rs, _, hends.out⟩

/-- With an answer for each byte, FEED and FEEDN are never held. -/
theorem feedBytes_idle (hinv : Inv s) (hi : Idle s) (ha : Has s a) (h : outcome (feedBytes chunk s) = .next t)
    (hlen : chunk.length ≤ s.answers.length) : Idle t := by
  have hends := Ends.of_feedBytes hinv hi ha h
  obtain ⟨fed, left, evs, rs, q, e, hsplit, hfeeds, -, -, hend, hrun⟩ :=
    Sess.run_trace chunk (startOperation chunk) ⟨a, s.answers⟩
  rw [hrun] at hends
  have hnone : e.op = none := hend.op_eq_none hfeeds (by rw [← hsplit]; exact hlen)
  exact hends.op.trans hnone

/-- The first error among feed statuses is one. -/
theorem firstError_feedStatus {codes : List Status} (h : ∀ c ∈ codes, FeedStatus c) : FeedStatus (firstError codes) := by
  induction codes with
  | nil => exact .inl rfl
  | cons c cs ih =>
    obtain ⟨hc, hcs⟩ := List.forall_mem_cons.mp h
    rw [firstError]
    split_ifs
    · exact ih hcs
    · exact hc

/-- Settles O38: the loop keeps the invariant, and it responds or is held where its trace ends. -/
theorem feednCompletes : Obligations.FeednCompletes := by
  intro s bytes hr hmin hmax hchunk
  obtain ⟨buf, hbuf⟩ := hr.inv.readable
  have ha := Has.of_contents hbuf
  obtain ⟨t, hrun, hinv⟩ := feedBytes_inv bytes hr.inv hr.idle hmax
  have hnext : outcome (feedBytes bytes s) = .next t := congrArg outcome hrun
  refine ⟨t, (exec_feedn_eq hr hmin hchunk).trans hnext, hinv, feedBytes_idle hr.inv hr.idle ha hnext, ?_⟩
  cases ho : t.op with
  | some o =>
    obtain ⟨hans, hsame, rs, r, hout⟩ := feedBytes_held hr.inv hr.idle ha hnext ho
    refine .inl ⟨o, rfl, hsame, hans, rs ++ [r], by simp, ?_⟩
    rw [hout, List.map_append]; rfl
  | none =>
    obtain ⟨fed, left, evs, rs, q, rfl, hfeeds, -, hleft, -, hout⟩ := feedBytes_responded hr ha hnext ho
    have hcodes : ∀ c ∈ evs.map eventStatus, FeedStatus c :=
      List.forall_mem_map.mpr (hfeeds.status (hr.atStage ha).ok)
    have hpos : 1 ≤ fed.length := by
      by_contra hzero
      obtain rfl : fed = [] := List.length_eq_zero_iff.mp (by omega)
      cases hfeeds
      refine absurd (hleft ?_) List.not_mem_nil
      rintro rfl
      simp at hmin
    rw [List.length_append] at hmax
    refine .inr ⟨ho, rs, BitVec.ofNat 8 fed.length, _, firstError_feedStatus hcodes, ?_, ?_, ?_⟩
    · rw [ofNat8_toNat (by omega)]; exact hpos
    · rw [ofNat8_toNat (by omega), List.length_append]; omega
    · rw [hout, List.append_assoc]; rfl

/-! ### FEEDs of the same bytes -/

/-- A FEED whose byte step ends. -/
theorem exec_feed_moves {ev : Event} (h : AtStage s p) (hmove : p.Moves b ev rs q) :
    ∃ t, exec (.feed b) s = .next t ∧ AtStage t q ∧ t.params = s.params ∧
      t.out = s.out ++ (rs.map .emission ++ [.response [rsp0 1 (eventStatus ev)]]) := by
  obtain ⟨t, hrun, hends⟩ := feedBytes_ends h.ready.inv h.ready.idle h.has [b]
  have hgo : Sess.run [b] (startOperation [b]) p.sess s.answers =
      (RunEnd.responded (countEvent ev (startOperation [b])) q.sess q.answers).afterAll (rs.map .emission) := by
    rw [h.answers]; exact Sess.run_cons rfl hmove
  rw [hgo] at hends
  refine ⟨t, (exec_feed_eq h.ready.idle h.ready.sink).trans (congrArg outcome hrun),
    hends.atStage h.ready (hmove.ok h.ok), hends.params, hends.out⟩

/-- A FEED whose record finds no answer is held in its byte step. -/
theorem exec_feed_held {f : List Byte} (h : AtStage s p) (hans : p.answers = []) (hstep : p.sess.step b = .emitting f a) :
    ∃ t, exec (.feed b) s = .next t ∧ Inv t ∧
      Ends s t ⟨a, some (startOperation [b]), some (frameRecord f), [], [.emission (frameRecord f)]⟩ := by
  obtain ⟨t, hrun, hinv⟩ := feedBytes_inv [b] h.ready.inv h.ready.idle (by simp)
  have hnext : outcome (feedBytes [b] s) = .next t := congrArg outcome hrun
  have hends := Ends.of_feedBytes h.ready.inv h.ready.idle h.has hnext
  rw [h.answers, Sess.run_held rfl hans hstep] at hends
  exact ⟨t, (exec_feed_eq h.ready.idle h.ready.sink).trans hnext, hinv, hends⟩

/-- Settles O28: the byte step ends and FEED responds its status, or it presents a record that has no answer and FEED is
held. -/
theorem feedCompletes : Obligations.FeedCompletes := by
  intro s b hinv hi
  refine ⟨fun hs => ?_, fun hs => ?_⟩
  · rw [exec, execFeed, whenIdle_idle hi, if_neg (by rw [hs]; decide)]; rfl
  · obtain ⟨buf, hbuf⟩ := hinv.readable
    have h : AtStage s _ := Ready.atStage ⟨hinv, hi, hs⟩ (Has.of_contents hbuf)
    obtain ⟨ev, rs, q, hmove⟩ | ⟨hans, f, a, hstep⟩ := Stage.moves_or_held ⟨⟨buf, s.et.toNat, s.synced⟩, s.answers⟩ b
    · obtain ⟨t, hexec, ht, -, hout⟩ := exec_feed_moves h hmove
      obtain ⟨hone, hcode⟩ := hmove.records
      refine ⟨t, hexec, ht.ready.inv, fun _ => ht.ready.idle, .inr ⟨ht.ready.idle, rs, eventStatus ev,
        hmove.status h.ok, hone, hcode, ?_⟩⟩
      rw [hout, List.append_assoc]; rfl
    · obtain ⟨t, hexec, ht, hends⟩ := exec_feed_held h hans hstep
      exact ⟨t, hexec, ht, fun hne => absurd hans hne, .inl ⟨_, hends.sinkPort, hends.op, hends.out⟩⟩

/-- FEED commands go through the trace of their bytes, and each responds the status of its event. -/
theorem performAll_feedEach (h : AtStage s p) (hfeeds : p.Feeds bytes evs rs q) :
    ∃ t, performAll (feedEach bytes) s = .next t ∧ AtStage t q ∧ emissions t.out = emissions s.out ++ rs ∧
      responses t.out = responses s.out ++ evs.map (fun ev => [rsp0 1 (eventStatus ev)]) := by
  induction hfeeds generalizing s with
  | nil => exact ⟨s, rfl, h, (List.append_nil _).symm, (List.append_nil _).symm⟩
  | cons hmove _ ih =>
    obtain ⟨u, hexec, hu, -, hout⟩ := exec_feed_moves h hmove
    obtain ⟨t, hall, ht, hem, hrsp⟩ := ih hu
    refine ⟨t, ?_, ht, ?_, ?_⟩
    · simp only [feedEach, List.map_cons, performAll, hexec]; exact hall
    · rw [hem, hout]; simp [emissions_append]
    · rw [hrsp, hout]; simp [responses_append]

/-- Settles O40: FEEDN and the FEEDs of the bytes it processed go through one trace. -/
theorem feednProcessesItsConsumedBytes : Obligations.FeednProcessesItsConsumedBytes := by
  intro s t bytes hr hmin hmax hchunk hexec ht
  obtain ⟨buf, hbuf⟩ := hr.inv.readable
  have ha := Has.of_contents hbuf
  rw [exec_feedn_eq hr hmin hchunk] at hexec
  obtain ⟨fed, left, evs, rs, q, rfl, hfeeds, -, -, hq, hout⟩ := feedBytes_responded hr ha hexec ht
  obtain ⟨u, hall, hu, hem, hrsp⟩ := performAll_feedEach (hr.atStage ha) hfeeds
  obtain ⟨hcont, hfill, het, hsync, hans⟩ := hq.same hu
  refine ⟨fed.length, u, evs.map eventStatus, ?_, ?_, by rw [List.take_left]; exact hall, hu.ready.idle, hcont, hfill, het,
    hsync, hans, ?_, ?_, ?_⟩
  · rw [List.length_append]; omega
  · rw [List.length_map, hfeeds.length]
  · rw [hem, hout]; simp [emissions_append]
  · rw [hrsp, List.map_map]; rfl
  · rw [hout]; simp [responses_append]; rfl

/-! ### What the outputs of a command say -/

/-- The records and the count can be read off the outputs of one command. -/
theorem outputs_inj {out : List PortEvent} {c c' : Byte} {code : Status} {low : Byte}
    (h : out ++ (rs.map .emission ++ [.response [rsp0 c code]]) = out ++ rs'.map .emission ++ [.response [c' ++ low]]) :
    rs = rs' ∧ c = c' := by
  rw [List.append_assoc] at h
  obtain ⟨hrs, hrsp⟩ := List.append_inj' (List.append_cancel_left h) rfl
  refine ⟨List.map_injective_iff.mpr (fun _ _ => PortEvent.emission.inj) hrs, ?_⟩
  simp only [List.cons.injEq, PortEvent.response.injEq, and_true] at hrsp
  have hhigh := congrArg (BitVec.extractLsb' 8 8) hrsp
  rwa [rsp0, BitVec.extractLsb'_append_eq_left, BitVec.extractLsb'_append_eq_left] at hhigh

/-- An event whose answer is STOP is that emission. -/
theorem mem_answer {ev : Event} {ans : Answer} (h : ans ∈ ev.answer) : ev = .emission ans := by
  cases ev with
  | emission ans' => rw [Event.answer, List.mem_singleton] at h; rw [h]
  | quiet => cases h
  | error code => cases h

theorem answer_length (ev : Event) : ev.answer.length ≤ 1 := by
  cases ev with
  | quiet => exact Nat.zero_le 1
  | error code => exact Nat.zero_le 1
  | emission ans => exact le_refl 1

/-- Where only the last event can be STOP, only the last answer used is. -/
theorem answers_dropLast {used : List (BitVec 1)} (hearly : NoEarlyStop evs)
    (hused : used.map answerOfBit = evs.flatMap Event.answer) : ∀ bit ∈ used.dropLast, answerOfBit bit = .proceed := by
  intro bit hbit
  have hmem : answerOfBit bit ∈ (evs.flatMap Event.answer).dropLast := by
    rw [← hused, ← List.map_dropLast]; exact List.mem_map_of_mem hbit
  have hbefore : answerOfBit bit ∈ evs.dropLast.flatMap Event.answer := by
    rcases List.eq_nil_or_concat evs with rfl | ⟨es, ev, rfl⟩
    · exact absurd hmem List.not_mem_nil
    · rw [List.concat_eq_append] at hmem ⊢
      rw [List.dropLast_concat]
      rw [List.flatMap_append, List.flatMap_singleton] at hmem
      have hlast := answer_length ev
      rcases hans : ev.answer with _ | ⟨ans, rest⟩
      · rw [hans, List.append_nil] at hmem; exact List.dropLast_subset _ hmem
      · obtain rfl : rest = [] := by
          rw [hans, List.length_cons] at hlast
          exact List.length_eq_zero_iff.mp (by omega)
        rwa [hans, List.dropLast_concat] at hmem
  obtain ⟨ev, hev, hans⟩ := List.mem_flatMap.mp hbefore
  cases hbit : answerOfBit bit with
  | proceed => rfl
  | stop => exact absurd (mem_answer (hbit ▸ hans)) (hearly ev hev)

/-- A STOP that is not early was the last answer used. -/
theorem answers_getLast {used : List (BitVec 1)} (hearly : NoEarlyStop evs) (hstop : .emission .stop ∈ evs)
    (hused : used.map answerOfBit = evs.flatMap Event.answer) :
    ∃ bit, used.getLast? = some bit ∧ answerOfBit bit = .stop := by
  rcases List.eq_nil_or_concat evs with rfl | ⟨es, ev, rfl⟩
  · exact absurd hstop List.not_mem_nil
  · rw [List.concat_eq_append] at hstop hused hearly
    rw [NoEarlyStop, List.dropLast_concat] at hearly
    obtain rfl : ev = .emission .stop := by
      rcases List.mem_append.mp hstop with h | h
      · exact absurd rfl (hearly _ h)
      · exact (List.mem_singleton.mp h).symm
    have hlast : (used.map answerOfBit).getLast? = some .stop := by
      rw [hused, List.flatMap_append, List.flatMap_singleton]; exact List.getLast?_concat
    rw [List.getLast?_map] at hlast
    exact Option.map_eq_some_iff.mp hlast

/-- Settles O41: the answers used are those of the trace's events, of which only the last can be STOP. -/
theorem shortCountOnlyAfterStop : Obligations.ShortCountOnlyAfterStop := by
  intro s t bytes rs' consumed code hr hmin hmax hchunk hexec ht hout'
  obtain ⟨buf, hbuf⟩ := hr.inv.readable
  have ha := Has.of_contents hbuf
  rw [exec_feedn_eq hr hmin hchunk] at hexec
  obtain ⟨fed, left, evs, rs, q, rfl, hfeeds, hearly, hleft, hq, hout⟩ := feedBytes_responded hr ha hexec ht
  obtain ⟨rfl, rfl⟩ := outputs_inj (hout.symm.trans hout')
  obtain ⟨used, hans, hlen, hused⟩ := hfeeds.answers (hr.atStage ha).ok
  refine ⟨used, by rw [hq.answers]; exact hans, hlen, answers_dropLast hearly hused, fun hshort => ?_⟩
  refine answers_getLast hearly (hleft ?_) hused
  rintro rfl
  rw [List.append_nil] at hmax hshort
  rw [ofNat8_toNat (by omega)] at hshort
  omega

/-! ### Chunking -/

/-- With every answer to come CONTINUE, no event is STOP. -/
theorem Stage.Feeds.no_stop (h : p.Feeds bytes evs rs q) (hok : p.sess.Ok)
    (hcont : ∀ bit ∈ p.answers, answerOfBit bit = .proceed) : .emission .stop ∉ evs := by
  intro hstop
  obtain ⟨used, hans, -, hused⟩ := h.answers hok
  have hmem : Answer.stop ∈ used.map answerOfBit := by
    rw [hused]; exact List.mem_flatMap.mpr ⟨_, hstop, List.mem_singleton.mpr rfl⟩
  obtain ⟨bit, hbit, hanswer⟩ := List.mem_map.mp hmem
  cases hanswer.symm.trans (hcont bit (hans ▸ List.mem_append_left _ hbit))

/-- The answers left are answers that were there. -/
theorem Stage.Feeds.answers_suffix (h : p.Feeds bytes evs rs q) (hok : p.sess.Ok) : q.answers <:+ p.answers := by
  obtain ⟨used, hans, -⟩ := h.answers hok
  exact ⟨used, hans.symm⟩

/-- FEED and FEEDN, answered CONTINUE whenever they ask, go through the trace of all their bytes. -/
theorem exec_feeding {i : Instr} (h : AtStage s p) (hi : Feeding i) (hchunk : s.params.chunkFeed = true)
    (hcont : AllContinue s) (hlen : (fedBytes i).length ≤ s.answers.length) :
    ∃ t evs rs q, exec i s = .next t ∧ p.Feeds (fedBytes i) evs rs q ∧ AtStage t q ∧ t.params = s.params ∧
      emissions t.out = emissions s.out ++ rs := by
  have hexec : exec i s = outcome (feedBytes (fedBytes i) s) := by
    rcases hi with ⟨b, rfl⟩ | ⟨bytes, rfl, hmin, -⟩
    · exact exec_feed_eq h.ready.idle h.ready.sink
    · rw [fedBytes_feedn]; exact exec_feedn_eq h.ready hmin (.inr hchunk)
  obtain ⟨t, hrun, hends⟩ := feedBytes_ends h.ready.inv h.ready.idle h.has (fedBytes i)
  have hnext : outcome (feedBytes (fedBytes i) s) = .next t := congrArg outcome hrun
  have hidle := feedBytes_idle h.ready.inv h.ready.idle h.has hnext hlen
  obtain ⟨fed, left, evs, rs, q, hsplit, hfeeds, -, hleft, hq, hout⟩ := feedBytes_responded h.ready h.has hnext hidle
  obtain rfl : left = [] := by
    by_contra hne
    exact hfeeds.no_stop h.ok hcont (hleft hne)
  rw [List.append_nil] at hsplit
  rw [h.answers] at hfeeds
  exact ⟨t, evs, rs, q, hexec.trans hnext, hsplit ▸ hfeeds, hq, hends.params, by rw [hout]; simp [emissions_append]⟩

/-- Feeding commands in any split go through the trace of all their bytes. -/
theorem performAll_feeding (cmds : List Instr) (h : AtStage s p) (hcmds : ∀ i ∈ cmds, Feeding i)
    (hchunk : s.params.chunkFeed = true) (hcont : AllContinue s)
    (hlen : (cmds.flatMap fedBytes).length ≤ s.answers.length) :
    ∃ t evs rs q, performAll cmds s = .next t ∧ p.Feeds (cmds.flatMap fedBytes) evs rs q ∧ AtStage t q ∧
      emissions t.out = emissions s.out ++ rs := by
  induction cmds generalizing s p with
  | nil => exact ⟨s, [], [], p, rfl, .nil, h, (List.append_nil _).symm⟩
  | cons i cmds ih =>
    obtain ⟨hi, hcmds⟩ := List.forall_mem_cons.mp hcmds
    rw [List.flatMap_cons, List.length_append] at hlen
    obtain ⟨u, evs, rs, q, hexec, hfeeds, hu, hparams, hem⟩ := exec_feeding h hi hchunk hcont (by omega)
    have hused := hfeeds.answers_length
    have hsuf := hfeeds.answers_suffix h.ok
    rw [← h.answers, ← hu.answers] at hused hsuf
    obtain ⟨t, evs', rs', r, hall, hfeeds', ht, hem'⟩ := ih hu hcmds (by rw [hparams]; exact hchunk)
      (fun bit hbit => hcont bit (hsuf.subset hbit)) (by omega)
    refine ⟨t, _, _, r, ?_, hfeeds.append hfeeds', ht, by rw [hem', hem, List.append_assoc]⟩
    simp only [performAll, hexec]
    exact hall

theorem flatMap_fedBytes_feedEach (bytes : List Byte) : (feedEach bytes).flatMap fedBytes = bytes := by
  rw [feedEach, List.flatMap_map]
  exact List.flatMap_singleton' bytes

/-- Settles O43: any two splits go through the one trace of the bytes. -/
theorem chunkingInvariance : Obligations.ChunkingInvariance := by
  intro s cmds hr hchunk hcont hcmds hlen
  obtain ⟨buf, hbuf⟩ := hr.inv.readable
  have h := hr.atStage (Has.of_contents hbuf)
  obtain ⟨t, evs, rs, q, hall, hfeeds, ht, hem⟩ := performAll_feeding cmds h hcmds hchunk hcont hlen
  have heach : ∀ i ∈ feedEach (cmds.flatMap fedBytes), Feeding i := List.forall_mem_map.mpr fun b _ => .inl ⟨b, rfl⟩
  obtain ⟨u, evs', rs', q', hall', hfeeds', hu, hem'⟩ := performAll_feeding _ h heach hchunk hcont
    (by rwa [flatMap_fedBytes_feedEach])
  rw [flatMap_fedBytes_feedEach] at hfeeds'
  obtain ⟨-, rfl, rfl⟩ := hfeeds.unique hfeeds'
  obtain ⟨hcontents, hfill, het, hsync, hans⟩ := ht.same hu
  exact ⟨t, u, hall, hall', ht.ready.idle, hu.ready.idle, hcontents, hfill, het, hsync, hans, hem.trans hem'.symm⟩

/-! ### The bytes of the emitted frames -/

/-- These bytes are gaps and the frames of these records in turn, and then the bytes `kept`. -/
def Segmented (bytes : List Byte) (rs : List SinkRecord) (kept : List Byte) : Prop :=
  ∃ (segments : List (List Byte × List Byte)) (gap : List Byte),
    segments.map (fun p => p.2) = rs.map (fun r => r.bytes) ∧ bytes = weave segments ++ gap ++ kept

theorem weave_append (l l' : List (List Byte × List Byte)) : weave (l ++ l') = weave l ++ weave l' := by
  induction l with
  | nil => rfl
  | cons c l ih => simp only [List.cons_append, weave, ih, List.append_assoc]

/-- Bytes before a segmented stream are one more gap. -/
theorem Segmented.gap {kept : List Byte} (gap : List Byte) (h : Segmented bytes rs kept) :
    Segmented (gap ++ bytes) rs kept := by
  obtain ⟨segments, gap', hrs, rfl⟩ := h
  cases segments with
  | nil => exact ⟨[], gap ++ gap', hrs, by simp [weave]⟩
  | cons c segments => exact ⟨(gap ++ c.1, c.2) :: segments, gap', hrs, by simp [weave]⟩

/-- A segmented stream whose kept bytes go on as another one. -/
theorem Segmented.append {kept kept' rest : List Byte} (h : Segmented bytes rs kept)
    (h' : Segmented (kept ++ rest) rs' kept') : Segmented (bytes ++ rest) (rs ++ rs') kept' := by
  obtain ⟨segments, gap, hrs, rfl⟩ := h
  obtain ⟨segments', gap', hrs', hbytes⟩ := h'.gap gap
  refine ⟨segments ++ segments', gap', by rw [List.map_append, List.map_append, hrs, hrs'], ?_⟩
  rw [weave_append, List.append_assoc, List.append_assoc, ← List.append_assoc (weave segments), List.append_assoc,
    List.append_assoc, hbytes]
  simp only [List.append_assoc]

/-- R90, R97: a byte step keeps a suffix of what it has; a frame it presents stands before that. -/
theorem Stage.Moves.segmented {ev : Event} (h : p.Moves b ev rs q) (hok : p.sess.Ok) :
    Segmented (p.sess.bytes ++ [b]) rs q.sess.bytes := by
  cases h with
  | @ended a a' answers ev h =>
    obtain ⟨-, -, -, k, -, hkeep⟩ : StepOk a b (.ended ev a') := h ▸ Sess.step_ok b hok
    exact ⟨[], (a.bytes ++ [b]).take k, rfl, by rw [hkeep]; simp [weave]⟩
  | @emitted a a' f bit bits h =>
    obtain ⟨hbytes, -, -, hle, -, hf, -⟩ : StepOk a b (.emitting f a') := h ▸ Sess.step_ok b hok
    obtain ⟨k, hk, -, hkeep⟩ := Sess.resync_suffix (a := a') hle
    refine ⟨[([], f)], (a'.bytes.drop a'.et).take (k - a'.et), rfl, ?_⟩
    have hrest : a'.bytes.drop k = (a'.bytes.drop a'.et).drop (k - a'.et) := by rw [List.drop_drop]; congr 1; omega
    simp only [weave, List.nil_append, List.append_nil, hkeep, hrest, List.append_assoc, List.take_append_drop, hf]
    exact hbytes.symm

theorem Stage.Feeds.segmented (h : p.Feeds bytes evs rs q) (hok : p.sess.Ok) :
    Segmented (p.sess.bytes ++ bytes) rs q.sess.bytes := by
  induction h with
  | nil => exact ⟨[], [], rfl, by simp [weave]⟩
  | @cons b bytes p q r ev evs rs rs' h _ ih =>
    have := (h.segmented hok).append (ih (h.ok hok))
    rwa [List.append_assoc, List.singleton_append] at this

/-- Settles O44: every byte step of the trace cuts the bytes it has into a gap, the frame it presents, a gap and what it
keeps. -/
theorem emittedFramesAreSegmentsOfTheInput : Obligations.EmittedFramesAreSegmentsOfTheInput := by
  intro s t bytes buf buf' rs' consumed code hr hmin hmax hchunk hexec ht hout' hbuf hbuf'
  have ha := Has.of_contents hbuf
  rw [exec_feedn_eq hr hmin hchunk] at hexec
  obtain ⟨fed, left, evs, rs, q, rfl, hfeeds, -, -, hq, hout⟩ := feedBytes_responded hr ha hexec ht
  obtain ⟨rfl, rfl⟩ := outputs_inj (hout.symm.trans hout')
  have hkept : buf' = q.sess.bytes := Except.ok.inj (hbuf'.symm.trans hq.has.bytes)
  rw [List.length_append] at hmax
  rw [ofNat8_toNat (by omega), List.take_left, hkept]
  exact hfeeds.segmented (hr.atStage ha).ok

end Sys2Proof.Machine
end

section
/-! PROOFS. What every step keeps of the host's inputs and of the outputs, what it puts out, and what it cannot show
(spec/20_memory.md R36, spec/30_encoding.md R62, R63, spec/10_state.md R20). -/

namespace Sys2Proof.Machine

variable {s t u : State} {i : Instr} {a : Sess} {bytes chunk : List Byte} {o o' : Operation} {e : RunEnd}

/-! ### What a step presents -/

theorem GoodRecord.facts {r : SinkRecord} (h : GoodRecord r) : ValidFrame r.bytes ∧ r = frameRecord r.bytes ∧
    r.total.toNat = r.bytes.length ∧ 14 ≤ r.total.toNat ∧ r.total.toNat ≤ 154 := by
  obtain ⟨f, hf, hmax, rfl⟩ := h
  have ⟨_, _, hmin, htotal, _⟩ := hf
  have hsize : (frameRecord f).total.toNat = f.length := ofNat8_toNat (by omega)
  exact ⟨hf, rfl, hsize, by omega, by omega⟩

/-- Every record the loop presents, the one it is held with included, is that of a valid frame. -/
theorem Sess.run_good (hok : a.Ok) (bytes : List Byte) (o : Operation) (answers : List (BitVec 1)) :
    ∀ r ∈ emissions (Sess.run bytes o a answers).outs, GoodRecord r := by
  obtain ⟨fed, left, evs, rs, q, e, -, hfeeds, -, -, hend, hrun⟩ := Sess.run_trace bytes o ⟨a, answers⟩
  rw [hrun, RunEnd.afterAll, emissions_append, emissions_map_emission]
  refine List.forall_mem_append.mpr ⟨hfeeds.good hok, ?_⟩
  cases hend with
  | responded => exact fun r hr => absurd hr List.not_mem_nil
  | held hleft hans hstep => exact List.forall_mem_singleton.mpr (Sess.step_emitting_good (hfeeds.ok hok) hstep).1

/-- What a command puts out: a meaning that is no feeding presents no record. -/
theorem exec_good (hinv : Inv s) (h : exec i s = .next t) :
    ∃ events, t.out = s.out ++ events ∧ ∀ r ∈ emissions events, GoodRecord r := by
  have hi := idle_of_exec h
  obtain ⟨m, -, hm⟩ := exec_next_meaning h
  cases m with
  | feeds chunk =>
    obtain ⟨buf, hbuf⟩ := hinv.readable
    have ha := Has.of_contents hbuf
    have hends := Ends.of_feedBytes hinv hi ha hm
    exact ⟨_, hends.out, Sess.run_good (ha.inv_iff.mp (hinv.idle hi).2) _ _ _⟩
  | clears => cases hm; exact ⟨_, rfl, fun r hr => absurd hr List.not_mem_nil⟩
  | responds words => cases hm; exact ⟨_, rfl, fun r hr => absurd hr List.not_mem_nil⟩

theorem resumeOperation_good (hinv : Inv s) (ho : s.op = some o) (h : resumeOperation o s = .next t) :
    ∃ events, t.out = s.out ++ events ∧ ∀ r ∈ emissions events, GoodRecord r := by
  cases hans : s.answers with
  | nil =>
    rw [resumeOperation_nil o hans] at h
    cases h
    exact ⟨[], (List.append_nil _).symm, fun r hr => absurd hr List.not_mem_nil⟩
  | cons bit bits =>
    obtain ⟨buf, hbuf⟩ := hinv.readable
    obtain ⟨t', r, rfl, hres, -, -, hend, hok, -⟩ := resumeOperation_reaches hinv ho (.of_contents hbuf) hans
    cases h.symm.trans hres
    exact ⟨_, by rw [hend]; rfl, Sess.run_good hok _ _ _⟩

/-- Settles O49: only the loop presents records, and each is that of the frame its byte step found valid. -/
theorem everyEmissionIsAValidFrame : Obligations.EveryEmissionIsAValidFrame := by
  intro s t hinv hstep
  have hgood : ∃ events, t.out = s.out ++ events ∧ ∀ r ∈ emissions events, GoodRecord r := by
    obtain ⟨-, ⟨o, ho, hres⟩ | ⟨-, -, rfl⟩ | ⟨-, i, u, hc, hexec⟩⟩ := step_cases hstep
    · exact resumeOperation_good hinv ho hres
    · exact ⟨[], (List.append_nil _).symm, fun r hr => absurd hr List.not_mem_nil⟩
    · obtain ⟨rest, -, -, rfl⟩ := takeCommand_eq_some hc
      exact exec_good (s := { s with cmdPort := rest }) (hinv.takeCommand hc) hexec
  obtain ⟨events, hout, hgood⟩ := hgood
  exact ⟨events, hout, fun r hr => (hgood r hr).facts⟩

/-- R62: `RSP0` has zero bits 7:4. -/
theorem rsp0_zero_bits (c : Byte) (code : Status) : (rsp0 c code).extractLsb' 4 4 = 0#4 := by
  rw [rsp0, BitVec.extractLsb'_append_eq_of_add_le (by omega), BitVec.extractLsb'_append_eq_left]

/-- Settles O50: each meaning responds once, and last; the loop is the one that presents records before. -/
theorem oneResponseAfterTheEmissions : Obligations.OneResponseAfterTheEmissions := by
  intro s t i hinv hi hw hexec ht
  obtain ⟨m, hof, hm⟩ := exec_next_meaning hexec
  cases m with
  | feeds chunk =>
    obtain ⟨hfeeding, -, -⟩ := hof
    obtain ⟨buf, hbuf⟩ := hinv.readable
    have ha := Has.of_contents hbuf
    have hends := Ends.of_feedBytes hinv hi ha hm
    obtain ⟨fed, left, evs, rs, q, e, -, -, -, -, hend, hrun⟩ :=
      Sess.run_trace chunk (startOperation chunk) ⟨⟨buf, s.et.toNat, s.synced⟩, s.answers⟩
    rw [hrun] at hends
    cases hend with
    | held => cases ht.symm.trans hends.op
    | responded hleft =>
      have hzero := rsp0_zero_bits (countEvents evs (startOperation chunk)).consumed
        (countEvents evs (startOperation chunk)).firstErr
      refine ⟨rs, _, [], ?_, hzero, .inl rfl, fun _ => hfeeding⟩
      rw [hends.out, List.append_assoc]; rfl
  | clears =>
    cases hm
    exact ⟨[], rsp0 0 .ok, [], by simp, rsp0_zero_bits _ _, .inl rfl, fun h => absurd rfl h⟩
  | responds words =>
    cases hm
    rcases hof with ⟨code, rfl⟩ | ⟨payload, v, rfl, rfl⟩
    · exact ⟨[], rsp0 0 code, [], by simp, rsp0_zero_bits _ _, .inl rfl, fun h => absurd rfl h⟩
    · cases v with
      | reject code =>
        exact ⟨[], rsp0 0 code, [], by simp [verdictWords], rsp0_zero_bits _ _, .inl rfl, fun h => absurd rfl h⟩
      | accept d =>
        exact ⟨[], rsp0 0 .ok, [d.length, d.cmdEcho.setWidth 16, d.status], by simp [verdictWords],
          rsp0_zero_bits _ _, .inr ⟨rfl, rfl, payload, rfl⟩, fun h => absurd rfl h⟩

/-! ### What a step cannot show -/

/-- Blocks that agree on what can be observed have the same session. -/
theorem SameObservable.has (h : SameObservable s t) (ha : Has s a) : Has t a :=
  ⟨h.contents_eq ▸ ha.bytes, h.et_eq ▸ ha.et, h.synced_eq ▸ ha.synced⟩

/-- The loop's end can be observed alike where its beginning can. -/
theorem SameObservable.of_endState {s' t' : State} (h : SameObservable s t) (hs : Has s' e.sess) (ht : Has t' e.sess)
    (hs' : s' = endState s s' e) (ht' : t' = endState t t' e) : SameObservable s' t' where
  contents_eq := hs.bytes.trans ht.bytes.symm
  fill_eq := BitVec.eq_of_toNat_eq (hs.length.symm.trans ht.length)
  et_eq := BitVec.eq_of_toNat_eq (hs.et.trans ht.et.symm)
  synced_eq := hs.synced.trans ht.synced.symm
  op_eq := by rw [hs', ht']; rfl
  sinkPort_eq := by rw [hs', ht']; rfl
  params_eq := by rw [hs', ht']; exact h.params_eq
  sinkPresent_eq := by rw [hs', ht']; exact h.sinkPresent_eq
  cmdPort_eq := by rw [hs', ht']; exact h.cmdPort_eq
  answers_eq := by rw [hs', ht']; rfl
  out_eq := by rw [hs', ht']; exact congrArg (· ++ e.outs) h.out_eq
  misuse_eq := by rw [hs', ht']; exact h.misuse_eq

theorem SameObservable.respond (h : SameObservable s t) (words : List Word) :
    SameObservable (respond words s) (respond words t) :=
  ⟨h.contents_eq, h.fill_eq, h.et_eq, h.synced_eq, h.op_eq, h.sinkPort_eq, h.params_eq, h.sinkPresent_eq, h.cmdPort_eq,
    h.answers_eq, congrArg (· ++ [PortEvent.response words]) h.out_eq, h.misuse_eq⟩

theorem SameObservable.clear (h : SameObservable s t) :
    SameObservable (setSynced false (setEt 0 (setFill 0 s))) (setSynced false (setEt 0 (setFill 0 t))) :=
  ⟨(has_clear s).bytes.trans (has_clear t).bytes.symm, rfl, rfl, rfl, h.op_eq, h.sinkPort_eq, h.params_eq,
    h.sinkPresent_eq, h.cmdPort_eq, h.answers_eq, h.out_eq, h.misuse_eq⟩

theorem SameObservable.takeCommand (h : SameObservable s t) (rest : List Word) :
    SameObservable { s with cmdPort := rest } { t with cmdPort := rest } :=
  ⟨h.contents_eq, h.fill_eq, h.et_eq, h.synced_eq, h.op_eq, h.sinkPort_eq, h.params_eq, h.sinkPresent_eq, rfl,
    h.answers_eq, h.out_eq, h.misuse_eq⟩

/-- A command's meaning is chosen by what can be observed, and does the same to it. -/
theorem SameObservable.exec (h : SameObservable s t) (hs : Inv s) (ht : Inv t) (hi : Idle s) :
    ∀ s', exec i s = .next s' → ∃ t', exec i t = .next t' ∧ SameObservable s' t' := by
  intro s' hexec
  have hit : Idle t := h.op_eq.symm.trans hi
  obtain ⟨m, -, hm⟩ := exec_meaning i s.sinkPresent s.params
  rw [hm s hi rfl rfl] at hexec
  rw [hm t hit h.sinkPresent_eq.symm h.params_eq.symm]
  cases m with
  | feeds chunk =>
    obtain ⟨buf, hbuf⟩ := hs.readable
    have ha := Has.of_contents hbuf
    have hends := Ends.of_feedBytes hs hi ha hexec
    obtain ⟨t', hrun, hends'⟩ := feedBytes_ends ht hit (h.has ha) chunk
    rw [← h.answers_eq] at hends'
    exact ⟨t', congrArg outcome hrun, h.of_endState hends.has hends'.has hends.state hends'.state⟩
  | clears => cases hexec; exact ⟨_, rfl, h.clear.respond _⟩
  | responds words => cases hexec; exact ⟨_, rfl, h.respond _⟩

theorem SameObservable.resume (h : SameObservable s t) (hs : Inv s) (ht : Inv t) (ho : s.op = some o) :
    ∃ s' t', resumeOperation o s = .next s' ∧ resumeOperation o t = .next t' ∧ SameObservable s' t' := by
  cases hans : s.answers with
  | nil => exact ⟨s, t, resumeOperation_nil o hans, resumeOperation_nil o (h.answers_eq.symm.trans hans), h⟩
  | cons bit bits =>
    obtain ⟨buf, hbuf⟩ := hs.readable
    have ha := Has.of_contents hbuf
    obtain ⟨s', r, rfl, hres, hhas, -, hend, -⟩ := resumeOperation_reaches hs ho ha hans
    obtain ⟨t', r', rfl, hres', hhas', -, hend', -⟩ := resumeOperation_reaches ht (h.op_eq.symm.trans ho) (h.has ha)
      (h.answers_eq.symm.trans hans)
    exact ⟨s', t', hres, hres', h.of_endState hhas hhas' hend hend'⟩

/-- Settles O51: what a step does is a function of the session and the ports, which the two states share. -/
theorem staleBytesAreUnobservable : Obligations.StaleBytesAreUnobservable := by
  intro s t hs ht h hp
  have hpt : Proper t := h.misuse_eq.symm.trans hp
  cases ho : s.op with
  | some o =>
    rw [step_held hp ho, step_held hpt (h.op_eq.symm.trans ho)]
    exact h.resume hs ht ho
  | none =>
    have hot : Idle t := h.op_eq.symm.trans ho
    cases hc : takeCommand s with
    | none =>
      have hct : takeCommand t = none :=
        takeCommand_eq_none.mpr (h.cmdPort_eq ▸ takeCommand_eq_none.mp hc)
      exact ⟨s, t, step_waits hp ho hc, step_waits hpt hot hct, h⟩
    | some c =>
      obtain ⟨i, u⟩ := c
      obtain ⟨rest, hdec, hw, rfl⟩ := takeCommand_eq_some hc
      have hct := takeCommand_of_decode (s := t) (h.cmdPort_eq ▸ hdec)
      rw [step_performs hp ho hc, step_performs hpt hot hct]
      obtain ⟨s', hexec, -⟩ := everyCommandCompletes _ i (hs.takeCommand hc) ho hw
      obtain ⟨t', hexec', hsame⟩ := (h.takeCommand rest).exec (hs.takeCommand hc) (ht.takeCommand hct) ho s' hexec
      exact ⟨s', t', hexec, hexec', hsame⟩

/-! ### The frame against the host -/

/-- What a step leaves of the host's inputs and of the outputs before it. -/
structure TakesOnly (s t : State) : Prop where
  params : t.params = s.params
  sinkPresent : t.sinkPresent = s.sinkPresent
  cmdPort : t.cmdPort <:+ s.cmdPort
  answers : t.answers <:+ s.answers
  out : s.out <+: t.out
  misuse : t.misuse = s.misuse

theorem TakesOnly.refl (s : State) : TakesOnly s s :=
  ⟨rfl, rfl, List.suffix_rfl, List.suffix_rfl, List.prefix_rfl, rfl⟩

theorem TakesOnly.trans (h : TakesOnly s t) (h' : TakesOnly t u) : TakesOnly s u :=
  ⟨h'.params.trans h.params, h'.sinkPresent.trans h.sinkPresent, h'.cmdPort.trans h.cmdPort, h'.answers.trans h.answers,
    h.out.trans h'.out, h'.misuse.trans h.misuse⟩

theorem SessionOnly.takesOnly (h : SessionOnly s t) : TakesOnly s t := by
  obtain ⟨-, -, hparams, hsink, hcmd, hans, hout, hmis⟩ := h.frame
  exact ⟨hparams, hsink, hcmd ▸ List.suffix_rfl, hans ▸ List.suffix_rfl, hout ▸ List.prefix_rfl, hmis⟩

theorem takesOnly_respond (words : List Word) (s : State) : TakesOnly s (respond words s) :=
  ⟨rfl, rfl, List.suffix_rfl, List.suffix_rfl, List.prefix_append .., rfl⟩

theorem takesOnly_presentRecord (r : SinkRecord) (s : State) : TakesOnly s (presentRecord r s) :=
  ⟨rfl, rfl, List.suffix_rfl, List.suffix_rfl, List.prefix_append .., rfl⟩

theorem takesOnly_finishEmission {bit : BitVec 1} {bits : List (BitVec 1)} (hans : s.answers = bit :: bits)
    (h : finishEmission bits s = .ok t) : TakesOnly s t := by
  have htake : TakesOnly s (takeAnswer bits s) :=
    ⟨rfl, rfl, List.suffix_rfl, by rw [hans]; exact List.suffix_cons .., List.prefix_rfl, rfl⟩
  exact htake.trans (finishEmission_only h).takesOnly

/-- How the loop takes one more byte (R99). -/
theorem runChunk_cons {b : Byte} {rest : List Byte} (h : runChunk (b :: rest) o s = .ok t) :
    (o.stop = true ∧ t = respondFeed o s) ∨ o.stop = false ∧
      ((∃ ev u, byteStep b s = .ok (.ended ev u) ∧ runChunk rest (countEvent ev o) u = .ok t) ∨
        (∃ r u, byteStep b s = .ok (.emitting r u) ∧ u.answers = [] ∧ t = holdOperation o (presentRecord r u)) ∨
        ∃ r u bit bits v, byteStep b s = .ok (.emitting r u) ∧ u.answers = bit :: bits ∧
          finishEmission bits (presentRecord r u) = .ok v ∧
          runChunk rest (countEvent (.emission (answerOfBit bit)) o) v = .ok t) := by
  rw [runChunk] at h
  cases hstop : o.stop with
  | true => rw [if_pos hstop] at h; exact .inl ⟨rfl, (Except.ok.inj h).symm⟩
  | false =>
    rw [if_neg (by rw [hstop]; decide)] at h
    refine .inr ⟨rfl, ?_⟩
    cases hstep : byteStep b s with
    | error f => simp only [hstep] at h; cases h
    | ok st =>
      cases st with
      | ended ev u => simp only [hstep] at h; exact .inl ⟨ev, u, rfl, h⟩
      | emitting r u =>
        simp only [hstep, presentRecord_answers] at h
        cases hans : u.answers with
        | nil => simp only [hans] at h; exact .inr (.inl ⟨r, u, rfl, hans, (Except.ok.inj h).symm⟩)
        | cons bit bits =>
          simp only [hans] at h
          cases hfin : finishEmission bits (presentRecord r u) with
          | error f => simp only [hfin] at h; cases h
          | ok v => simp only [hfin] at h; exact .inr (.inr ⟨r, u, bit, bits, v, rfl, hans, hfin, h⟩)

theorem takesOnly_runChunk (bytes : List Byte) (o : Operation) (h : runChunk bytes o s = .ok t) : TakesOnly s t := by
  induction bytes generalizing o s with
  | nil => cases h; exact takesOnly_respond ..
  | cons b rest ih =>
    obtain ⟨-, rfl⟩ | ⟨-, hgo⟩ := runChunk_cons h
    · exact takesOnly_respond ..
    obtain ⟨ev, u, hstep, hrun⟩ | ⟨r, u, hstep, -, rfl⟩ | ⟨r, u, bit, bits, v, hstep, hans, hfin, hrun⟩ := hgo
    · exact (byteStep_ended_only hstep).takesOnly.trans (ih _ hrun)
    · have hpres := (byteStep_emitting_only hstep).takesOnly.trans (takesOnly_presentRecord r u)
      exact ⟨hpres.params, hpres.sinkPresent, hpres.cmdPort, hpres.answers, hpres.out, hpres.misuse⟩
    · exact (byteStep_emitting_only hstep).takesOnly.trans
        ((takesOnly_presentRecord r u).trans
          ((takesOnly_finishEmission (s := presentRecord r u) hans hfin).trans (ih _ hrun)))

theorem takesOnly_exec (h : exec i s = .next t) : TakesOnly s t := by
  obtain ⟨m, -, hm⟩ := exec_next_meaning h
  cases m with
  | feeds chunk => exact takesOnly_runChunk _ _ (outcome_eq_next.mp hm)
  | clears =>
    cases hm
    have hclear : SessionOnly s (setSynced false (setEt 0 (setFill 0 s))) := rfl
    exact hclear.takesOnly.trans (takesOnly_respond ..)
  | responds words => cases hm; exact takesOnly_respond ..

theorem takesOnly_resumeOperation (h : resumeOperation o s = .next t) : TakesOnly s t := by
  cases hans : s.answers with
  | nil => rw [resumeOperation_nil o hans] at h; cases h; exact .refl s
  | cons bit bits =>
    simp only [resumeOperation, hans] at h
    cases hfin : finishEmission bits s with
    | error f => simp only [hfin] at h; cases h
    | ok u =>
      simp only [hfin] at h
      exact (takesOnly_finishEmission hans hfin).trans (takesOnly_runChunk _ _ (outcome_eq_next.mp h))

/-- Settles O10: whatever the state, each of the three ways a step can go takes from the front only. -/
theorem hostInputsAreOnlyTaken : Obligations.HostInputsAreOnlyTaken := by
  intro s t hstep
  have h : TakesOnly s t := by
    obtain ⟨-, ⟨o, -, hres⟩ | ⟨-, -, rfl⟩ | ⟨-, i, u, hc, hexec⟩⟩ := step_cases hstep
    · exact takesOnly_resumeOperation hres
    · exact .refl _
    · obtain ⟨rest, hdec, -, rfl⟩ := takeCommand_eq_some hc
      have hport : rest <:+ s.cmdPort := ⟨encode i, (encodeOfDecodeIsTheWords _ _ _ hdec).2⟩
      have htake : TakesOnly s { s with cmdPort := rest } :=
        ⟨rfl, rfl, hport, List.suffix_rfl, List.prefix_rfl, rfl⟩
      exact htake.trans (takesOnly_exec hexec)
  exact ⟨h.params, h.sinkPresent, h.cmdPort, h.answers, h.out, h.misuse⟩

/-! ### Late answers -/

/-- The same block with other answers to come. -/
abbrev withAnswers (answers : List (BitVec 1)) (s : State) : State := { s with answers := answers }

theorem outer_withAnswers {answers : List (BitVec 1)} (h : SessionOnly s t) :
    outer (withAnswers answers s) t = withAnswers answers t := by
  rw [h]; rfl

/-- A byte step does not read the answers. -/
theorem byteStep_withAnswers_ended {b : Byte} {ev : Event} (answers : List (BitVec 1))
    (h : byteStep b s = .ok (.ended ev t)) :
    byteStep b (withAnswers answers s) = .ok (.ended ev (withAnswers answers t)) := by
  have houter : byteStep b (outer (withAnswers answers s) s) = _ := byteStep_outer _ s b
  rw [h] at houter
  rw [← outer_withAnswers (byteStep_ended_only h)]
  exact houter

theorem byteStep_withAnswers_emitting {b : Byte} {r : SinkRecord} (answers : List (BitVec 1))
    (h : byteStep b s = .ok (.emitting r t)) :
    byteStep b (withAnswers answers s) = .ok (.emitting r (withAnswers answers t)) := by
  have houter : byteStep b (outer (withAnswers answers s) s) = _ := byteStep_outer _ s b
  rw [h] at houter
  rw [← outer_withAnswers (byteStep_emitting_only h)]
  exact houter

/-- The rest of an emission's step leaves the answers it is given. -/
theorem finishEmission_withAnswers {bits : List (BitVec 1)} (answers more : List (BitVec 1))
    (h : finishEmission bits s = .ok t) :
    finishEmission (bits ++ more) (withAnswers answers s) = .ok (withAnswers (bits ++ more) t) := by
  have houter := resync_outer (withAnswers (bits ++ more) (takeAnswer bits s)) (takeAnswer bits s) s.et.toNat
  have hrun : resync s.et.toNat (takeAnswer bits s) = .ok t := h
  rw [hrun] at houter
  rw [← outer_withAnswers (finishEmission_only h)]
  exact houter

/-- R153: a loop that is held used up the answers it had, and with the same answers given before them it does what the
held operation does when they come. -/
theorem runChunk_late {bytes : List Byte} (bits : List (BitVec 1)) (hlen : o.chunk.length ≤ 255)
    (hleft : bytes = o.chunk.drop o.consumed.toNat) (hidle : Idle s) (h : runChunk bytes o s = .ok t)
    (ho : t.op = some o') : t.answers = [] ∧
      resumeOperation o' (withAnswers bits t) = outcome (runChunk bytes o (withAnswers (s.answers ++ bits) s)) := by
  induction bytes generalizing o s with
  | nil => cases h; cases ho.symm.trans hidle
  | cons b rest ih =>
    have hcount : ∀ ev, rest = (countEvent ev o).chunk.drop (countEvent ev o).consumed.toNat := fun ev => by
      have hsize := congrArg List.length hleft
      rw [List.length_cons, List.length_drop] at hsize
      rw [countEvent_chunk, countEvent_consumed_toNat (by omega), ← List.drop_drop, ← hleft]
      rfl
    obtain ⟨-, rfl⟩ | ⟨hstop, hgo⟩ := runChunk_cons h
    · cases ho.symm.trans hidle
    have hgoing : ¬ o.stop = true := by rw [hstop]; decide
    obtain ⟨ev, u, hstep, hrun⟩ | ⟨r, u, hstep, hans, rfl⟩ | ⟨r, u, bit, bits₀, v, hstep, hans, hfin, hrun⟩ := hgo
    · obtain ⟨hop, -, -, -, -, hansu, -, -⟩ := (byteStep_ended_only hstep).frame
      have hlate := ih (o := countEvent ev o) hlen (hcount ev) (hop.trans hidle) hrun
      rw [hansu] at hlate
      rw [runChunk, if_neg hgoing]
      simp only [byteStep_withAnswers_ended _ hstep]
      exact hlate
    · obtain ⟨-, -, -, -, -, hansu, -, -⟩ := (byteStep_emitting_only hstep).frame
      obtain rfl : o = o' := Option.some.inj ho
      refine ⟨hans, ?_⟩
      rw [← hansu, hans, List.nil_append, runChunk, if_neg hgoing]
      simp only [byteStep_withAnswers_emitting _ hstep, presentRecord_answers]
      cases bits with
      | nil => rfl
      | cons bit bits =>
        have hrest : o.chunk.drop (o.consumed.toNat + 1) = rest := by rw [← List.drop_drop, ← hleft]; rfl
        have hfin : finishEmission bits (withAnswers (bit :: bits) (holdOperation o (presentRecord r u))) =
            finishEmission bits (presentRecord r (withAnswers (bit :: bits) u)) := rfl
        simp only [resumeOperation, hrest, hfin]
        cases finishEmission bits (presentRecord r (withAnswers (bit :: bits) u)) <;> rfl
    · obtain ⟨-, -, -, -, -, hansu, -, -⟩ := (byteStep_emitting_only hstep).frame
      obtain ⟨hop, -, -, -, -, hansv, -, -⟩ := (finishEmission_only hfin).frame
      have hlate := ih (o := countEvent (.emission (answerOfBit bit)) o) hlen (hcount _) hop hrun
      rw [hansv, takeAnswer_answers] at hlate
      have hearly : finishEmission (bits₀ ++ bits) (presentRecord r (withAnswers (bit :: (bits₀ ++ bits)) u)) =
          .ok (withAnswers (bits₀ ++ bits) v) := finishEmission_withAnswers _ bits hfin
      rw [← hansu, hans, List.cons_append, runChunk, if_neg hgoing]
      simp only [byteStep_withAnswers_emitting _ hstep, presentRecord_answers, hearly]
      exact hlate

/-- Settles O9: only a feeding command is held, and it is held as its loop is. -/
theorem lateAnswersEqualEarlyAnswers : Obligations.LateAnswersEqualEarlyAnswers := by
  intro i s t o bits hp hw hexec ho
  have hi := idle_of_exec hexec
  have hpt : Proper (withAnswers bits t) := (takesOnly_exec hexec).misuse.trans hp
  rw [step_held hpt (show (withAnswers bits t).op = some o from ho)]
  obtain ⟨m, hof, hm⟩ := exec_meaning i s.sinkPresent s.params
  rw [hm s hi rfl rfl] at hexec
  rw [hm { s with answers := s.answers ++ bits } hi rfl rfl]
  cases m with
  | clears => cases hexec; cases ho.symm.trans hi
  | responds words => cases hexec; cases ho.symm.trans hi
  | feeds chunk =>
    obtain ⟨-, -, hlen⟩ := hof
    exact (runChunk_late (o := startOperation chunk) bits (hlen hw) rfl hi (outcome_eq_next.mp hexec) ho).2

end Sys2Proof.Machine
end

section
/-! PROOFS. `ACC` as a memory (spec/20_memory.md R34, R35), and the frames of FEED and FEEDN: which bytes of `ACC` the
parts of a byte step can write (spec/41_stream_decoder.md R90 to R93). -/

namespace Sys2Proof.Machine

variable {s t u : State} {b : Byte} {a off k : Nat} {v bytes : List Byte} {m m' : Memory} {c : Host.Cell}

/-! ### Reading and writing -/

theorem memWrite_eq_ok : memWrite s off v = .ok t ↔
    off + v.length ≤ 154 ∧ t = { s with acc := Memory.writeRange s.acc off v } := by
  unfold memWrite Config.pCap
  split_ifs with h
  · simp only [h, true_and, Except.ok.injEq, eq_comm]
  · simp only [h, false_and]

/-- Settles O24: the laws of the memory, inside the range check and outside it. -/
theorem accWritesReadBack : Obligations.AccWritesReadBack := by
  refine fun s off v => ⟨fun hin => ?_, fun hout => ?_⟩
  · refine ⟨_, memWrite_eq_ok.mpr ⟨hin, rfl⟩, memRead_eq_ok.mpr ⟨hin, rfl, fun i hi => ?_⟩, rfl, fun a ha => ?_⟩
    · rw [read_writeRange, if_pos ⟨Nat.le_add_right .., by omega⟩, Nat.add_sub_cancel_left]
    · rw [read_writeRange, if_neg (by omega)]
  · exact ⟨if_neg (not_le.mpr hout), if_neg (not_le.mpr hout)⟩

/-- An offset below every listed one has no value. -/
theorem read_eq_none (h : ∀ d ∈ m, a < d.1) : Memory.read m a = none := by
  induction m with
  | nil => rfl
  | cons d m ih =>
    obtain ⟨hd, hm⟩ := List.forall_mem_cons.mp h
    rw [Memory.read, if_neg (by omega), ih hm]

theorem read_cons_self : Memory.read (c :: m) c.1 = some c.2 := if_pos rfl

theorem wf_cons (h : Memory.wf (c :: m) = true) : (∀ d ∈ m, c.1 < d.1) ∧ Memory.wf m = true := by
  simpa only [Memory.wf, Bool.and_eq_true, List.all_eq_true, decide_eq_true_eq] using h

/-- In the canonical form the first entry is the lowest offset that has a value. -/
theorem wf_head_le {c' : Host.Cell} (h : Memory.wf (c' :: m') = true)
    (hread : Memory.read (c' :: m') c.1 = some c.2) : c'.1 ≤ c.1 := by
  by_contra hlt
  have hnone : Memory.read (c' :: m') c.1 = none := by
    refine read_eq_none (List.forall_mem_cons.mpr ⟨by omega, fun d hd => ?_⟩)
    have := (wf_cons h).1 d hd
    omega
  cases hnone.symm.trans hread

/-- Settles O25: the first entries are the lowest offsets with a value, hence equal, and below them the rests read
alike. -/
theorem canonicalMemoriesAreEqualData : Obligations.CanonicalMemoriesAreEqualData := by
  intro m
  induction m with
  | nil =>
    intro m' _ _ hsame
    cases m' with
    | nil => rfl
    | cons c' m' => cases (hsame c'.1).trans read_cons_self
  | cons c m ih =>
    intro m' hwf hwf' hsame
    cases m' with
    | nil => cases (hsame c.1).symm.trans read_cons_self
    | cons c' m' =>
      have hle := wf_head_le hwf' ((hsame c.1).symm.trans read_cons_self)
      have hge := wf_head_le hwf ((hsame c'.1).trans read_cons_self)
      have hoff : c.1 = c'.1 := by omega
      have hval : c.2 = c'.2 := by
        have := hsame c.1
        rw [read_cons_self, hoff, read_cons_self] at this
        exact Option.some.inj this
      obtain rfl : c = c' := Prod.ext hoff hval
      obtain ⟨hlt, hm⟩ := wf_cons hwf
      obtain ⟨hlt', hm'⟩ := wf_cons hwf'
      rw [ih m' hm hm' fun a => ?_]
      by_cases ha : c.1 = a
      · rw [read_eq_none fun d hd => ha ▸ hlt d hd, read_eq_none fun d hd => ha ▸ hlt' d hd]
      · have := hsame a
        rwa [Memory.read, Memory.read, if_neg ha, if_neg ha] at this

/-- Settles O27: I4 leaves a byte of room. -/
theorem overflowGuardNeverFires : Obligations.OverflowGuardNeverFires := by
  intro s b hinv hi
  have hroom := (hinv.idle hi).2.room
  obtain ⟨buf, hbuf⟩ := hinv.readable
  obtain ⟨t, happ, hcont, -⟩ := appendByte_spec b hbuf hroom
  exact ⟨overflowGuard_room hroom, t, buf, hbuf, happ, hcont⟩

/-! ### What the parts of a byte step write -/

/-- `FILL` does not grow, `ACC` is written below the new `FILL` only, and not at all when `FILL` stays. -/
structure Shrinks (s t : State) : Prop where
  fill : t.fill.toNat ≤ s.fill.toNat
  above : ∀ a, t.fill.toNat ≤ a → Memory.read t.acc a = Memory.read s.acc a
  whole : t.fill.toNat = s.fill.toNat → ∀ a, Memory.read t.acc a = Memory.read s.acc a

theorem Shrinks.of_eq (hacc : t.acc = s.acc) (hfill : t.fill = s.fill) : Shrinks s t :=
  ⟨by rw [hfill], fun a _ => by rw [hacc], fun _ a => by rw [hacc]⟩

/-- What does not read or write `ACC` and `FILL` may stand before or after. -/
theorem Shrinks.congr {s' t' : State} (h : Shrinks s t) (hs : s'.acc = s.acc ∧ s'.fill = s.fill)
    (ht : t'.acc = t.acc ∧ t'.fill = t.fill) : Shrinks s' t' := by
  obtain ⟨hsacc, hsfill⟩ := hs
  obtain ⟨htacc, htfill⟩ := ht
  exact ⟨by rw [htfill, hsfill]; exact h.fill, by rw [htacc, htfill, hsacc]; exact h.above,
    by rw [htacc, htfill, hsacc, hsfill]; exact h.whole⟩

/-- A move to the front writes what it read, so a move from offset 0 writes nothing new. -/
theorem moveToFront_shrinks (h : moveToFront off k s = .ok t) (hk : k ≤ s.fill.toNat)
    (hfront : k = s.fill.toNat → off = 0 ∨ k = 0) : Shrinks s t := by
  cases hr : memRead s off k with
  | error f => simp only [moveToFront, hr] at h; cases h
  | ok v =>
    obtain ⟨hin, hlen, hread⟩ := memRead_eq_ok.mp hr
    have hw : memWrite s 0 v = .ok { s with acc := Memory.writeRange s.acc 0 v } :=
      memWrite_eq_ok.mpr ⟨by omega, rfl⟩
    simp only [moveToFront, hr, hw] at h
    cases h
    have hfill : (setFill k { s with acc := Memory.writeRange s.acc 0 v }).fill.toNat = k := ofNat8_toNat (by omega)
    refine ⟨by rw [hfill]; exact hk, fun a ha => ?_, fun hsame a => ?_⟩
    · rw [hfill] at ha
      rw [setFill_acc, read_writeRange, if_neg (by omega)]
    · rw [hfill] at hsame
      rw [setFill_acc, read_writeRange]
      split_ifs with ha
      · obtain rfl | rfl := hfront hsame
        · rw [Nat.sub_zero, ← hread a (by omega), Nat.zero_add]
        · omega
      · rfl

theorem moveAndSync_shrinks {flag : Bool} (h : moveAndSync off k flag s = .ok t) (hk : k ≤ s.fill.toNat)
    (hfront : k = s.fill.toNat → off = 0 ∨ k = 0) : Shrinks s t := by
  cases hm : moveToFront off k s with
  | error f => simp only [moveAndSync, hm] at h; cases h
  | ok u =>
    simp only [moveAndSync, hm] at h
    cases h
    exact (moveToFront_shrinks hm hk hfront).congr ⟨rfl, rfl⟩ ⟨rfl, rfl⟩

theorem resync_shrinks {start : Nat} (h : resync start s = .ok t) : Shrinks s t := by
  unfold resync at h
  split_ifs at h
  cases hscan : scanHeader s start (s.fill.toNat - 3 - start) with
  | error f => simp only [hscan] at h; cases h
  | ok p =>
    cases p with
    | some p => simp only [hscan] at h; exact moveAndSync_shrinks h (by omega) (by omega)
    | none => simp only [hscan] at h; exact moveAndSync_shrinks h (by omega) (by omega)

theorem finishEmission_shrinks {bits : List (BitVec 1)} (h : finishEmission bits s = .ok t) : Shrinks s t :=
  (resync_shrinks h).congr ⟨rfl, rfl⟩ ⟨rfl, rfl⟩

/-- What a byte step leaves of `ACC` and `FILL` after the append: an emission's record is presented before any move. -/
def ByteStep.Writes (u : State) : ByteStep → Prop
  | .ended _ t => Shrinks u t
  | .emitting _ t => t.acc = u.acc ∧ t.fill = u.fill

theorem raiseErr_writes {code : Status} {st : ByteStep} (h : endStep (raiseErr code s) = .ok st) : st.Writes s := by
  cases hres : resync 1 s with
  | error f => simp only [raiseErr, hres, endStep] at h; cases h
  | ok t =>
    simp only [raiseErr, hres, endStep] at h
    cases h
    exact resync_shrinks hres

theorem awaitHeader_writes {st : ByteStep} (h : endStep (awaitHeader s) = .ok st) : st.Writes s := by
  unfold awaitHeader at h
  split_ifs at h with hshort
  · cases h; exact .of_eq rfl rfl
  cases hr : memRead s (s.fill.toNat - 4) 4 with
  | error f => simp only [hr] at h; cases h
  | ok w =>
    simp only [hr] at h
    split_ifs at h
    · cases hm : moveAndSync (s.fill.toNat - 4) 4 true s with
      | error f => simp only [hm] at h; cases h
      | ok t => simp only [hm] at h; cases h; exact moveAndSync_shrinks hm (by omega) (by omega)
    · cases hm : moveToFront (s.fill.toNat - 3) 3 s with
      | error f => simp only [hm] at h; cases h
      | ok t => simp only [hm] at h; cases h; exact moveToFront_shrinks hm (by omega) (by omega)

theorem frameReady_writes {st : ByteStep} (h : frameReady s = .ok st) : st.Writes s := by
  unfold frameReady at h
  split_ifs at h
  · cases hfoot : readFooter s s.et.toNat with
    | error f => simp only [hfoot] at h; cases h
    | ok footer =>
      simp only [hfoot] at h
      split_ifs at h
      · exact raiseErr_writes h
      cases hframe : memRead s 0 s.et.toNat with
      | error f => simp only [hframe] at h; cases h
      | ok frame =>
        simp only [hframe] at h
        cases hv : validateFn frame with
        | error f => simp only [hv] at h; cases h
        | ok verdict =>
          cases verdict with
          | reject code => simp only [hv] at h; exact raiseErr_writes h
          | accept d => simp only [hv] at h; cases h; exact ⟨rfl, rfl⟩
  · cases h; exact .of_eq rfl rfl

theorem accumulate_writes {st : ByteStep} (h : accumulate s = .ok st) : st.Writes s := by
  unfold accumulate at h
  split_ifs at h
  · cases hlen : accLe16 s 4 with
    | error f => simp only [hlen] at h; cases h
    | ok length =>
      simp only [hlen] at h
      split_ifs at h
      · exact raiseErr_writes h
      · have hw := frameReady_writes h
        cases st with
        | ended ev t => exact Shrinks.congr hw ⟨rfl, rfl⟩ ⟨rfl, rfl⟩
        | emitting r t => exact hw
  · exact frameReady_writes h

/-- The append writes the byte at `FILL`. -/
theorem appendByte_eq_ok (h : appendByte b s = .ok u) : s.fill.toNat ≤ 153 ∧ u.fill.toNat = s.fill.toNat + 1 ∧
    u.acc = Memory.write s.acc s.fill.toNat b := by
  cases hw : memWrite s s.fill.toNat [b] with
  | error f => simp only [appendByte, hw] at h; cases h
  | ok v =>
    obtain ⟨hroom, rfl⟩ := memWrite_eq_ok.mp hw
    rw [List.length_singleton] at hroom
    simp only [appendByte, hw] at h
    cases h
    exact ⟨by omega, ofNat8_toNat (by omega), rfl⟩

theorem processByte_writes {st : ByteStep} (h : processByte b s = .ok st) :
    ∃ u, appendByte b s = .ok u ∧ st.Writes u := by
  cases happ : appendByte b s with
  | error f => simp only [processByte, happ] at h; cases h
  | ok u =>
    simp only [processByte, happ] at h
    refine ⟨u, rfl, ?_⟩
    split_ifs at h
    · exact accumulate_writes h
    · exact awaitHeader_writes h

/-! ### The frame of FEED -/

theorem Ends.cmdPort {e : RunEnd} (h : Ends s t e) : t.cmdPort = s.cmdPort := by rw [h.state]; rfl
theorem Ends.misuse {e : RunEnd} (h : Ends s t e) : t.misuse = s.misuse := by rw [h.state]; rfl

/-- FEED is the append, and then what shrinks the valid bytes. -/
theorem exec_feed_shrinks (hr : Ready s) (h : exec (.feed b) s = .next t) :
    ∃ u, appendByte b s = .ok u ∧ Shrinks u t := by
  rw [exec_feed_eq hr.idle hr.sink] at h
  have hproc : byteStep b s = processByte b s := by
    simp only [byteStep, overflowGuard_room (hr.inv.idle hr.idle).2.room]
  obtain ⟨hstop, -⟩ | ⟨-, hgo⟩ := runChunk_cons (outcome_eq_next.mp h)
  · cases hstop
  rw [hproc] at hgo
  obtain ⟨ev, v, hstep, hend⟩ | ⟨r, v, hstep, -, rfl⟩ | ⟨r, v, bit, bits, w, hstep, -, hfin, hend⟩ := hgo
  · obtain ⟨u, happ, hw⟩ := processByte_writes hstep
    cases hend
    exact ⟨u, happ, Shrinks.congr hw ⟨rfl, rfl⟩ ⟨rfl, rfl⟩⟩
  · obtain ⟨u, happ, hacc, hfill⟩ := processByte_writes hstep
    exact ⟨u, happ, .of_eq hacc hfill⟩
  · obtain ⟨u, happ, hacc, hfill⟩ := processByte_writes hstep
    cases hend
    exact ⟨u, happ, (finishEmission_shrinks hfin).congr ⟨hacc.symm, hfill.symm⟩ ⟨rfl, rfl⟩⟩

/-- Settles O36: after the append at `FILL`, only bytes below the new `FILL` are written, and none when no byte is
dropped. -/
theorem feedFrame : Obligations.FeedFrame := by
  intro s t b hr h
  obtain ⟨buf, hbuf⟩ := hr.inv.readable
  have hends := Ends.of_feedBytes hr.inv hr.idle (.of_contents hbuf) ((exec_feed_eq hr.idle hr.sink).symm.trans h)
  have htakes := takesOnly_exec h
  obtain ⟨u, happ, hshr⟩ := exec_feed_shrinks hr h
  obtain ⟨-, hfill, hacc⟩ := appendByte_eq_ok happ
  have hother : ∀ a, a ≠ s.fill.toNat → Memory.read u.acc a = Memory.read s.acc a := fun a ha => by
    rw [hacc, read_write, if_neg ha]
  exact ⟨hends.params, hends.sinkPresent, hends.cmdPort, htakes.answers, htakes.out, hends.misuse,
    fun a hle hne => (hshr.above a hle).trans (hother a hne),
    fun hgrow a hne => (hshr.whole (hgrow.trans hfill.symm) a).trans (hother a hne)⟩

/-! ### The frame of FEEDN -/

/-- `FILL` has grown by at most `n`, and no byte at or above `FILL + n` is written. -/
structure Within (n : Nat) (s t : State) : Prop where
  fill : t.fill.toNat ≤ s.fill.toNat + n
  above : ∀ a, s.fill.toNat + n ≤ a → Memory.read t.acc a = Memory.read s.acc a

theorem Within.trans {n k : Nat} (h : Within n s t) (h' : Within k t u) : Within (n + k) s u :=
  ⟨by have := h.fill; have := h'.fill; omega, fun a ha => by
    have := h.fill
    exact (h'.above a (by omega)).trans (h.above a (by omega))⟩

theorem Within.mono {n k : Nat} (h : Within n s t) (hnk : n ≤ k) : Within k s t :=
  ⟨by have := h.fill; omega, fun a ha => h.above a (by omega)⟩

theorem Shrinks.within (h : Shrinks s t) : Within 0 s t :=
  ⟨h.fill, fun a ha => h.above a (by have := h.fill; omega)⟩

theorem appendByte_within (h : appendByte b s = .ok u) : Within 1 s u := by
  obtain ⟨-, hfill, hacc⟩ := appendByte_eq_ok h
  exact ⟨by omega, fun a ha => by rw [hacc, read_write, if_neg (by omega)]⟩

theorem overflowGuard_shrinks {code : Option Status} (h : overflowGuard s = .ok (code, t)) : Shrinks s t := by
  unfold overflowGuard at h
  split_ifs at h
  · cases hres : resync 1 s with
    | error f => simp only [hres] at h; cases h
    | ok v =>
      simp only [hres] at h
      split_ifs at h <;> cases h <;> exact resync_shrinks hres
  · cases h; exact .of_eq rfl rfl

/-- The state a byte step leaves, or in which it presents its record. -/
def ByteStep.state : ByteStep → State
  | .ended _ s => s
  | .emitting _ s => s

theorem ByteStep.Writes.within {st : ByteStep} (h : st.Writes u) : Within 0 u st.state := by
  cases st with
  | ended ev t => exact Shrinks.within h
  | emitting r t => exact (Shrinks.of_eq h.1 h.2).within

theorem byteStep_within {st : ByteStep} (h : byteStep b s = .ok st) : Within 1 s st.state := by
  cases hguard : overflowGuard s with
  | error f => simp only [byteStep, hguard] at h; cases h
  | ok p =>
    obtain ⟨code, v⟩ := p
    have hv := (overflowGuard_shrinks hguard).within
    cases code with
    | some code => simp only [byteStep, hguard] at h; cases h; exact hv.mono (Nat.zero_le 1)
    | none =>
      simp only [byteStep, hguard] at h
      obtain ⟨u, happ, hw⟩ := processByte_writes h
      exact (hv.trans (appendByte_within happ)).trans hw.within

theorem runChunk_within {o : Operation} (h : runChunk bytes o s = .ok t) : Within bytes.length s t := by
  have hrespond : ∀ (o : Operation) (s : State), Within 0 s (respondFeed o s) := fun _ _ =>
    Shrinks.within (.of_eq rfl rfl)
  induction bytes generalizing o s with
  | nil => cases h; exact hrespond o s
  | cons b rest ih =>
    rw [List.length_cons, Nat.add_comm]
    obtain ⟨-, rfl⟩ | ⟨-, hgo⟩ := runChunk_cons h
    · exact (hrespond o s).mono (Nat.zero_le _)
    obtain ⟨ev, u, hstep, hrun⟩ | ⟨r, u, hstep, -, rfl⟩ | ⟨r, u, bit, bits, v, hstep, -, hfin, hrun⟩ := hgo
    · exact (byteStep_within hstep).trans (ih hrun)
    · have hheld : Within 1 s (holdOperation o (presentRecord r u)) :=
        ⟨(byteStep_within hstep).fill, (byteStep_within hstep).above⟩
      exact hheld.mono (Nat.le_add_right ..)
    · have hfinish : Shrinks u v := (finishEmission_shrinks hfin).congr ⟨rfl, rfl⟩ ⟨rfl, rfl⟩
      exact ((byteStep_within hstep).trans hfinish.within).trans (ih hrun)

/-- Settles O45: each byte grows `FILL` by at most one, and a byte step writes below what it grew to. -/
theorem feednFrame : Obligations.FeednFrame := by
  intro s t bytes hr hmin hmax h
  have htakes := takesOnly_exec h
  by_cases hchunk : bytes.length = 1 ∨ s.params.chunkFeed = true
  · rw [exec_feedn_eq hr hmin hchunk] at h
    obtain ⟨buf, hbuf⟩ := hr.inv.readable
    have hends := Ends.of_feedBytes hr.inv hr.idle (.of_contents hbuf) h
    exact ⟨hends.params, hends.sinkPresent, hends.cmdPort, htakes.answers, htakes.out, hends.misuse,
      (runChunk_within (outcome_eq_next.mp h)).above⟩
  · obtain ⟨hone, hno⟩ := not_or.mp hchunk
    have hbad := feednMalformedCalls s (bytes.map payloadWord) hr.idle
      (.inr (.inr (.inl ⟨by rw [List.length_map]; omega, eq_false_of_ne_true hno⟩)))
    cases h.symm.trans hbad
    exact ⟨rfl, rfl, rfl, htakes.answers, htakes.out, rfl, fun _ _ => rfl⟩

end Sys2Proof.Machine
end

section
/-! PROOFS. The Frame Validator on valid frames, on the byte it discards, and on what the Stream Decoder passes
(spec/40_frame_validator.md R84, R85, spec/30_encoding.md R52). -/

namespace Sys2Proof.Machine

variable {s : State} {b : Byte} {buf : List Byte} {payload : List Word}

/-- No rejection has the code `Ok`. -/
theorem validateFn_reject_ne_ok {code : Status} (h : validateFn buf = .ok (.reject code)) : code ≠ .ok := by
  rw [validateFn_eq] at h
  have h := Except.ok.inj h
  split_ifs at h <;> cases h <;> decide

theorem statusCode_eq_zero {code : Status} (h : statusCode code = 0) : code = .ok := by
  cases code with
  | ok => rfl
  | _ => exact absurd h (by decide)

/-- R83: a VALIDATE that responds `Ok` had an accepted buffer of 1 to 154 bytes, and responds its length first. -/
theorem exec_validate_ok {t : State} {ws : List Word} (hi : Idle s) (h : exec (.validate payload) s = .next t)
    (hout : t.out = s.out ++ [.response (0x0000 :: ws)]) :
    ∃ d, validateFn (payload.map fun w => w.extractLsb' 0 8) = .ok (.accept d) ∧ payload.length ≤ 154 ∧
      ws.head? = some d.length := by
  by_cases hbad : payload.length = 0 ∨ 154 < payload.length ∨ ∃ w ∈ payload, w.extractLsb' 8 8 ≠ 0#8
  · cases h.symm.trans (exec_validate_malformed hi hbad)
    have hrsp := List.append_cancel_left hout
    simp only [List.cons.injEq, PortEvent.response.injEq, and_true] at hrsp
    exact absurd hrsp.1 (by decide)
  · push Not at hbad
    obtain ⟨hmin, hmax, hhigh⟩ := hbad
    cases hv : validateFn (payload.map fun w => w.extractLsb' 0 8) with
    | error f => rw [validateFn_eq] at hv; cases hv
    | ok v =>
      cases h.symm.trans (exec_validate_verdict hi (by omega) hmax hhigh hv)
      have hrsp := List.append_cancel_left hout
      simp only [List.cons.injEq, PortEvent.response.injEq, and_true] at hrsp
      cases v with
      | accept d => exact ⟨d, rfl, hmax, by rw [← (List.cons.inj hrsp).2]; rfl⟩
      | reject code =>
        have hcode : statusCode code = 0 := by
          have := congrArg (BitVec.extractLsb' 0 4) (List.cons.inj hrsp).1
          rwa [rsp0, BitVec.extractLsb'_append_eq_of_add_le (by omega), BitVec.extractLsb'_append_eq_right] at this
        exact absurd (statusCode_eq_zero hcode) (validateFn_reject_ne_ok hv)

/-- Settles O19: acceptance is `ValidFrame`, whose length field is the size less 10. -/
theorem validatorAcceptsExactlyValidFrames : Obligations.ValidatorAcceptsExactlyValidFrames := by
  have hsize : ∀ (buf : List Byte) (d : Decoded), validateFn buf = .ok (.accept d) →
      buf.length = 10 + d.length.toNat ∧ 14 ≤ buf.length := by
    intro buf d h
    obtain ⟨⟨-, -, hmin, htotal, -⟩, rfl⟩ := validateFn_eq_accept_iff.mp h
    rw [frameDecoded, lengthOf_toNat]
    omega
  refine ⟨fun buf => ⟨fun ⟨d, h⟩ => (validateFn_eq_accept_iff.mp h).1, fun h =>
    ⟨_, validateFn_eq_accept_iff.mpr ⟨h, rfl⟩⟩⟩, hsize, fun s t payload ws hexec hout => ?_⟩
  obtain ⟨d, hv, hmax, hhead⟩ := exec_validate_ok (idle_of_exec hexec) hexec hout
  obtain ⟨htotal, hmin⟩ := hsize _ d hv
  rw [List.length_map] at htotal hmin
  exact ⟨d.length, hhead, htotal, hmax, by omega, by omega⟩

/-- The bytes the checks and the fields read are not the one at offset 7. -/
theorem getD_set_seven {k : Nat} (h : k ≠ 7) : (buf.set 7 b).getD k 0 = buf.getD k 0 := by
  rw [List.getD_eq_getElem?_getD, List.getD_eq_getElem?_getD, List.getElem?_set_ne (Ne.symm h)]

theorem lengthOf_set_seven : lengthOf (buf.set 7 b) = lengthOf buf := by
  rw [lengthOf, lengthOf, getD_set_seven (by decide), getD_set_seven (by decide)]

theorem frameDecoded_set_seven : frameDecoded (buf.set 7 b) = frameDecoded buf := by
  rw [frameDecoded, frameDecoded, lengthOf_set_seven, getD_set_seven (by decide), getD_set_seven (by decide),
    getD_set_seven (by decide)]

theorem headerAt_set_seven : HeaderAt (buf.set 7 b) 0 ↔ HeaderAt buf 0 := by
  rw [HeaderAt, HeaderAt, List.drop_zero, List.drop_zero, List.take_set_of_le (by decide)]

/-- Settles O21: the checks read the length field, the first 4 bytes and the last 4; where the last 4 would begin at or
before offset 7, the size check has failed before, `L = 1` aside. -/
theorem highEchoByteIsDiscarded : Obligations.HighEchoByteIsDiscarded := by
  intro buf b hone
  rw [validateFn_eq, validateFn_eq, List.length_set, lengthOf_set_seven, frameDecoded_set_seven]
  simp only [headerAt_set_seven]
  by_cases hzero : lengthOf buf = 0
  · simp only [if_pos hzero]
  by_cases htotal : 10 + lengthOf buf = buf.length
  · rw [List.drop_set_of_lt (by omega)]
  · simp only [ne_eq, htotal, not_false_eq_true, if_true]

/-- Settles O22: with the header, the size and the footer right, only the two checks of `L` can fail, and both report
`InvalidFrameSize`. -/
theorem decoderCallFailsOnlyOnShortLength : Obligations.DecoderCallFailsOnlyOnShortLength := by
  intro buf hhdr htotal hftr
  rw [lastBytes] at hftr
  rw [validateFn_eq, if_neg (by omega), if_neg (not_not.mpr htotal.symm), if_neg (not_not.mpr hhdr),
    if_neg (not_not.mpr hftr)]
  by_cases hshort : lengthOf buf < 4
  · rw [if_pos hshort, if_pos (by omega : lengthOf buf ≤ 3), ite_self]
  · rw [if_neg hshort, if_neg (by omega), if_neg (by omega)]

end Sys2Proof.Machine
end

section
/-! PROOFS. FEED inside a frame, exactly: the byte that does not complete it (spec/41_stream_decoder.md R94), the byte that
completes a valid one (R97), with the answer there and without (spec/70_reset_and_hazards.md R153), and which outcome a
candidate has (R104). -/

namespace Sys2Proof.Machine

variable {s t u v : State} {b : Byte} {buf : List Byte} {r : SinkRecord} {e : Nat}

/-! ### The append -/

/-- The state after the append of R92. -/
abbrev appended (b : Byte) (s : State) : State :=
  { s with acc := Memory.write s.acc s.fill.toNat b, fill := s.fill + 1 }

theorem appendByte_eq (hroom : s.fill.toNat ≤ 153) : appendByte b s = .ok (appended b s) := by
  have hw : memWrite s s.fill.toNat [b] = .ok { s with acc := Memory.write s.acc s.fill.toNat b } :=
    memWrite_eq_ok.mpr ⟨by rw [List.length_singleton]; omega, rfl⟩
  have hfill : BitVec.ofNat 8 (s.fill.toNat + 1) = s.fill + 1 := by
    rw [BitVec.ofNat_add, BitVec.ofNat_toNat, BitVec.setWidth_eq]; rfl
  simp only [appendByte, hw, setFill, hfill]

/-- What is appended in a ready block is exactly that. -/
theorem Ready.eq_appended (hr : Ready s) (h : appendByte b s = .ok u) : u = appended b s := by
  rw [appendByte_eq (hr.inv.idle hr.idle).2.room] at h
  exact (Except.ok.inj h).symm

/-! ### No event -/

/-- R96: a frame that is not complete is no event. -/
theorem frameReady_waiting (hbuf : contents u = .ok buf) (h : u.et = 0 ∨ buf.length < u.et.toNat) :
    frameReady u = .ok (.ended .quiet u) := by
  have hno : ¬ frameIsReady u = true := by
    rw [frameIsReady, Bool.and_eq_true, decide_eq_true_eq, bne_iff_ne, ← contents_length hbuf]
    rintro ⟨hne, hle⟩
    rcases h with h | h
    · exact hne h
    · omega
  rw [frameReady, if_neg hno]

/-- Settles O30: before the 6th byte `ET` is not known yet; from then on it is the candidate's total size, which the bytes
do not reach. -/
theorem feedWhileAccumulating : Obligations.FeedWhileAccumulating := by
  intro s b buf hr hsync hbuf hcase
  have hsess := (hr.inv.idle hr.idle).2
  have hfill := contents_length hbuf
  obtain ⟨u, happ, hcont, het, -, hstep⟩ := byteStep_accumulating b hr hsync hbuf
  obtain rfl := hr.eq_appended happ
  have hlen : (buf ++ [b]).length = buf.length + 1 := List.length_append
  by_cases hsix : buf.length + 1 < 6
  · have hzero : s.et = 0 := by
      by_contra hne
      have ⟨_, _, _, hmin, _⟩ := hsess.expected hne
      omega
    have hstart : accumulate (appended b s) = frameReady (appended b s) := by
      rw [accumulate, if_neg]
      rintro ⟨-, hge⟩
      rw [← contents_length hcont] at hge
      omega
    rw [hstart, frameReady_waiting hcont (.inl hzero)] at hstep
    rw [exec_feed_of_ended hr.idle hr.sink hstep, if_pos hsix, ← hzero]
    rfl
  · obtain ⟨hfits, hmore⟩ := hcase.resolve_left hsix
    obtain ⟨u, happ, hcont, hete, -, hstep⟩ := byteStep_completing b hr hsync hbuf (not_lt.mp hsix) rfl hfits
    obtain rfl := hr.eq_appended happ
    rw [frameReady_waiting hcont (.inr (by rw [hete, hlen]; exact hmore))] at hstep
    rw [exec_feed_of_ended hr.idle hr.sink hstep, if_neg hsix]
    rfl

/-! ### An emission -/

/-- R96, R97: the record of a complete valid frame is presented, and nothing is written yet. -/
theorem frameReady_valid (hbuf : contents u = .ok buf) (hmin : 4 ≤ u.et.toNat) (hmax : u.et.toNat ≤ buf.length)
    (hvalid : ValidFrame (buf.take u.et.toNat)) :
    frameReady u = .ok (.emitting (frameRecord (buf.take u.et.toNat)) u) := by
  have hread : memRead u 0 u.et.toNat = .ok (buf.take u.et.toNat) := by
    rw [memRead_of_contents hbuf (by omega), List.drop_zero]
  have haccept := validateFn_eq_accept_iff.mpr ⟨hvalid, rfl⟩
  have hsize : BitVec.ofNat 8 (buf.take u.et.toNat).length = u.et := by
    rw [List.length_take, Nat.min_eq_left hmax, BitVec.ofNat_toNat, BitVec.setWidth_eq]
  have hftr : lastBytes 4 (buf.take u.et.toNat) = Config.pFtr := hvalid.2.2.2.2
  rw [frameReady, if_pos (frameIsReady_of_le hbuf hmin hmax), readFooter_of_le hbuf hmin hmax]
  simp only [hftr, ne_eq, not_true, if_false, hread, haccept]
  rw [frameRecord, hsize]

/-- R97: the byte that completes a valid frame presents its record. -/
theorem byteStep_emits (hr : Ready s) (hsync : s.synced = true) (hbuf : contents s = .ok buf) (hlen : 6 ≤ buf.length + 1)
    (he : e = candidateTotal s (buf ++ [b])) (hfits : e ≤ 154) (hdone : e ≤ buf.length + 1)
    (hvalid : ValidFrame ((buf ++ [b]).take e)) :
    byteStep b s = .ok (.emitting (frameRecord ((buf ++ [b]).take e)) (setEt e (appended b s))) := by
  have hten := ten_le_candidateTotal (hr.inv.idle hr.idle).2 (buf ++ [b])
  obtain ⟨u, happ, hcont, hete, -, hstep⟩ := byteStep_completing b hr hsync hbuf hlen he.symm hfits
  obtain rfl := hr.eq_appended happ
  have hmax : e ≤ (buf ++ [b]).length := by rw [List.length_append]; exact hdone
  rw [hstep, frameReady_valid hcont (by omega) (by omega) (by rwa [hete]), hete]

/-- No STOP has been met at the start of an operation. -/
theorem startOperation_going (chunk : List Byte) : ¬ (startOperation chunk).stop = true := Bool.false_ne_true

/-- R153: a FEED whose record is not answered is held in its byte step. -/
theorem exec_feed_of_emitting_held (hi : Idle s) (hsink : s.sinkPresent = true)
    (hstep : byteStep b s = .ok (.emitting r u)) (hans : u.answers = []) :
    exec (.feed b) s = .next (holdOperation (startOperation [b]) (presentRecord r u)) := by
  rw [exec_feed_eq hi hsink, feedBytes, runChunk, if_neg (startOperation_going _)]
  simp only [hstep, presentRecord_answers, hans]
  rfl

/-- R97: a FEED whose record is answered runs the rest of its byte step and responds `Ok`. -/
theorem exec_feed_of_emitting_answered {bit : BitVec 1} {bits : List (BitVec 1)} (hi : Idle s)
    (hsink : s.sinkPresent = true) (hstep : byteStep b s = .ok (.emitting r u)) (hans : u.answers = bit :: bits)
    (hfin : finishEmission bits (presentRecord r u) = .ok v) :
    exec (.feed b) s = .next (respond [rsp0 1 .ok] v) := by
  rw [exec_feed_eq hi hsink, feedBytes, runChunk, if_neg (startOperation_going _)]
  simp only [hstep, presentRecord_answers, hans, hfin]
  rfl

/-- Settles O34: the record of the completed frame is presented, and the operation is held with its working values. -/
theorem feedOfAValidFrameWaitsForTheAnswer : Obligations.FeedOfAValidFrameWaitsForTheAnswer := by
  intro s b buf e hr hsync hbuf hlen he hfits hdone hvalid hans
  exact exec_feed_of_emitting_held hr.idle hr.sink (byteStep_emits hr hsync hbuf hlen he hfits hdone hvalid) hans

/-- What only changes the session between the append and the response changes nothing else by the end. -/
theorem outer_takeAnswer_presentRecord {bits : List (BitVec 1)} (hidle : s.op = none) (hport : s.sinkPort = none)
    (honly : SessionOnly s v) : outer (takeAnswer bits (presentRecord r s)) v =
      { v with answers := bits, out := s.out ++ [.emission r] } := by
  obtain ⟨hop, hsp, hparams, hsink, hcmd, -, -, hmis⟩ := honly.frame
  simp only [outer, takeAnswer, presentRecord, hop, hsp, hparams, hsink, hcmd, hmis, hidle, hport]

/-- R97: the rest of an emission's step is `RESYNC(e)` on the appended bytes. -/
theorem finishEmission_of_resync {bits : List (BitVec 1)} (hidle : s.op = none) (hport : s.sinkPort = none)
    (hete : (setEt e u).et.toNat = e) (honly : SessionOnly s u) (hres : resync e u = .ok v) :
    finishEmission bits (presentRecord r (setEt e u)) =
      .ok { v with answers := bits, out := s.out ++ [.emission r] } := by
  have houter := resync_outer (takeAnswer bits (presentRecord r s)) (setEt e u) e
  rw [resync_setEt, hres] at houter
  have hsame : takeAnswer bits (presentRecord r (setEt e u)) =
      outer (takeAnswer bits (presentRecord r s)) (setEt e u) := by
    rw [honly]; rfl
  rw [finishEmission, presentRecord_et, hete, hsame, houter,
    ← outer_takeAnswer_presentRecord hidle hport (honly.trans (resync_only hres))]
  rfl

/-- Settles O33: the record is presented, answered, and `RESYNC(e)` runs on the appended bytes. -/
theorem feedOfAValidFrameEmits : Obligations.FeedOfAValidFrameEmits := by
  intro s b buf bit bits e hr hsync hbuf hlen he hfits hdone hvalid hans
  have hport := (hr.inv.idle hr.idle).1
  have hstep := byteStep_emits hr hsync hbuf hlen he hfits hdone hvalid
  obtain ⟨u, happ, hcont, -, honly, -⟩ := byteStep_accumulating b hr hsync hbuf
  obtain rfl := hr.eq_appended happ
  obtain ⟨v, hres, -⟩ := resync_spec (start := e) hcont (by rw [List.length_append]; exact hdone)
  have hfin := finishEmission_of_resync (r := frameRecord ((buf ++ [b]).take e)) (bits := bits) hr.idle hport
    (ofNat8_toNat (by omega)) honly hres
  refine ⟨_, v, happ, hres, ?_⟩
  rw [exec_feed_of_emitting_answered hr.idle hr.sink hstep hans hfin, respond, List.append_assoc]
  rfl

/-! ### Which outcome a candidate has -/

/-- The total size of a candidate, known or not, is what its length field says. -/
theorem candidateTotal_eq (hinv : Inv s) (hi : Idle s) (hbuf : contents s = .ok buf) (b : Byte) :
    candidateTotal s (buf ++ [b]) = 10 + lengthOf (buf ++ [b]) := by
  have hhas := Has.of_contents hbuf
  have hok := hhas.inv_iff.mp (hinv.idle hi).2
  unfold candidateTotal
  split_ifs with het
  · rfl
  · have hne : s.et.toNat ≠ 0 := hhas.et_ne.mp het
    have ⟨_, _, _, hsix, _⟩ := hok.expected hne
    rw [lengthOf_append hsix]
    exact hok.total hne

theorem HeaderAt.take {p n : Nat} (h : HeaderAt buf p) (hn : p + 4 ≤ n) : HeaderAt (buf.take n) p := by
  rw [HeaderAt, List.drop_take, List.take_take, Nat.min_eq_left (by omega)]
  exact h

/-- R85: a candidate with its footer is of the shape the validator gets from the Stream Decoder. -/
theorem validateFn_candidate (hhdr : HeaderAt buf 0) (he : e = 10 + lengthOf buf) (hdone : e ≤ buf.length)
    (hftr : lastBytes 4 (buf.take e) = Config.pFtr) : validateFn (buf.take e) =
      .ok (if lengthOf buf ≤ 3 then .reject .invalidFrameSize else .accept (frameDecoded (buf.take e))) := by
  have hlength : lengthOf (buf.take e) = lengthOf buf := lengthOf_take (by omega)
  have hsize : (buf.take e).length = e := List.length_take_of_le hdone
  rw [decoderCallFailsOnlyOnShortLength _ (hhdr.take (by omega)) (by omega) hftr, hlength]

/-- Settles O35: the size check, the footer check and the validator's check of `L`, in that order, each with its own
outcome. -/
theorem candidateFrameOutcome : Obligations.CandidateFrameOutcome := by
  intro s t b buf e hr hsync hbuf hlen he hcase hans hexec
  have htotal := candidateTotal_eq hr.inv hr.idle hbuf b
  have hhas := Has.of_contents hbuf
  have hok := hhas.inv_iff.mp (hr.inv.idle hr.idle).2
  have hhdr : HeaderAt (buf ++ [b]) 0 := (hok.header hsync).2.append
  by_cases hbig : 144 < lengthOf (buf ++ [b])
  · have het : s.et = 0 := by
      by_contra hne
      have ⟨_, _, hmax, hsix, _⟩ := hok.expected (hhas.et_ne.mp hne)
      have hknown : s.et.toNat = 10 + lengthOf buf := hok.total (hhas.et_ne.mp hne)
      have hmax : s.et.toNat ≤ 154 := hmax
      have hsix : 6 ≤ buf.length := hsix
      rw [lengthOf_append hsix] at hbig
      omega
    obtain ⟨u, v, -, -, hrun⟩ := feedOfAnOversizedLength s b buf hr hsync hbuf het hlen (by omega)
    cases hexec.symm.trans hrun
    rw [if_pos hbig]
  rw [if_neg hbig]
  have hfits : e ≤ 154 := by omega
  have hdone : e ≤ buf.length + 1 := by omega
  have hmax : e ≤ (buf ++ [b]).length := by rw [List.length_append]; exact hdone
  obtain ⟨hwrong, hrejected⟩ := feedOfABadFrame s b buf hr hsync hbuf hlen (he ▸ hfits) (he ▸ hdone)
  rw [← he] at hwrong hrejected
  by_cases hftr : lastBytes 4 ((buf ++ [b]).take e) ≠ Config.pFtr
  · obtain ⟨u, v, -, -, hrun⟩ := hwrong hftr
    cases hexec.symm.trans hrun
    rw [if_pos hftr]
  rw [if_neg hftr]
  rw [not_not] at hftr
  have hverdict := validateFn_candidate hhdr (he.trans htotal) hmax hftr
  by_cases hshort : lengthOf (buf ++ [b]) ≤ 3
  · rw [if_pos hshort] at hverdict ⊢
    obtain ⟨u, v, -, -, hrun⟩ := hrejected _ hftr hverdict
    cases hexec.symm.trans hrun
    rfl
  · rw [if_neg hshort] at hverdict ⊢
    obtain ⟨bit, bits, hans⟩ := List.exists_cons_of_ne_nil hans
    obtain ⟨u, v, -, -, hrun⟩ := feedOfAValidFrameEmits s b buf bit bits e hr hsync hbuf hlen he hfits hdone
      (validateFn_eq_accept_iff.mp hverdict).1 hans
    cases hexec.symm.trans hrun
    rfl

end Sys2Proof.Machine
end

section
/-! PROOFS. Whole frames in the stream (spec/95_test_vectors.md L1-2, L1-4 to L1-6, spec/70_reset_and_hazards.md R159): the
session while no header has been found, the session inside a frame, and the trace of a frame, valid or corrupt. -/

namespace Sys2Proof.Machine

variable {s t : State} {b : Byte} {x buf frame bytes : List Byte} {bit : BitVec 1} {bits answers : List (BitVec 1)}

/-! ### Bytes without a header -/

/-- No complete header stands in these bytes. -/
abbrev NoHeader (x : List Byte) : Prop := ∀ p, ¬ HeaderAt x p

theorem noHeader_nil : NoHeader [] := fun p h => absurd h.length_le (by simp)

/-- A first part of bytes without a header has none. -/
theorem NoHeader.of_append {y : List Byte} (h : NoHeader (x ++ y)) : NoHeader x := fun p hp => h p hp.append

theorem headerAt_drop_one {p : Nat} : HeaderAt (x.drop 1) p ↔ HeaderAt x (p + 1) := by
  rw [HeaderAt, HeaderAt, List.drop_drop, Nat.add_comm]

/-- Bytes with a header at the front at most have none after the first byte. -/
theorem noHeader_drop_one (h : ∀ p, 1 ≤ p → ¬ HeaderAt x p) : NoHeader (x.drop 1) := fun p hp =>
  h (p + 1) (Nat.le_add_left ..) (headerAt_drop_one.mp hp)

theorem lastBytes_append_singleton (n : Nat) (x : List Byte) (b : Byte) :
    lastBytes n x ++ [b] = lastBytes (n + 1) (x ++ [b]) := by
  rw [lastBytes, lastBytes, List.length_append, List.length_singleton, Nat.add_sub_add_right,
    List.drop_append_of_le_length (Nat.sub_le ..)]

theorem lastBytes_of_le {n : Nat} (h : x.length ≤ n) : lastBytes n x = x := by
  rw [lastBytes, Nat.sub_eq_zero_of_le h, List.drop_zero]

theorem lastBytes_lastBytes {n k : Nat} (h : n ≤ k) : lastBytes n (lastBytes k x) = lastBytes n x := by
  rw [lastBytes, lastBytes, lastBytes, List.drop_drop, List.length_drop]
  congr 1
  omega

theorem length_lastBytes (n : Nat) (x : List Byte) : (lastBytes n x).length = min n x.length := by
  rw [lastBytes, List.length_drop]
  omega

theorem NoHeader.lastBytes_ne (h : NoHeader x) : lastBytes 4 x ≠ Config.pHdr := fun heq => by
  refine h (x.length - 4) ?_
  rw [HeaderAt, ← heq]
  exact List.take_of_length_le (by rw [← lastBytes, length_lastBytes]; omega)

/-- R6: the last byte of the header is none of those before it, so a part of a header after bytes without one makes
none. -/
theorem NoHeader.append_partial (h : NoHeader x) : NoHeader (x ++ [0xFD, 0xFC, 0xFB]) := by
  intro p hp
  by_cases hin : p + 4 ≤ x.length
  · refine h p ?_
    rwa [HeaderAt, List.drop_append_of_le_length (by omega), List.take_append_of_le_length
      (by rw [List.length_drop]; omega)] at hp
  · have hlast : (x ++ [0xFD, 0xFC, 0xFB])[p + 3]? = some 0xFA := by
      rw [← List.getElem?_drop, ← List.getElem?_take_of_lt (show 3 < 4 by decide), hp]
      rfl
    rw [List.getElem?_append_right (by omega)] at hlast
    exact absurd (List.mem_of_getElem? hlast) (by decide)

/-! ### The session before a header and inside a frame -/

/-- The session while the bytes so far hold no header: at most the last 3 are kept (R93). -/
def Sess.searching (x : List Byte) : Sess := ⟨lastBytes 3 x, 0, false⟩

/-- The session inside a frame of which these bytes have come (R94). -/
def Sess.inFrame (x : List Byte) : Sess := ⟨x, if x.length < 6 then 0 else 10 + lengthOf x, true⟩

theorem Sess.step_searching (x : List Byte) (b : Byte) :
    (searching x).step b = .ended .quiet (Sess.await ⟨lastBytes 4 (x ++ [b]), 0, false⟩) := by
  rw [← lastBytes_append_singleton]; rfl

theorem Sess.step_searching_quiet (h : NoHeader (x ++ [b])) :
    (searching x).step b = .ended .quiet (searching (x ++ [b])) := by
  rw [Sess.step_searching]
  by_cases hlen : (x ++ [b]).length < 4
  · rw [Sess.await_short (by rw [length_lastBytes]; omega), searching, lastBytes_of_le (by omega),
      lastBytes_of_le (by omega)]
  · rw [Sess.await_other (by rw [length_lastBytes]; omega) h.lastBytes_ne, lastBytes_lastBytes (by decide)]
    rfl

theorem Sess.step_searching_header (h : lastBytes 4 (x ++ [b]) = Config.pHdr) :
    (searching x).step b = .ended .quiet (inFrame Config.pHdr) := by
  rw [Sess.step_searching, Sess.await_header h]; rfl

theorem Sess.step_accumulating (x : List Byte) (e : Nat) (b : Byte) :
    (⟨x, e, true⟩ : Sess).step b = Sess.accumulate ⟨x ++ [b], e, true⟩ := rfl

theorem Sess.inFrame_short (h : x.length < 6) : inFrame x = ⟨x, 0, true⟩ := by rw [inFrame, if_pos h]

theorem Sess.inFrame_known (h : 6 ≤ x.length) : inFrame x = ⟨x, 10 + lengthOf x, true⟩ := by
  rw [inFrame, if_neg (not_lt.mpr h)]

/-- R94: before the 6th byte of a frame there is no event. -/
theorem Sess.step_inFrame_short (h : (x ++ [b]).length < 6) :
    (inFrame x).step b = .ended .quiet (inFrame (x ++ [b])) := by
  have hx : x.length < 6 := by rw [List.length_append] at h; omega
  rw [Sess.inFrame_short hx, Sess.inFrame_short h, Sess.step_accumulating, Sess.accumulate,
    if_neg (fun hc => not_le.mpr h hc.2), Sess.ready, if_neg (fun hc => hc.1 rfl)]

/-- R95: a declared size above 154 is found at the 6th byte. -/
theorem Sess.step_inFrame_oversized (hlen : (x ++ [b]).length = 6) (hbig : 154 < 10 + lengthOf (x ++ [b])) :
    (inFrame x).step b = .ended (.error .bufferTooSmall) ((inFrame (x ++ [b])).resync 1) := by
  have hx : x.length < 6 := by rw [List.length_append, List.length_singleton] at hlen; omega
  rw [Sess.inFrame_short hx, Sess.step_accumulating, Sess.accumulate, if_pos ⟨rfl, hlen.ge⟩, if_pos hbig]
  rfl

/-- R94, R96: from the 6th byte on, with a size that fits, FRAME_READY is tested with `ET` known. -/
theorem Sess.step_inFrame (hlen : 6 ≤ (x ++ [b]).length) (hfits : 10 + lengthOf (x ++ [b]) ≤ 154) :
    (inFrame x).step b = (inFrame (x ++ [b])).ready := by
  rw [Sess.inFrame_known hlen]
  by_cases hx : x.length < 6
  · rw [Sess.inFrame_short hx, Sess.step_accumulating, Sess.accumulate, if_pos ⟨rfl, hlen⟩, if_neg (not_lt.mpr hfits)]
  · rw [Sess.inFrame_known (not_lt.mp hx), Sess.step_accumulating, Sess.accumulate,
      if_neg (fun hc => absurd hc.1 (by simp only; omega)), lengthOf_append (not_lt.mp hx)]

theorem Sess.ready_inFrame_waiting (hlen : 6 ≤ x.length) (hmore : x.length < 10 + lengthOf x) :
    (inFrame x).ready = .ended .quiet (inFrame x) := by
  rw [Sess.ready, if_neg]
  rintro ⟨-, hle⟩
  rw [Sess.inFrame_known hlen] at hle
  exact absurd hle (not_le.mpr hmore)

/-- R96: the tests on a complete frame. -/
theorem Sess.ready_inFrame_complete (hlen : x.length = 10 + lengthOf x) : (inFrame x).ready =
    if lastBytes 4 x ≠ Config.pFtr then .ended (.error .invalidFooter) ((inFrame x).resync 1)
    else if lengthOf x < 4 then .ended (.error .invalidPacket) ((inFrame x).resync 1)
    else .emitting x (inFrame x) := by
  have hknown : inFrame x = ⟨x, x.length, true⟩ := by rw [Sess.inFrame_known (by omega), ← hlen]
  rw [hknown, Sess.ready, if_pos ⟨by simp only; omega, le_refl _⟩, List.take_length]

/-- R90: after an error in bytes whose only header is at the front, the search goes on as if they had been noise. -/
theorem Sess.resync_inFrame (hlen : 4 ≤ x.length) (h : ∀ p, 1 ≤ p → ¬ HeaderAt x p) :
    (inFrame x).resync 1 = searching (x.drop 1) := by
  have hkept : lastBytes 3 (x.drop 1) = lastBytes 3 x := by
    rw [lastBytes, lastBytes, List.drop_drop, List.length_drop]
    exact congrArg x.drop (by omega)
  rw [Sess.resync, inFrame, resyncBytes_of_no_header h, Nat.min_eq_left (by omega), searching, hkept]

/-- R90, R97: after an emission nothing of the frame is kept. -/
theorem Sess.resync_emitted (hlen : x.length = 10 + lengthOf x) :
    (inFrame x).resync (inFrame x).et = searching [] := by
  have hnone : ∀ p, x.length ≤ p → ¬ HeaderAt x p := fun p hp h => absurd h.length_le (by omega)
  rw [Sess.resync, inFrame, if_neg (by omega), ← hlen, resyncBytes_of_no_header hnone, Nat.sub_self, Nat.min_zero,
    lastBytes, Nat.sub_zero, List.drop_length]
  rfl

/-! ### Traces -/

/-- Bytes none of which has an event, with the session a function of the bytes so far. -/
theorem Stage.feeds_quiet (σ : List Byte → Sess) (pre bytes : List Byte) (answers : List (BitVec 1))
    (h : ∀ mid b rest, bytes = mid ++ b :: rest → (σ (pre ++ mid)).step b = .ended .quiet (σ (pre ++ mid ++ [b]))) :
    Stage.Feeds bytes ⟨σ pre, answers⟩ (List.replicate bytes.length .quiet) [] ⟨σ (pre ++ bytes), answers⟩ := by
  induction bytes generalizing pre with
  | nil => rw [List.append_nil]; exact .nil
  | cons b rest ih =>
    have hfirst := h [] b rest rfl
    rw [List.append_nil] at hfirst
    have hrest := ih (pre ++ [b]) fun mid c rest' hsplit => by
      have := h (b :: mid) c rest' (by rw [hsplit]; rfl)
      rwa [← List.singleton_append, ← List.append_assoc] at this
    rw [List.append_assoc, List.singleton_append] at hrest
    exact .cons (.ended hfirst) hrest

theorem Stage.feeds_noise (h : NoHeader (x ++ bytes)) : Stage.Feeds bytes ⟨.searching x, answers⟩
    (List.replicate bytes.length .quiet) [] ⟨.searching (x ++ bytes), answers⟩ := by
  refine Stage.feeds_quiet _ x bytes answers fun mid b rest hsplit => Sess.step_searching_quiet ?_
  rw [hsplit, ← List.singleton_append (l := rest), ← List.append_assoc, ← List.append_assoc] at h
  exact h.of_append

/-- The header after bytes without one. -/
theorem Stage.feeds_header (h : NoHeader x) : Stage.Feeds Config.pHdr ⟨.searching x, answers⟩
    (List.replicate 4 .quiet) [] ⟨.inFrame Config.pHdr, answers⟩ := by
  have hfound : lastBytes 4 (x ++ [0xFD, 0xFC, 0xFB] ++ [0xFA]) = Config.pHdr := by
    rw [List.append_assoc, lastBytes, List.length_append]
    exact List.drop_left
  exact (Stage.feeds_noise h.append_partial).append (Stage.Moves.feeds (.ended (Sess.step_searching_header hfound)))

/-- A candidate frame after bytes without a header has no event before its last byte, and there the tests of a complete
frame. -/
theorem Stage.feeds_candidate (hx : NoHeader x) (hhdr : HeaderAt frame 0) (hlen : frame.length = 10 + lengthOf frame)
    (hmax : frame.length ≤ 154) : ∃ init last, frame = init ++ [last] ∧
      Stage.Feeds init ⟨.searching x, answers⟩ (List.replicate (frame.length - 1) .quiet) [] ⟨.inFrame init, answers⟩ ∧
      (Sess.inFrame init).step last = (Sess.inFrame frame).ready := by
  obtain ⟨body, last, hbody⟩ : ∃ body last, frame.drop 4 = body ++ [last] := by
    rcases List.eq_nil_or_concat (frame.drop 4) with h | ⟨body, last, h⟩
    · have := congrArg List.length h
      rw [List.length_drop, List.length_nil] at this
      omega
    · exact ⟨body, last, by rw [h, List.concat_eq_append]⟩
  have hframe : frame = Config.pHdr ++ body ++ [last] := by
    rw [List.append_assoc, ← hbody, ← hhdr, List.drop_zero, List.take_append_drop]
  refine ⟨Config.pHdr ++ body, last, hframe, ?_, ?_⟩
  · have hquiet : ∀ mid b rest, body = mid ++ b :: rest → (Sess.inFrame (Config.pHdr ++ mid)).step b =
        .ended .quiet (Sess.inFrame (Config.pHdr ++ mid ++ [b])) := by
      intro mid b rest hsplit
      have hrest : frame = (Config.pHdr ++ mid ++ [b]) ++ (rest ++ [last]) := by
        rw [hframe, hsplit]; simp only [List.append_assoc, List.cons_append, List.nil_append]
      by_cases hshort : (Config.pHdr ++ mid ++ [b]).length < 6
      · exact Sess.step_inFrame_short hshort
      · have hsix := not_lt.mp hshort
        have hsame : lengthOf (Config.pHdr ++ mid ++ [b]) = lengthOf frame := by rw [hrest, lengthOf_append hsix]
        have hmore : (Config.pHdr ++ mid ++ [b]).length < frame.length := by
          rw [hrest, List.length_append (bs := rest ++ [last]), List.length_append (as := rest), List.length_singleton]
          omega
        rw [Sess.step_inFrame hsix (by omega), Sess.ready_inFrame_waiting hsix (by omega)]
    have hfeeds := (Stage.feeds_header (answers := answers) hx).append (Stage.feeds_quiet _ _ body answers hquiet)
    rw [← List.replicate_add, List.append_nil] at hfeeds
    have hcount : frame.length - 1 = 4 + body.length := by
      rw [hframe, List.length_append, List.length_append]; rfl
    rwa [hcount]
  · rw [hframe] at hlen hmax ⊢
    exact Sess.step_inFrame (by omega) (by omega)

/-- The events of a valid frame: none before its last byte, and there its emission. -/
def frameEvents (frame : List Byte) (ans : Answer) : List Event :=
  List.replicate (frame.length - 1) .quiet ++ [.emission ans]

/-- A valid frame after bytes without a header is emitted at its last byte, and nothing is kept. -/
theorem Stage.feeds_validFrame (hx : NoHeader x) (hvalid : ValidFrame frame) (hmax : frame.length ≤ 154) :
    Stage.Feeds frame ⟨.searching x, bit :: bits⟩ (frameEvents frame (answerOfBit bit)) [frameRecord frame]
      ⟨.searching [], bits⟩ := by
  obtain ⟨-, hhdr, hmin, htotal, hftr⟩ := hvalid
  rw [← lastBytes] at hftr
  obtain ⟨init, last, hframe, hfeeds, hstep⟩ := Stage.feeds_candidate (answers := bit :: bits) hx hhdr htotal.symm hmax
  have hemit : (Sess.inFrame init).step last = .emitting frame (Sess.inFrame frame) := by
    rw [hstep, Sess.ready_inFrame_complete htotal.symm, if_neg (not_not.mpr hftr), if_neg (by omega)]
  have hlast := Stage.Moves.feeds (Stage.Moves.emitted (bit := bit) (bits := bits) hemit)
  rw [Sess.resync_emitted htotal.symm] at hlast
  have := hfeeds.append hlast
  rwa [← hframe] at this

/-- A frame with a wrong footer and no header inside it is an error at its last byte, and the search goes on. -/
theorem Stage.feeds_badFooter (hx : NoHeader x) (hhdr : HeaderAt frame 0) (hno : ∀ p, 1 ≤ p → ¬ HeaderAt frame p)
    (hlen : frame.length = 10 + lengthOf frame) (hmax : frame.length ≤ 154) (hftr : lastBytes 4 frame ≠ Config.pFtr) :
    Stage.Feeds frame ⟨.searching x, answers⟩ (List.replicate (frame.length - 1) .quiet ++ [.error .invalidFooter]) []
      ⟨.searching (frame.drop 1), answers⟩ := by
  obtain ⟨init, last, hframe, hfeeds, hstep⟩ := Stage.feeds_candidate (answers := answers) hx hhdr hlen hmax
  rw [Sess.ready_inFrame_complete hlen, if_pos hftr, Sess.resync_inFrame (by omega) hno] at hstep
  have := hfeeds.append (Stage.Moves.feeds (.ended hstep))
  rwa [← hframe] at this

/-- An oversized frame with no header inside it is an error at its 6th byte, and the rest of it is noise. -/
theorem Stage.feeds_oversized (hx : NoHeader x) (hhdr : HeaderAt frame 0) (hno : ∀ p, 1 ≤ p → ¬ HeaderAt frame p)
    (hlen : 6 ≤ frame.length) (hbig : 144 < lengthOf frame) : Stage.Feeds frame ⟨.searching x, answers⟩
      (List.replicate 5 .quiet ++ [.error .bufferTooSmall] ++ List.replicate (frame.length - 6) .quiet) []
      ⟨.searching (frame.drop 1), answers⟩ := by
  obtain ⟨lo, hi, body, hframe⟩ : ∃ lo hi body, frame = Config.pHdr ++ [lo] ++ [hi] ++ body := by
    obtain ⟨lo, rest, hlo⟩ := List.exists_cons_of_length_pos (l := frame.drop 4) (by rw [List.length_drop]; omega)
    obtain ⟨hi, body, hrest⟩ := List.exists_cons_of_length_pos (l := rest) (by
      have := congrArg List.length hlo
      rw [List.length_drop, List.length_cons] at this
      omega)
    refine ⟨lo, hi, body, ?_⟩
    rw [List.append_assoc, List.append_assoc, List.singleton_append, List.singleton_append, ← hrest, ← hlo, ← hhdr,
      List.drop_zero, List.take_append_drop]
  have hsame : lengthOf (Config.pHdr ++ [lo] ++ [hi]) = lengthOf frame := by
    rw [hframe]; exact (lengthOf_append (by simp [Config.pHdr])).symm
  have hnoFront : ∀ p, 1 ≤ p → ¬ HeaderAt (Config.pHdr ++ [lo] ++ [hi]) p := fun p hp h =>
    hno p hp (by rw [hframe]; exact h.append)
  have hfifth : (Sess.inFrame Config.pHdr).step lo = .ended .quiet (.inFrame (Config.pHdr ++ [lo])) :=
    Sess.step_inFrame_short (Nat.lt_succ_self 5)
  have hsixth := Sess.step_inFrame_oversized (x := Config.pHdr ++ [lo]) (b := hi) rfl (by omega)
  rw [Sess.resync_inFrame (by simp [Config.pHdr]) hnoFront] at hsixth
  have hdrop : (Config.pHdr ++ [lo] ++ [hi]).drop 1 ++ body = frame.drop 1 := by rw [hframe]; rfl
  have hnoise := Stage.feeds_noise (answers := answers) (hdrop ▸ noHeader_drop_one hno)
  have hfeeds := (((Stage.feeds_header (answers := answers) hx).append (Stage.Moves.feeds (.ended hfifth))).append
    (Stage.Moves.feeds (.ended hsixth))).append hnoise
  rw [hdrop, ← hframe] at hfeeds
  have hbody : frame.length - 6 = body.length := by rw [hframe]; simp [Config.pHdr]
  rwa [hbody]

/-! ### Blocks -/

/-- A ready block that keeps no byte is at the stage where a search begins. -/
theorem Ready.atStage_empty (hr : Ready s) (hbuf : contents s = .ok []) : AtStage s ⟨.searching [], s.answers⟩ := by
  have hhas := Has.of_contents hbuf
  have hok := hhas.inv_iff.mp (hr.inv.idle hr.idle).2
  have hsync : s.synced = false := by
    cases hs : s.synced with
    | false => rfl
    | true => exact absurd (hok.header hs).1 (by simp)
  refine ⟨hr, ⟨hbuf, (hok.awaiting hsync).2, hsync⟩, rfl⟩

/-- Feeding a list of bytes by FEED commands, from no byte kept to no byte kept. -/
theorem performAll_to_empty {evs : List Event} {rs : List SinkRecord} (hr : Ready s) (hbuf : contents s = .ok [])
    (hans : s.answers = answers) (hfeeds : Stage.Feeds bytes ⟨.searching [], answers⟩ evs rs ⟨.searching [], bits⟩) :
    ∃ t, performAll (feedEach bytes) s = .next t ∧ Idle t ∧ contents t = .ok [] ∧ t.et = 0 ∧ t.synced = false ∧
      t.answers = bits ∧ emissions t.out = emissions s.out ++ rs ∧
      responses t.out = responses s.out ++ evs.map (fun ev => [rsp0 1 (eventStatus ev)]) := by
  subst hans
  obtain ⟨t, hall, ht, hem, hrsp⟩ := performAll_feedEach (hr.atStage_empty hbuf) hfeeds
  exact ⟨t, hall, ht.ready.idle, ht.has.bytes, BitVec.eq_of_toNat_eq ht.has.et, ht.has.synced, ht.answers, hem, hrsp⟩

/-- Each byte of a valid frame is answered `Ok`. -/
theorem responses_frameEvents (h : 1 ≤ frame.length) (ans : Answer) :
    (frameEvents frame ans).map (fun ev => [rsp0 1 (eventStatus ev)]) = List.replicate frame.length [0x0100] := by
  obtain ⟨n, hn⟩ : ∃ n, frame.length = n + 1 := ⟨frame.length - 1, by omega⟩
  have hok : rsp0 1 .ok = 0x0100 := rfl
  rw [frameEvents, hn, List.map_append, List.map_replicate, List.replicate_succ', Nat.add_sub_cancel, ← hok]
  rfl

theorem ValidFrame.one_le (h : ValidFrame frame) : 1 ≤ frame.length := le_trans (by decide) h.1

/-- Settles O52: the trace of the frame from an empty session, `Ok` at every byte. -/
theorem everyValidFrameIsEmittedOnce : Obligations.EveryValidFrameIsEmittedOnce := by
  intro s frame bit bits hr hbuf hvalid hmax hans
  have hfeeds := Stage.feeds_validFrame (bit := bit) (bits := bits) noHeader_nil hvalid hmax
  obtain ⟨t, hall, hidle, hcont, het, hsync, hans', hem, hrsp⟩ := performAll_to_empty hr hbuf hans hfeeds
  exact ⟨t, hall, hidle, hcont, het, hsync, hans', hem, by rw [hrsp, responses_frameEvents hvalid.one_le]⟩

/-- Settles O53: the noise is searched without an event, then the frame is found. -/
theorem noiseBeforeAFrameIsDiscarded : Obligations.NoiseBeforeAFrameIsDiscarded := by
  intro s noise frame bit bits hr hbuf hno hvalid hmax hans
  have hfeeds := (Stage.feeds_noise (x := []) (answers := bit :: bits) hno).append
    (Stage.feeds_validFrame (bit := bit) (bits := bits) hno hvalid hmax)
  obtain ⟨t, hall, hidle, hcont, -, -, -, hem, hrsp⟩ := performAll_to_empty hr hbuf hans hfeeds
  refine ⟨t, hall, hidle, hcont, hem, ?_⟩
  rw [hrsp, List.map_append, List.map_replicate, responses_frameEvents hvalid.one_le, List.replicate_add]
  rfl

/-- Settles O54: the error is at the last byte, and the bytes kept after it cannot hide the next header. -/
theorem recoveryAfterACorruptedFooter : Obligations.RecoveryAfterACorruptedFooter := by
  intro s bad frame bit bits hr hbuf hhdr hno hlen hmax hftr hvalid hmax' hans
  have hfeeds := (Stage.feeds_badFooter (answers := bit :: bits) noHeader_nil hhdr hno hlen hmax hftr).append
    (Stage.feeds_validFrame (bit := bit) (bits := bits) (noHeader_drop_one hno) hvalid hmax')
  obtain ⟨t, hall, hidle, hcont, -, -, -, hem, hrsp⟩ := performAll_to_empty hr hbuf hans hfeeds
  refine ⟨t, hall, hidle, hcont, hem, ?_⟩
  rw [hrsp, List.map_append, List.map_append, List.map_replicate, responses_frameEvents hvalid.one_le, ← List.append_assoc,
    ← List.append_assoc]
  rfl

/-- Settles O55: the error is at the sixth byte, and the rest of the frame is noise. -/
theorem recoveryAfterAnOversizedLength : Obligations.RecoveryAfterAnOversizedLength := by
  intro s big frame bit bits hr hbuf hhdr hno hlen hbig hvalid hmax hans
  have hfeeds := (Stage.feeds_oversized (answers := bit :: bits) noHeader_nil hhdr hno hlen hbig).append
    (Stage.feeds_validFrame (bit := bit) (bits := bits) (noHeader_drop_one hno) hvalid hmax)
  obtain ⟨t, hall, hidle, hcont, -, -, -, hem, hrsp⟩ := performAll_to_empty hr hbuf hans hfeeds
  refine ⟨t, hall, hidle, hcont, hem, ?_⟩
  rw [hrsp, List.map_append, List.map_append, List.map_append, List.map_replicate, List.map_replicate,
    responses_frameEvents hvalid.one_le, List.replicate_add]
  simp only [List.append_assoc]
  rfl

/-! ### The early stop -/

theorem firstError_frameEvents (ans : Answer) : firstError ((frameEvents frame ans).map eventStatus) = .ok := by
  rw [frameEvents]
  induction frame.length - 1 with
  | zero => rfl
  | succ n ih => exact ih

/-- Settles O42: the loop follows the trace of the frame, whose last event is STOP, and there it responds. -/
theorem stopEndsTheChunk : Obligations.StopEndsTheChunk := by
  intro s frame rest bits hr hchunk hbuf hvalid hmax hlen hans
  have hstage := hr.atStage_empty hbuf
  have hfeeds : Stage.Feeds frame ⟨.searching [], 1#1 :: bits⟩ (frameEvents frame .stop) [frameRecord frame]
      ⟨.searching [], bits⟩ := Stage.feeds_validFrame noHeader_nil hvalid hmax
  have hone := hvalid.one_le
  have hearly : NoEarlyStop (frameEvents frame .stop) := by
    rw [NoEarlyStop, frameEvents, List.dropLast_concat]
    intro ev hev
    rw [List.eq_of_mem_replicate hev]
    exact Event.noConfusion
  have hstop : (countEvents (frameEvents frame .stop) (startOperation (frame ++ rest))).stop = true :=
    countEvents_stop.mpr (.inr (List.mem_append_right _ (List.mem_singleton.mpr rfl)))
  obtain ⟨t, hrun, hends⟩ := feedBytes_ends hr.inv hr.idle hstage.has (frame ++ rest)
  have hgo := Sess.run_append (rest := rest) (o := startOperation (frame ++ rest)) rfl hfeeds hearly
  rw [hans, hgo, Sess.run_of_stop hstop] at hends
  have ht := hends.atStage hr (hfeeds.ok (hans ▸ hstage).ok)
  have hexec := exec_feedn_eq (bytes := frame ++ rest) hr (by rw [List.length_append]; omega) (.inr hchunk)
  have hcount : (frameEvents frame .stop).length = frame.length := hfeeds.length
  have hfill : t.fill.toNat = 0 := ht.has.length.symm
  refine ⟨t, hexec.trans (congrArg outcome hrun), ht.ready.idle, ?_, ht.answers, ht.has.bytes,
    BitVec.eq_of_toNat_eq hfill, BitVec.eq_of_toNat_eq ht.has.et, ht.has.synced⟩
  rw [hends.out, RunEnd.afterAll, RunEnd.responded, rsp0_countEvents, hcount, firstError_frameEvents]
  rfl

end Sys2Proof.Machine
end
